-- ==== Sys2Proof/Word.lean ====
section
/-! DEFINITION. Word.lean: the plain word types of the block (00_scope.md R7). -/

namespace Sys2Proof

/-- A byte: bits 7:0 (R7). -/
abbrev Byte := BitVec 8

/-- A register or descriptor word of 32 bits (R22, R70). -/
abbrev Word := BitVec 32

/-- An offset of the register window, 0x000 to 0xFFF (R50, R51). -/
abbrev Offset := BitVec 12

/-- One element (dc, byte) of UNLOCK_SEQ or SETUP_SEQ (R111, R112); true is DC level 1. -/
abbrev DcByte := Bool × Byte

end Sys2Proof
end

