-- ==== Sys2Proof/Config.lean ====
section
/-! DEFINITION. Config.lean: the parameters of the block (00_scope.md R6, 10_state.md R41) and the model's free
values. A value the spec leaves OPEN is an opaque constant: nothing can be proved of it but its type. -/

namespace Sys2Proof

/-- The 16 settings of the initialiser, in the order of R111. -/
inductive SetupItem where
  | clockDivider | multiplexRatio | displayOffset | startLine | chargePump | addressingMode | segmentRemap
  | comScanDirection | comPinConfig | contrast | prechargePeriod | vcomDetectLevel | displayAllOnResume
  | normalPolarity | scrollDeactivation | displayOn
  deriving DecidableEq, Repr, Inhabited

/-- The glyph classes of R135: 38 visible ones and BLANK. -/
inductive GlyphClass where
  | blank
  | digit (d : Fin 10)
  | letter (l : Fin 26)
  | leftArrow
  | rightArrow
  deriving DecidableEq, Repr, Inhabited

namespace Config

/-- COLS, fixed 128 (R6). -/
def cols : Nat := 128
/-- PAGES, fixed 8 (R6). -/
def pages : Nat := 8
/-- BMP_COLBYTES, fixed 16 (R6). -/
def bmpColBytes : Nat := 16
/-- ROWS, fixed 64 (R6). -/
def rows : Nat := 64
/-- CHAR_WIDTH, fixed 5 (R6). -/
def charWidth : Nat := 5
/-- CHAR_ADVANCE = CHAR_WIDTH + 1 (R6). -/
def charAdvance : Nat := charWidth + 1
/-- T_RST_LOW, in milliseconds (R6). -/
def tRstLowMs : Nat := 5
/-- T_RST_REC, in milliseconds (R6). -/
def tRstRecMs : Nat := 1
/-- TEXT_BYTES, decided 64 (R6, D13). -/
def textBytes : Nat := 64
/-- SPI_MODE, decided 0 (R6, D17); bit 1 is CPOL, bit 0 is CPHA (R34). -/
def spiMode : BitVec 2 := 0#2

/-- F_CLK - 1: the block clock in Hz is OPEN and positive (R6, D18). -/
opaque fClkPred : Nat
/-- F_CLK in Hz (R6). -/
def fClk : Nat := fClkPred + 1

/-- BR, the code of the OPEN prescaler: PRESCALER = 2^(BR+1), one of 2, 4, ..., 256 (R6, R34, D18). -/
opaque prescalerCode : BitVec 3
/-- PRESCALER (R6, R34). -/
def prescaler : Nat := 2 ^ (prescalerCode.toNat + 1)

/-- SETTLE_CYCLES, OPEN, 0 allowed (R6, R104, D19). -/
opaque settleCycles : Nat
/-- TEST_COL_DELAY, OPEN (R6, R151, D24). -/
opaque testColDelay : Nat

/-- BASE / 4096: the window base is OPEN and a multiple of 4096 (R50, D3). -/
opaque basePage : Nat
/-- BASE (R50). -/
def base : Nat := 4096 * basePage

/-- The first element of UNLOCK_SEQ, which may not be empty (R112, D22). -/
opaque unlockHead : DcByte
/-- The other elements of UNLOCK_SEQ (R112, D22). -/
opaque unlockTail : List DcByte
/-- UNLOCK_SEQ (R112). -/
def unlockSeq : List DcByte := unlockHead :: unlockTail

/-- The command byte of one setting, with its DC level, OPEN (R111, D22). -/
opaque setupCommand : SetupItem → DcByte
/-- The parameter bytes of one setting, if it takes any, OPEN (R111, D22). -/
opaque setupParams : SetupItem → List DcByte
/-- The 16 settings in the order of R111, display-on last. -/
def setupOrder : List SetupItem :=
  [.clockDivider, .multiplexRatio, .displayOffset, .startLine, .chargePump, .addressingMode, .segmentRemap,
   .comScanDirection, .comPinConfig, .contrast, .prechargePeriod, .vcomDetectLevel, .displayAllOnResume,
   .normalPolarity, .scrollDeactivation, .displayOn]
/-- SETUP_SEQ: the concatenation of the 16 settings, each its command byte and then its parameters (R111). -/
def setupSeq : List DcByte := setupOrder.flatMap fun i => setupCommand i :: setupParams i

/-- The GLYPH entries the spec leaves OPEN (R136, D23); the entries of BLANK and 'A' are not read from here. -/
opaque openGlyph : GlyphClass → Fin 5 → Byte

/-- The free value a host read draws for a buffer byte that no write has reached since block reset (R44, 93 I4);
the argument is the number of the draw. -/
opaque unwrittenByte : Nat → Byte

/-- The free value that fills bit 0 of SHIFT at a shift, which the spec does not state (R36, R92); the arguments are
the length of the trace, which grows with every byte, and BITCNT before the shift. -/
opaque shiftFill : Nat → BitVec 4 → Bool

end Config

end Sys2Proof
end

