-- ==== Sys2Proof/Syntax.lean ====
section
/-! DEFINITION. Syntax.lean: the nine operations of spec/opcode_table.json (30_encoding.md R70 to R75). -/

namespace Sys2Proof

/-- An operation descriptor, decoded. Every operation carries all three operand fields of R70, the ones it ignores
(R75) too, because OP reads back the whole accepted word (10_state.md R23): ARG (8 bits), X (7 bits), Y (3 bits). -/
inductive Instr where
  /-- CONFIG: configure the serial master (R98). -/
  | config (arg : BitVec 8) (x : BitVec 7) (y : BitVec 3)
  /-- RESET: pulse the display's hardware reset (R99). -/
  | reset (arg : BitVec 8) (x : BitVec 7) (y : BitVec 3)
  /-- CMD: send ARG as a command byte (R100). -/
  | cmd (arg : BitVec 8) (x : BitVec 7) (y : BitVec 3)
  /-- DATA: send ARG as a data byte (R101). -/
  | data (arg : BitVec 8) (x : BitVec 7) (y : BitVec 3)
  /-- INIT: the initialiser sequence (R110). -/
  | init (arg : BitVec 8) (x : BitVec 7) (y : BitVec 3)
  /-- CLEAR: send a blank frame (R122). -/
  | clear (arg : BitVec 8) (x : BitVec 7) (y : BitVec 3)
  /-- DRAW: send the bitmap (R121). -/
  | draw (arg : BitVec 8) (x : BitVec 7) (y : BitVec 3)
  /-- PRINT: send the string in TEXT as glyphs at column X of page Y (R138). -/
  | print (arg : BitVec 8) (x : BitVec 7) (y : BitVec 3)
  /-- TESTFILL: fill the display with lit pixels (R150). -/
  | testfill (arg : BitVec 8) (x : BitVec 7) (y : BitVec 3)
  deriving DecidableEq, Repr, Inhabited

end Sys2Proof
end

