-- ==== Sys2Proof/WellFormed.lean ====
section
/-! DEFINITION. WellFormed.lean: which descriptor words are legal (30_encoding.md R73, R74), which instructions an
assembler writes (R84), and the ranges of the parameters (00_scope.md R6, 20_memory.md R55). The widths of an
instruction's fields are in their types, so an operand out of range cannot be written down (R71, D42). -/

namespace Sys2Proof

/-- OPC is one of the nine assigned values 0x1 to 0x9 (R72, R73). -/
def opcAssigned (v : Word) : Bool :=
  let opc := v.extractLsb' 0 4
  decide (1#4 ≤ opc) && decide (opc ≤ 9#4)

/-- The reserved bits 7:4, 23 and 31:27 are all 0 (R74). -/
def reservedClear (v : Word) : Bool :=
  v.extractLsb' 4 4 == 0#4 && v.extractLsb' 23 1 == 0#1 && v.extractLsb' 27 5 == 0#5

/-- A word that spells an operation: neither case of R161 applies. -/
def wordLegal (v : Word) : Bool := opcAssigned v && reservedClear v

/-- The instruction as the assembler writes it: 0 in every field the operation does not use (R84). -/
def Instr.assembled : Instr → Bool
  | .config arg x y => arg == 0#8 && x == 0#7 && y == 0#3
  | .reset arg x y => arg == 0#8 && x == 0#7 && y == 0#3
  | .cmd _ x y => x == 0#7 && y == 0#3
  | .data _ x y => x == 0#7 && y == 0#3
  | .init arg x y => arg == 0#8 && x == 0#7 && y == 0#3
  | .clear arg x y => arg == 0#8 && x == 0#7 && y == 0#3
  | .draw arg x y => arg == 0#8 && x == 0#7 && y == 0#3
  | .print arg _ _ => arg == 0#8
  | .testfill arg x y => arg == 0#8 && x == 0#7 && y == 0#3

/-- A legal size of TEXT: a multiple of 4 from 4 to 1024 (R55). -/
def textSizeOk (n : Nat) : Bool := n % 4 == 0 && decide (4 ≤ n) && decide (n ≤ 1024)

/-- A legal prescaler: one of 2, 4, 8, 16, 32, 64, 128, 256 (R6). -/
def prescalerOk (p : Nat) : Bool := [2, 4, 8, 16, 32, 64, 128, 256].contains p

end Sys2Proof
end

