-- ==== Sys2Proof/Decode.lean ====
section
/-! DEFINITION. Decode.lean: the descriptor decoder and encoder (30_encoding.md R70 to R76, R84). -/

namespace Sys2Proof

/-- Why a word spells no operation; both raise ERR_ILLEGAL (60_exceptions.md R161). -/
inductive DecodeError where
  /-- One of bits 7:4, 23, 31:27 is 1 (R74). -/
  | reservedBits
  /-- OPC is 0x0 or 0xA to 0xF (R73). -/
  | reservedOpc
  deriving DecidableEq, Repr

/-- OPC = v[3:0] (R71). -/
def opcField (v : Word) : BitVec 4 := v.extractLsb' 0 4

/-- ARG = v[15:8] (R71). -/
def argField (v : Word) : BitVec 8 := v.extractLsb' 8 8

/-- X = v[22:16] (R71). -/
def xField (v : Word) : BitVec 7 := v.extractLsb' 16 7

/-- Y = v[26:24] (R71). -/
def yField (v : Word) : BitVec 3 := v.extractLsb' 24 3

/-- The operation an assigned OPC selects, with the word's operand fields (R72); none for a reserved OPC (R73). -/
def ofOpc (opc : BitVec 4) (arg : BitVec 8) (x : BitVec 7) (y : BitVec 3) : Option Instr :=
  if opc = 0x1#4 then some (.config arg x y)
  else if opc = 0x2#4 then some (.reset arg x y)
  else if opc = 0x3#4 then some (.cmd arg x y)
  else if opc = 0x4#4 then some (.data arg x y)
  else if opc = 0x5#4 then some (.init arg x y)
  else if opc = 0x6#4 then some (.clear arg x y)
  else if opc = 0x7#4 then some (.draw arg x y)
  else if opc = 0x8#4 then some (.print arg x y)
  else if opc = 0x9#4 then some (.testfill arg x y)
  else none

/-- The decoder: total on all 32-bit words (R76). -/
def decode (v : Word) : Except DecodeError Instr :=
  if reservedClear v then
    match ofOpc (opcField v) (argField v) (xField v) (yField v) with
    | some i => .ok i
    | none => .error .reservedOpc
  else .error .reservedBits

/-- The operation code of an instruction (R72). -/
def Instr.opc : Instr → BitVec 4
  | .config _ _ _ => 0x1#4
  | .reset _ _ _ => 0x2#4
  | .cmd _ _ _ => 0x3#4
  | .data _ _ _ => 0x4#4
  | .init _ _ _ => 0x5#4
  | .clear _ _ _ => 0x6#4
  | .draw _ _ _ => 0x7#4
  | .print _ _ _ => 0x8#4
  | .testfill _ _ _ => 0x9#4

/-- The word with the fields of R70 at their places, every reserved bit 0: opc | (arg << 8) | (x << 16) | (y << 24)
(R84). -/
def packFields (opc : BitVec 4) (arg : BitVec 8) (x : BitVec 7) (y : BitVec 3) : Word :=
  opc.setWidth 32 ||| (arg.setWidth 32 <<< 8) ||| (x.setWidth 32 <<< 16) ||| (y.setWidth 32 <<< 24)

/-- The encoder: the descriptor word of an instruction (R70, R84). -/
def encode (i : Instr) : Word :=
  match i with
  | .config arg x y => packFields 0x1#4 arg x y
  | .reset arg x y => packFields 0x2#4 arg x y
  | .cmd arg x y => packFields 0x3#4 arg x y
  | .data arg x y => packFields 0x4#4 arg x y
  | .init arg x y => packFields 0x5#4 arg x y
  | .clear arg x y => packFields 0x6#4 arg x y
  | .draw arg x y => packFields 0x7#4 arg x y
  | .print arg x y => packFields 0x8#4 arg x y
  | .testfill arg x y => packFields 0x9#4 arg x y

/-- The instruction the decoder reads from a word whose low nbits bits are w's and whose other bits are 0. A
descriptor is one 32-bit word on the host bus (R70, R83), so its bits are numbered as the opcode table numbers them. -/
def decodeTableWord (nbits w : Nat) : Option Instr :=
  match decode (BitVec.ofNat 32 (w % 2 ^ nbits)) with
  | .ok i => some i
  | .error _ => none

end Sys2Proof
end

