-- ==== Sys2Proof/Machine/State.lean ====
section
/-! DEFINITION. Machine/State.lean: the state of the block (10_state.md), its reset value (R42), and the reasons a
step can stop. Types only; what the block does with them is in Ops, Operands, Flags, Engine and the families. -/

namespace Sys2Proof.Machine

/-- The bytes of BMP and TEXT that a write has reached since block reset, keyed by window offset (R52, R54, R55),
addresses strictly rising. An address that is not listed holds no value (R44). -/
abbrev Memory := List Host.Cell

/-- The one canonical form of a memory: addresses strictly rising. -/
abbrev Memory.wf (m : Memory) : Prop := m.Pairwise (fun p q => p.1 < q.1)

/-- The access sizes of the host bus: 1, 2 or 4 bytes (R51). -/
inductive Width where
  | b1 | b2 | b4
  deriving DecidableEq, Repr, Inhabited

/-- One host access at an offset of the window (R51). -/
inductive Access where
  /-- HostRead(off, n). -/
  | read (off : Offset) (n : Width)
  /-- HostWrite(off, n, v); v's low n bytes are written. -/
  | write (off : Offset) (n : Width) (v : Word)
  deriving DecidableEq, Repr, Inhabited

/-- One move of one agent (R64, R170). Every order of moves is a possible run. -/
inductive Turn where
  /-- The host performs one access. -/
  | host (a : Access)
  /-- The engine gets a turn: one part of a micro-op (R90). -/
  | engine
  /-- The line gets a turn: one part of a bit of the byte in flight (R92, R103). -/
  | line
  /-- The oldest racing buffer write becomes visible to the engine (R66). -/
  | drain
  /-- RESET_N is driven to a level (R180). -/
  | resetPin (level : Bool)
  deriving DecidableEq, Repr, Inhabited

/-- A duration as the rules give them: milliseconds (R99) or block-clock cycles (R104, R150). -/
inductive Duration where
  | ms (n : Nat)
  | cycles (n : Nat)
  deriving DecidableEq, Repr, Inhabited

/-- The events of the output trace (00_scope.md R9). -/
inductive Event where
  | rst (level : Bool)
  | wait (d : Duration)
  | cfg
  | byte (dc : Bool) (b : Byte)
  deriving DecidableEq, Repr, Inhabited

/-- The micro-ops of R90, with the byte of a send already evaluated. -/
inductive MicroOp where
  | send (dc : Bool) (b : Byte)
  | wait (d : Duration)
  | rst (level : Bool)
  | configure
  | initd (v : Bool)
  deriving DecidableEq, Repr, Inhabited

/-- POS: which micro-op of the operation comes next or runs (R21, R37), the loop positions being in the counters of
R39. Which operation it is stands in CUR. -/
inductive Place where
  /-- CONFIG's one micro-op, and INIT's step 2. -/
  | configure
  /-- The five micro-ops of RESET, and INIT's step 1. -/
  | initdClear | rstLow | lowWait | rstHigh | highWait
  /-- The one send of CMD or DATA. -/
  | single
  /-- INIT's steps 3 and 4: the element to send now, and the elements after it. -/
  | seq (e : DcByte) (rest : List DcByte)
  /-- The page loop of CLEAR, DRAW, TESTFILL and INIT's step 5, at page PG. -/
  | pageSelect | columnLow | columnHigh
  /-- The column loop, at column CX; columnDelay is TESTFILL's wait after a data byte. -/
  | column | columnDelay
  /-- PRINT: the page select, then for character CI its column pair and glyph byte GK. -/
  | printSelect | charLow | charHigh | glyphByte
  /-- INIT's last micro-op. -/
  | initdSet
  deriving DecidableEq, Repr, Inhabited

/-- The three parts of one bit on the line (R92). -/
inductive BitPart where
  /-- The bit is set up: with CPHA = 0, MOSI takes its level. -/
  | setUp
  /-- The first SCK edge of the bit. -/
  | firstEdge
  /-- The second SCK edge: SCK returns to its idle level and BITCNT falls. -/
  | secondEdge
  deriving DecidableEq, Repr, Inhabited

/-- How far the micro-op at POS has come. -/
inductive Stage where
  /-- Not begun. -/
  | begin
  /-- send, after step 1: DC is driven, b is to be loaded (R91). -/
  | load (b : Byte)
  /-- send, step 3: the line shifts (R91, R92). -/
  | shift (part : BitPart)
  /-- send, after step 4: the settle delay has not begun (R91). -/
  | settle
  /-- A wait of d is being counted by DLY (R93). -/
  | count (d : Duration)
  deriving DecidableEq, Repr, Inhabited

/-- The fields of CFG (R34). -/
structure CfgReg where
  spe : Bool
  mstr : Bool
  txonly : Bool
  br : BitVec 3
  lsbfirst : Bool
  cpol : Bool
  cpha : Bool
  pinaf : Bool
  deriving DecidableEq, Repr, Inhabited

/-- A host write to a buffer that the engine does not see yet (R66): first offset and bytes. -/
structure PostedWrite where
  off : Nat
  bytes : List Byte
  deriving DecidableEq, Repr, Inhabited

/-- Everything the spec gives the block, and the model's own fields at the end. -/
structure State where
  /-- OP, and SEQ's CUR: the accepted descriptor (R23, R37). -/
  cur : Word
  /-- SEQ's RUN = STATUS.BUSY (R25, R37). -/
  run : Bool
  /-- TXU's TC = STATUS.TC (R26, R36). -/
  tc : Bool
  /-- STATUS.INITD (R28). -/
  initd : Bool
  /-- STATUS.ERR_ILLEGAL (R29). -/
  errIllegal : Bool
  /-- STATUS.ERR_BUSY (R30). -/
  errBusy : Bool
  /-- STATUS.ERR_NOTCFG (R31). -/
  errNotcfg : Bool
  /-- The mode-select pin DC (R33). -/
  pinDc : Bool
  /-- The display reset pin RST (R33). -/
  pinRst : Bool
  /-- The chip-select pin CS (R33). -/
  pinCs : Bool
  /-- The serial clock pin SCK (R33). -/
  pinSck : Bool
  /-- The serial data pin MOSI (R33). -/
  pinMosi : Bool
  /-- CFG (R34); its SPE is STATUS.CFGD (R27). -/
  cfg : CfgReg
  /-- BMP and TEXT (R54, R55). -/
  mem : Memory
  /-- SEQ's POS (R37). -/
  pos : Place
  /-- The part of POS inside one micro-op (R91, R93). -/
  stage : Stage
  /-- DLY (R38). -/
  dly : Nat
  /-- PG (R39). -/
  pg : BitVec 3
  /-- CX (R39). -/
  cx : BitVec 7
  /-- BI (R39). -/
  bi : BitVec 3
  /-- CI (R39). -/
  ci : BitVec 11
  /-- CC (R39). -/
  cc : BitVec 8
  /-- GK (R39). -/
  gk : BitVec 3
  /-- The character c that R138 reads once and renders. -/
  ch : Byte
  /-- TXU's DR (R36). -/
  dr : Byte
  /-- TXU's SHIFT (R36). -/
  shift : Byte
  /-- TXU's BITCNT (R36). -/
  bitcnt : BitVec 4
  /-- The level of the input RESET_N (R180). -/
  resetN : Bool
  /-- The model's own: moves of the agents still to come, oldest first (R64, R170). -/
  turns : List Turn
  /-- The model's own: racing buffer writes the engine does not see yet, oldest first (R66). -/
  posted : List PostedWrite
  /-- The output trace so far, oldest first (R9). -/
  trace : List Event
  /-- The model's own: the values answered to host reads, oldest first (R51). -/
  reads : List Word
  /-- The model's own: how many free values have been drawn (R44). -/
  draws : Nat
  deriving DecidableEq, Repr, Inhabited

/-- Why the machine stops. Both cases are the spec's own (R44: a model faults, which errs toward unprovable). -/
inductive Fault where
  /-- Raised by DRAW when it reads a BMP byte no host write has reached since block reset (R44, R121 corner case c).
  Safe: the hardware goes on with some value. -/
  | bmpUnwritten
  /-- Raised by PRINT when it reads a TEXT byte no host write has reached since block reset (R44, R138 corner case f).
  Safe: the hardware goes on with some value. -/
  | textUnwritten
  deriving DecidableEq, Repr, Inhabited

/-- Why an instruction has no meaning. -/
inductive Refusal where
  /-- Raised by exec's arm of an instruction that has no meaning yet. Safe: nothing can be proved of such a step. -/
  | notModelled (mnemonic : String)
  deriving DecidableEq, Repr

/-- The outcome of a move. -/
abbrev Result := Host.Outcome State Fault Refusal

/-- CFG after block reset (R34, R42). -/
def CfgReg.atReset : CfgReg :=
  { spe := false, mstr := false, txonly := false, br := 0#3, lsbfirst := false, cpol := false, cpha := false,
    pinaf := false }

/-- The state right after block reset (R42, R180). POS, PG, CX, BI, CI, CC, GK, DR and SHIFT are unspecified there;
0 (and the first place, not begun) is a DESIGN CHOICE, log entry 2. -/
def State.reset : State :=
  { cur := 0x00000000#32, run := false, tc := true, initd := false,
    errIllegal := false, errBusy := false, errNotcfg := false,
    pinDc := false, pinRst := true, pinCs := true, pinSck := false, pinMosi := false,
    cfg := CfgReg.atReset, mem := [],
    pos := .configure, stage := .begin, dly := 0,
    pg := 0#3, cx := 0#7, bi := 0#3, ci := 0#11, cc := 0#8, gk := 0#3, ch := 0#8,
    dr := 0#8, shift := 0#8, bitcnt := 0#4,
    resetN := true, turns := [], posted := [], trace := [], reads := [], draws := 0 }

end Sys2Proof.Machine
end

