-- ==== Sys2Proof/Machine/Flags.lean ====
section
/-! DEFINITION. Machine/Flags.lean: the words the host reads from STATUS, PINS and CFG, computed from the bits the
state holds (10_state.md R24, R33, R34). -/

namespace Sys2Proof.Machine

/-- A word with bit i equal to b and every other bit 0. -/
def flagBit (b : Bool) (i : Nat) : Word := if b then BitVec.twoPow 32 i else 0#32

/-- STATUS (R24). Bits 7:4 and 31:11 read 0. -/
def statusWord (s : State) : Word :=
  flagBit s.run 0 ||| flagBit s.tc 1 ||| flagBit s.cfg.spe 2 ||| flagBit s.initd 3
    ||| flagBit s.errIllegal 8 ||| flagBit s.errBusy 9 ||| flagBit s.errNotcfg 10

/-- PINS (R33). Bits 31:5 read 0. -/
def pinsWord (s : State) : Word :=
  flagBit s.pinDc 0 ||| flagBit s.pinRst 1 ||| flagBit s.pinCs 2 ||| flagBit s.pinSck 3 ||| flagBit s.pinMosi 4

/-- CFG (R34). Bits 31:10 read 0. -/
def cfgWord (c : CfgReg) : Word :=
  flagBit c.spe 0 ||| flagBit c.mstr 1 ||| flagBit c.txonly 2 ||| (c.br.setWidth 32 <<< 3) ||| flagBit c.lsbfirst 6
    ||| flagBit c.cpol 7 ||| flagBit c.cpha 8 ||| flagBit c.pinaf 9

/-- CFG after the configure micro-op (R34, R95). -/
def configuredCfg : CfgReg :=
  { spe := true, mstr := true, txonly := true, br := Config.prescalerCode, lsbfirst := false,
    cpol := Config.spiMode.getLsbD 1, cpha := Config.spiMode.getLsbD 0, pinaf := true }

end Sys2Proof.Machine
end

