-- ==== Sys2Proof/Machine/Operands.lean ====
section
/-! DEFINITION. Machine/Operands.lean: the operand forms: offsets and widths of a host access (20_memory.md), the
bytes the block emits (30_encoding.md R77 to R81), the page byte (42_frame.md R120) and the glyphs (43_text.md). -/

namespace Sys2Proof.Machine

/-! ## The register window -/

/-- n of an access (R51). -/
def Width.bytes : Width → Nat
  | .b1 => 1
  | .b2 => 2
  | .b4 => 4

/-- An access is aligned when off mod n = 0 (R51). -/
def aligned (off : Offset) (n : Width) : Bool := off.toNat % n.bytes == 0

/-- The parts of the window (R52). -/
inductive Region where
  | op | status | pins | cfg | bmp | text | reserved
  deriving DecidableEq, Repr

/-- The first offset of BMP (R52). -/
def bmpBase : Nat := 0x400

/-- The first offset of TEXT (R52). -/
def textBase : Nat := 0x800

/-- The part of the window an offset lies in (R52). -/
def regionOf (off : Offset) : Region :=
  let a := off.toNat
  if a < 0x004 then .op
  else if a < 0x008 then .status
  else if a < 0x00C then .pins
  else if a < 0x010 then .cfg
  else if a < bmpBase then .reserved
  else if a < textBase then .bmp
  else if a < textBase + Config.textBytes then .text
  else .reserved

/-- The window offset a host bus address reaches, or none where the address is another device's (R50). -/
def windowOffset (addr : Nat) : Option Offset :=
  if Config.base ≤ addr ∧ addr < Config.base + 4096 then some (BitVec.ofNat 12 (addr - Config.base)) else none

/-- Byte j of a value: v[8j+7 : 8j] (R56, R61). -/
def byteOf (v : Word) (j : Nat) : Byte := v.extractLsb' (8 * j) 8

/-- The n bytes of a write of v, the one for the lowest offset first (R56, R61). -/
def bytesOf (n : Width) (v : Word) : List Byte := (List.range n.bytes).map (byteOf v)

/-- The value whose bytes are bs, the lowest offset being bits 7:0 (R56, R61). -/
def valueOf : List Byte → Word
  | [] => 0#32
  | b :: bs => b.setWidth 32 ||| (valueOf bs <<< 8)

/-! ## Durations -/

/-- The count DLY is loaded with: ceil(t * F_CLK) for a time, n for a count of cycles (R93). -/
def Duration.count : Duration → Nat
  | .ms t => (t * Config.fClk + 999) / 1000
  | .cycles n => n

/-- Whether t > 0, so that wait(t) emits an event (R93). -/
def Duration.positive : Duration → Bool
  | .ms t => decide (0 < t)
  | .cycles n => decide (0 < n)

/-! ## The bytes the block emits -/

/-- The page-select byte 0xB0 | y (R77). -/
def pageSelectByte (y : BitVec 3) : Byte := 0xB0#8 ||| y.setWidth 8

/-- The column-low byte 0x00 | col[3:0] (R78). -/
def columnLowByte (col : BitVec 8) : Byte := 0x00#8 ||| (col.extractLsb' 0 4).setWidth 8

/-- The column-high byte 0x10 | col[7:4] (R79). -/
def columnHighByte (col : BitVec 8) : Byte := 0x10#8 ||| (col.extractLsb' 4 4).setWidth 8

/-- CC: the column of character i, (X + 6*i) mod 256 (R137). -/
def charColumn (x : BitVec 7) (i : Nat) : BitVec 8 := BitVec.ofNat 8 (x.toNat + Config.charAdvance * i)

/-- The offset of BMP[16*r + c], row r and column byte c (R54). -/
def bmpOffset (r c : Nat) : Nat := bmpBase + (Config.bmpColBytes * r + c)

/-- The offset of the BMP byte that bit i of the page byte of page y, column x comes from (R120). -/
def pixelOffset (y x i : Nat) : Nat := bmpOffset (8 * y + i) (x / 8)

/-- out with bit i set if bit 7 - (x mod 8) of the BMP byte b is 1 (R62, R120). -/
def addPixel (out : Byte) (x i : Nat) (b : Byte) : Byte :=
  if b.getLsbD (7 - x % 8) then out ||| (1#8 <<< i) else out

/-- The offset of TEXT[i] (R55). -/
def textOffset (i : Nat) : Nat := textBase + i

/-! ## Glyphs -/

/-- class(c): the glyph class of a character code (R135). -/
def glyphClass (c : Byte) : GlyphClass :=
  let n := c.toNat
  if 0x30 ≤ n ∧ n ≤ 0x39 then .digit (Fin.ofNat 10 (n - 0x30))
  else if 0x41 ≤ n ∧ n ≤ 0x5A then .letter (Fin.ofNat 26 (n - 0x41))
  else if 0x61 ≤ n ∧ n ≤ 0x7A then .letter (Fin.ofNat 26 (n - 0x61))
  else if n = 0x3C then .leftArrow
  else if n = 0x3E then .rightArrow
  else .blank

/-- The glyph of 'A': 1F 05 05 05 1F (R136). -/
def glyphA (k : Fin 5) : Byte := if k = 0 ∨ k = 4 then 0x1F#8 else 0x05#8

/-- GLYPH: byte k of the glyph of a class; BLANK and 'A' are fixed, the others are the parameter (R136, R40). -/
def glyph (g : GlyphClass) (k : Fin 5) : Byte :=
  match g with
  | .blank => 0x00#8
  | .letter l => if l = 0 then glyphA k else Config.openGlyph (.letter l) k
  | .digit d => Config.openGlyph (.digit d) k
  | .leftArrow => Config.openGlyph .leftArrow k
  | .rightArrow => Config.openGlyph .rightArrow k

end Sys2Proof.Machine
end

