-- ==== Sys2Proof/Machine/Ops.lean ====
section
/-! DEFINITION. Machine/Ops.lean: the shared operations over memory, flags, pins and the sequencer: the buffer reads
and writes with their race (20_memory.md R56, R66), the error flags (60_exceptions.md R160), starting and ending an
operation (30_encoding.md R76, 40_transmitter.md R97), and block reset (70_reset_and_hazards.md R180). -/

namespace Sys2Proof.Machine

/-! ## Memory -/

/-- The byte at an offset, or none where no write has reached it since block reset (R44). -/
def Memory.read : Memory → Nat → Option Byte
  | [], _ => none
  | (k, b) :: rest, a => if k = a then some b else Memory.read rest a

/-- Write one byte, keeping the addresses strictly rising. -/
def Memory.write : Memory → Nat → Byte → Memory
  | [], a, b => [(a, b)]
  | (k, c) :: rest, a, b =>
    if a < k then (a, b) :: (k, c) :: rest
    else if a = k then (a, b) :: rest
    else (k, c) :: Memory.write rest a b

/-- Write bytes at rising offsets from a (R56). -/
def Memory.writeBytes (m : Memory) (a : Nat) : List Byte → Memory
  | [] => m
  | b :: bs => Memory.writeBytes (m.write a b) (a + 1) bs

/-- Whether the running operation reads a buffer the host may be writing: DRAW or PRINT runs (R66). -/
def racing (s : State) : Bool := s.run && (opcField s.cur == 0x7#4 || opcField s.cur == 0x8#4)

/-- The buffers as the host sees them: its own writes in order, the ones the engine does not see yet too (R64). -/
def hostMemory (s : State) : Memory := s.posted.foldl (fun m w => m.writeBytes w.off w.bytes) s.mem

/-- The byte the host sees at an offset, or none where nothing was written since block reset (R44). -/
def hostByte (s : State) (a : Nat) : Option Byte := (hostMemory s).read a

/-- The oldest racing write becomes visible to the engine (R66). -/
def drainOne (s : State) : State :=
  match s.posted with
  | [] => s
  | w :: ws => { s with mem := s.mem.writeBytes w.off w.bytes, posted := ws }

/-- Every racing write becomes visible. -/
def drainAll (s : State) : State := { s with mem := hostMemory s, posted := [] }

/-- A host write of bytes to a buffer (R56). While DRAW or PRINT runs, the engine may see the old or the new bytes,
the whole write at once (R60, R66): the write is posted and a drain turn makes it visible. Otherwise it is visible at
once (R65). -/
def hostStore (a : Nat) (bs : List Byte) (s : State) : State :=
  if racing s then { s with posted := s.posted ++ [{ off := a, bytes := bs }] }
  else { s with mem := (hostMemory s).writeBytes a bs, posted := [] }

/-! ## Error flags -/

/-- The three causes of R160. -/
inductive ErrorFlag where
  | illegal | busy | notcfg
  deriving DecidableEq, Repr

/-- raise ERR_x: set the sticky flag and do nothing else (R160, R165). This is the block's only exception entry; it
saves no state and transfers control nowhere, and there is no return from it (R166). -/
def raise (e : ErrorFlag) (s : State) : State :=
  match e with
  | .illegal => { s with errIllegal := true }
  | .busy => { s with errBusy := true }
  | .notcfg => { s with errNotcfg := true }

/-- A host write of v to STATUS: each error flag whose bit of v is 1 is cleared (R32, R166). -/
def clearErrors (v : Word) (s : State) : State :=
  { s with
    errIllegal := s.errIllegal && !v.getLsbD 8
    errBusy := s.errBusy && !v.getLsbD 9
    errNotcfg := s.errNotcfg && !v.getLsbD 10 }

/-! ## Starting and ending an operation -/

/-- CUR <- v; BUSY <- 1; POS <- the operation's first micro-op (R76). -/
def accept (v : Word) (first : Place) (s : State) : State :=
  { s with cur := v, run := true, pos := first, stage := .begin }

/-- The same for an operation that begins with the page loop: y starts at 0 (R122). -/
def acceptPages (v : Word) (s : State) : State :=
  { s with cur := v, run := true, pos := .pageSelect, stage := .begin, pg := 0#3 }

/-- An OP write of a legal descriptor (R76, the first, third and fourth outcome): busy raises ERR_BUSY, a transfer
operation on an unconfigured block raises ERR_NOTCFG (R163), and otherwise the operation starts. -/
def submit (needsCfg : Bool) (start : State → State) (s : State) : Result :=
  if s.run then .next (raise .busy s)
  else if needsCfg && !s.cfg.spe then .next (raise .notcfg s)
  else .next (start s)

/-- An OP write of a word that spells no operation (R76, the first and second outcome; R161). -/
def submitIllegal (s : State) : Result :=
  if s.run then .next (raise .busy s) else .next (raise .illegal s)

/-- The last micro-op has completed: BUSY <- 0, no event (R97). The buffers are the host's alone again, so every write
that raced with the operation is visible from now on (R65). -/
def finish (s : State) : State := drainAll { s with run := false, stage := .begin }

/-- POS moves to another micro-op, which has not begun. -/
def goTo (p : Place) (s : State) : State := { s with pos := p, stage := .begin }

/-! ## Events and pins -/

/-- emit E (R8). -/
def emit (e : Event) (s : State) : State := { s with trace := s.trace ++ [e] }

/-- pin RST <- l, emitting Rst(l) (R94). -/
def drivePinRst (l : Bool) (s : State) : State := emit (.rst l) { s with pinRst := l }

/-- configure (R95): CFG and CFGD take their constants, SCK its idle level, CS is asserted, Cfg is emitted. -/
def configure (s : State) : State :=
  emit .cfg { s with cfg := configuredCfg, pinSck := configuredCfg.cpol, pinCs := false }

/-- Steps 1 of send: DC is driven, even to the level it has (R91, R102). -/
def beginSend (dc : Bool) (b : Byte) (s : State) : State := { s with pinDc := dc, stage := .load b }

/-- Step 2 of send: the byte is loaded and TC falls (R91). -/
def loadByte (b : Byte) (s : State) : State :=
  { s with dr := b, shift := b, bitcnt := 8#4, tc := false, stage := .shift .setUp }

/-! ## Block reset -/

/-- Every piece of state at its reset value while RESET_N = 0 (R42, R180, R182). What the run has already put out
stays put out: the trace, the answers to reads, the number of draws, and the moves still to come. -/
def blockReset (s : State) : State :=
  { State.reset with
    resetN := false, turns := s.turns, trace := s.trace, reads := s.reads, draws := s.draws }

end Sys2Proof.Machine
end

