-- ==== Sys2Proof/Machine/Diagnostics.lean ====
section
/-! DEFINITION. Machine/Diagnostics.lean: TESTFILL (44_diagnostics.md). -/

namespace Sys2Proof.Machine

/-- TESTFILL (R150): fill the display with lit pixels. -/
def execTestfill (arg : BitVec 8) (x : BitVec 7) (y : BitVec 3) (s : State) : Result :=
  submit true (acceptPages (encode (.testfill arg x y))) s

end Sys2Proof.Machine
end

