-- ==== Sys2Proof/Machine/Frame.lean ====
section
/-! DEFINITION. Machine/Frame.lean: the frame renderer (42_frame.md): CLEAR and DRAW, and the page byte. -/

namespace Sys2Proof.Machine

/-- The loop of pack over the n bit positions from BI on (R120), as the engine runs it: each pass reads one BMP byte;
none where that byte was never written (R44). BI ends on the last position the loop used (R8). -/
def composeFrom : Nat → Byte → State → Option (Byte × State)
  | 0, out, s => some (out, s)
  | n + 1, out, s =>
    match s.mem.read (pixelOffset s.pg.toNat s.cx.toNat s.bi.toNat) with
    | none => none
    | some b =>
      let out' := addPixel out s.cx.toNat s.bi.toNat b
      if n = 0 then some (out', s) else composeFrom n out' { s with bi := s.bi + 1#3 }

/-- pack(PG, CX), leaving BI as the loop leaves it (R120). -/
def composePage (s : State) : Option (Byte × State) := composeFrom 8 0x00#8 { s with bi := 0#3 }

/-- CLEAR (R122): send a blank frame. -/
def execClear (arg : BitVec 8) (x : BitVec 7) (y : BitVec 3) (s : State) : Result :=
  submit true (acceptPages (encode (.clear arg x y))) s

/-- DRAW (R121): send the bitmap. -/
def execDraw (arg : BitVec 8) (x : BitVec 7) (y : BitVec 3) (s : State) : Result :=
  submit true (acceptPages (encode (.draw arg x y))) s

end Sys2Proof.Machine
end

