-- ==== Sys2Proof/Machine/Initializer.lean ====
section
/-! DEFINITION. Machine/Initializer.lean: INIT (41_initializer.md). -/

namespace Sys2Proof.Machine

/-- The bytes of INIT's steps 3 and 4: UNLOCK_SEQ, then SETUP_SEQ (R110). UNLOCK_SEQ is not empty (R112), so the first
of them is unlockHead. -/
def initTail : List DcByte := Config.unlockTail ++ Config.setupSeq

/-- POS after configure in INIT: the first element of UNLOCK_SEQ (R110, R112). -/
def initSeqStart : Place := .seq Config.unlockHead initTail

/-- INIT (R110): it begins with RESET's micro-ops and needs no configuration. -/
def execInit (arg : BitVec 8) (x : BitVec 7) (y : BitVec 3) (s : State) : Result :=
  submit false (accept (encode (.init arg x y)) .initdClear) s

end Sys2Proof.Machine
end

