-- ==== Sys2Proof/Machine/Text.lean ====
section
/-! DEFINITION. Machine/Text.lean: the text renderer (43_text.md): PRINT and its character loop. -/

namespace Sys2Proof.Machine

/-- The head of PRINT's loop (R138, R139): at the buffer's end or at the terminator the operation ends; otherwise the
character is read, once, and its column is CC. A byte never written holds no value and the model faults (R44). -/
def fetchChar (s : State) : Result :=
  if s.ci.toNat < Config.textBytes then
    match s.mem.read (textOffset s.ci.toNat) with
    | none => .fault .textUnwritten
    | some c =>
      if c = 0x00#8 then .next (finish s)
      else .next (goTo .charLow { s with ch := c, cc := charColumn (xField s.cur) s.ci.toNat })
  else .next (finish s)

/-- PRINT (R138): send the string in TEXT as glyphs. -/
def execPrint (arg : BitVec 8) (x : BitVec 7) (y : BitVec 3) (s : State) : Result :=
  submit true (accept (encode (.print arg x y)) .printSelect) s

end Sys2Proof.Machine
end

