-- ==== Sys2Proof/Machine/Transmitter.lean ====
section
/-! DEFINITION. Machine/Transmitter.lean: CONFIG, RESET, CMD and DATA (40_transmitter.md R98 to R101), and the byte on
the line (R91 step 3 and 4, R92). -/

namespace Sys2Proof.Machine

/-- Set up a bit: with CPHA = 0, MOSI takes the next bit, bit 7 of SHIFT, while SCK is idle (R92, R36). -/
def bitSetUp (s : State) : State :=
  { s with pinMosi := if s.cfg.cpha then s.pinMosi else s.shift.getLsbD 7, stage := .shift .firstEdge }

/-- The first SCK edge of a bit: SCK leaves its idle level CPOL; with CPHA = 1, MOSI changes here (R92). -/
def bitFirstEdge (s : State) : State :=
  { s with
    pinSck := !s.cfg.cpol
    pinMosi := if s.cfg.cpha then s.shift.getLsbD 7 else s.pinMosi
    stage := .shift .secondEdge }

/-- SHIFT moves one place, so that bit 7 is the next bit (R36); bit 0 is a free value, log entry 8. -/
def shiftOut (n : Nat) (k : BitVec 4) (v : Byte) : Byte :=
  (v <<< 1) ||| (BitVec.ofBool (Config.shiftFill n k)).setWidth 8

/-- The second SCK edge of a bit: SCK returns to CPOL and BITCNT falls (R92). After the eighth bit TC rises and
Byte(dc, b) is emitted (R91 step 4). -/
def bitSecondEdge (s : State) : State :=
  let s' :=
    { s with pinSck := s.cfg.cpol, bitcnt := s.bitcnt - 1#4, shift := shiftOut s.trace.length s.bitcnt s.shift }
  if s.bitcnt.toNat ≤ 1 then
    emit (.byte s.pinDc s.dr) { s' with bitcnt := 0#4, tc := true, stage := .settle }
  else { s' with stage := .shift .setUp }

/-- One turn of the line: one part of a bit while a byte is in flight, nothing otherwise (R92, R103, R170). -/
def lineTurn (s : State) : State :=
  if s.run then
    match s.stage with
    | .shift .setUp => bitSetUp s
    | .shift .firstEdge => bitFirstEdge s
    | .shift .secondEdge => bitSecondEdge s
    | .begin => s
    | .load _ => s
    | .settle => s
    | .count _ => s
  else s

/-- CONFIG (R98): configure the serial master; it needs no configuration. -/
def execConfig (arg : BitVec 8) (x : BitVec 7) (y : BitVec 3) (s : State) : Result :=
  submit false (accept (encode (.config arg x y)) .configure) s

/-- RESET (R99): pulse the display's hardware reset; it needs no configuration. -/
def execReset (arg : BitVec 8) (x : BitVec 7) (y : BitVec 3) (s : State) : Result :=
  submit false (accept (encode (.reset arg x y)) .initdClear) s

/-- CMD (R100): send ARG as a command byte. -/
def execCmd (arg : BitVec 8) (x : BitVec 7) (y : BitVec 3) (s : State) : Result :=
  submit true (accept (encode (.cmd arg x y)) .single) s

/-- DATA (R101): send ARG as a data byte. -/
def execData (arg : BitVec 8) (x : BitVec 7) (y : BitVec 3) (s : State) : Result :=
  submit true (accept (encode (.data arg x y)) .single) s

end Sys2Proof.Machine
end

