-- ==== Sys2Proof/Machine/Dispatch.lean ====
section
/-! DEFINITION. Machine/Dispatch.lean: what an OP write of a legal descriptor does, one arm per operation (30_encoding.md
R76). It starts the operation; the engine's turns then perform its micro-ops. -/

namespace Sys2Proof.Machine

def exec (i : Instr) (s : State) : Host.Outcome State Fault Refusal :=
  match i with
  | .config arg x y => Sys2Proof.Machine.execConfig arg x y s
  | .reset arg x y => Sys2Proof.Machine.execReset arg x y s
  | .cmd arg x y => Sys2Proof.Machine.execCmd arg x y s
  | .data arg x y => Sys2Proof.Machine.execData arg x y s
  | .init arg x y => Sys2Proof.Machine.execInit arg x y s
  | .clear arg x y => Sys2Proof.Machine.execClear arg x y s
  | .draw arg x y => Sys2Proof.Machine.execDraw arg x y s
  | .print arg x y => Sys2Proof.Machine.execPrint arg x y s
  | .testfill arg x y => Sys2Proof.Machine.execTestfill arg x y s

end Sys2Proof.Machine
end

