-- ==== Sys2Proof/Machine/Engine.lean ====
section
/-! DEFINITION. Machine/Engine.lean: the sequencer (40_transmitter.md R90 to R97): which micro-op stands at POS, what
beginning it does, and where POS goes when it completes. -/

namespace Sys2Proof.Machine

/-- Whether the running operation is the one with this OPC (R72). -/
def isOp (opc : BitVec 4) (s : State) : Bool := opcField s.cur == opc

/-- The next column, the next page, or the end of the page loop (R121, R122, R150; INIT goes on with its last
micro-op, R110). -/
def nextColumn (s : State) : State :=
  if s.cx ≠ 127#7 then goTo .column { s with cx := s.cx + 1#7 }
  else if s.pg ≠ 7#3 then goTo .pageSelect { s with pg := s.pg + 1#3 }
  else if isOp 0x5#4 s then goTo .initdSet s
  else finish s

/-- The micro-op at POS has completed: POS moves to the next micro-op of the operation's rule, or the operation ends
(R21, R90, R97). PRINT reads its next character here, log entry 9. -/
def advance (s : State) : Result :=
  match s.pos with
  | .initdClear => .next (goTo .rstLow s)
  | .rstLow => .next (goTo .lowWait s)
  | .lowWait => .next (goTo .rstHigh s)
  | .rstHigh => .next (goTo .highWait s)
  | .highWait => .next (if isOp 0x5#4 s then goTo .configure s else finish s)
  | .configure => .next (if isOp 0x5#4 s then goTo initSeqStart s else finish s)
  | .single => .next (finish s)
  | .seq _ (e :: rest) => .next (goTo (.seq e rest) s)
  | .seq _ [] => .next (goTo .pageSelect { s with pg := 0#3 })
  | .pageSelect => .next (goTo .columnLow s)
  | .columnLow => .next (goTo .columnHigh s)
  | .columnHigh => .next (goTo .column { s with cx := 0#7 })
  | .column => .next (if isOp 0x9#4 s then goTo .columnDelay s else nextColumn s)
  | .columnDelay => .next (nextColumn s)
  | .printSelect => fetchChar { s with ci := 0#11 }
  | .charLow => .next (goTo .charHigh s)
  | .charHigh => .next (goTo .glyphByte { s with gk := 0#3 })
  | .glyphByte =>
    if s.gk.toNat < 4 then .next (goTo .glyphByte { s with gk := s.gk + 1#3 })
    else fetchChar { s with ci := s.ci + 1#11 }
  | .initdSet => .next (finish s)

/-- The data byte of page PG, column CX, evaluated now (R90): pack for DRAW (R121), 0xFF for TESTFILL (R150), 0x00 for
CLEAR and INIT (R122, R110). -/
def columnByte (s : State) : Option (Byte × State) :=
  if isOp 0x7#4 s then composePage s
  else if isOp 0x9#4 s then some (0xFF#8, s)
  else some (0x00#8, s)

/-- The micro-op at POS, its byte evaluated now (R90), and the state after the evaluation. -/
def microOpAt (s : State) : Except Fault (MicroOp × State) :=
  match s.pos with
  | .initdClear => .ok (.initd false, s)
  | .rstLow => .ok (.rst false, s)
  | .lowWait => .ok (.wait (.ms Config.tRstLowMs), s)
  | .rstHigh => .ok (.rst true, s)
  | .highWait => .ok (.wait (.ms Config.tRstRecMs), s)
  | .configure => .ok (.configure, s)
  | .single => .ok (.send (isOp 0x4#4 s) (argField s.cur), s)
  | .seq e _ => .ok (.send e.1 e.2, s)
  | .pageSelect => .ok (.send false (pageSelectByte s.pg), s)
  | .columnLow => .ok (.send false (columnLowByte 0#8), s)
  | .columnHigh => .ok (.send false (columnHighByte 0#8), s)
  | .column =>
    match columnByte s with
    | some (b, s') => .ok (.send true b, s')
    | none => .error .bmpUnwritten
  | .columnDelay => .ok (.wait (.cycles Config.testColDelay), s)
  | .printSelect => .ok (.send false (pageSelectByte (yField s.cur)), s)
  | .charLow => .ok (.send false (columnLowByte s.cc), s)
  | .charHigh => .ok (.send false (columnHighByte s.cc), s)
  | .glyphByte => .ok (.send true (glyph (glyphClass s.ch) (Fin.ofNat 5 s.gk.toNat)), s)
  | .initdSet => .ok (.initd true, s)

/-- A wait of d has ended: Wait(d) is emitted if d > 0 (R93), and POS moves on. -/
def endWait (d : Duration) (s : State) : Result :=
  advance (if d.positive then emit (.wait d) s else s)

/-- wait(d) begins: DLY is loaded (R93); a count of 0 ends at once. -/
def startWait (d : Duration) (s : State) : Result :=
  if d.count = 0 then endWait d { s with dly := 0 }
  else .next { s with dly := d.count, stage := .count d }

/-- One block clock of a wait: DLY counts down; at 0 the wait ends (R93). -/
def countDown (d : Duration) (s : State) : Result :=
  if s.dly ≤ 1 then endWait d { s with dly := 0 } else .next { s with dly := s.dly - 1 }

/-- The micro-op at POS begins (R90 to R96). -/
def beginMicroOp (s : State) : Result :=
  match microOpAt s with
  | .error f => .fault f
  | .ok (.send dc b, s') => .next (beginSend dc b s')
  | .ok (.wait d, s') => startWait d s'
  | .ok (.rst l, s') => advance (drivePinRst l s')
  | .ok (.configure, s') => advance (configure s')
  | .ok (.initd v, s') => advance { s' with initd := v }

/-- One turn of the engine (R90, R170). While a byte is in flight it polls TC and nothing changes (R26); while no
operation runs it does nothing (R181). -/
def engineTurn (s : State) : Result :=
  if s.run then
    match s.stage with
    | .begin => beginMicroOp s
    | .load b => .next (loadByte b s)
    | .shift _ => .next s
    | .settle => startWait (.cycles Config.settleCycles) s
    | .count d => countDown d s
  else .next s

end Sys2Proof.Machine
end

