-- ==== Sys2Proof/Machine/HostBus.lean ====
section
/-! DEFINITION. Machine/HostBus.lean: host accesses to the register window (20_memory.md R50 to R62), block reset
(70_reset_and_hazards.md R180 to R182), and one move of any agent (R64, R170). -/

namespace Sys2Proof.Machine

/-- An aligned word write of v to OP (R76): decode it and run its meaning, or raise ERR_ILLEGAL (ERR_BUSY when busy). -/
def opWrite (v : Word) (s : State) : Result :=
  match decode v with
  | .ok i => exec i s
  | .error _ => submitIllegal s

/-- The n bytes a host read finds at off: a byte never written since block reset is a free value (R44, R56). -/
def bufferBytes (off : Offset) (n : Width) (s : State) : List Byte :=
  (List.range n.bytes).map fun j => (hostByte s (off.toNat + j)).getD (Config.unwrittenByte (s.draws + j))

/-- The value of a host read (R51, R53, R56 to R58): 0 for every access that is not defined. -/
def readValue (off : Offset) (n : Width) (s : State) : Word :=
  if aligned off n then
    match regionOf off with
    | .op => if n = .b4 then s.cur else 0#32
    | .status => if n = .b4 then statusWord s else 0#32
    | .pins => if n = .b4 then pinsWord s else 0#32
    | .cfg => if n = .b4 then cfgWord s.cfg else 0#32
    | .bmp => valueOf (bufferBytes off n s)
    | .text => valueOf (bufferBytes off n s)
    | .reserved => 0#32
  else 0#32

/-- A host read: the value is answered, and nothing of the block changes (R59). -/
def hostRead (off : Offset) (n : Width) (s : State) : State :=
  { s with reads := s.reads ++ [readValue off n s], draws := s.draws + n.bytes }

/-- A host write (R53, R56 to R59): every access that is not defined is ignored. -/
def hostWrite (off : Offset) (n : Width) (v : Word) (s : State) : Result :=
  if aligned off n then
    match regionOf off with
    | .op => if n = .b4 then opWrite v s else .next s
    | .status => .next (if n = .b4 then clearErrors v s else s)
    | .pins => .next s
    | .cfg => .next s
    | .bmp => .next (hostStore off.toNat (bytesOf n v) s)
    | .text => .next (hostStore off.toNat (bytesOf n v) s)
    | .reserved => .next s
  else .next s

/-- One host access (R51). -/
def hostAccess (a : Access) (s : State) : Result :=
  match a with
  | .read off n => .next (hostRead off n s)
  | .write off n v => hostWrite off n v s

/-- The access a request on the host's bus makes to this block, if its address is in the window (R50). -/
def accessOfBus (addr : Nat) (f : Offset → Access) : Option Access := (windowOffset addr).map f

/-- While RESET_N = 0 every move leaves the reset values; host reads return 0, host writes are ignored (R180). -/
def turnInReset (t : Turn) (s : State) : State :=
  let r := blockReset s
  match t with
  | .host (.read _ _) => { r with reads := s.reads ++ [0#32] }
  | .host (.write _ _ _) => r
  | .engine => r
  | .line => r
  | .drain => r
  | .resetPin level => { r with resetN := level }

/-- One move of one agent (R64, R170). RESET_N going low resets the block at once (R180, R182). -/
def runTurn (t : Turn) (s : State) : Result :=
  if s.resetN then
    match t with
    | .host a => hostAccess a s
    | .engine => engineTurn s
    | .line => .next (lineTurn s)
    | .drain => .next (drainOne s)
    | .resetPin level => .next (if level then s else blockReset s)
  else .next (turnInReset t s)

end Sys2Proof.Machine
end

