-- ==== Sys2Proof/Machine/Step.lean ====
section
/-! DEFINITION. Machine/Step.lean: one step is the oldest move still to come; with none, nothing happens (20_memory.md
R64, 70_reset_and_hazards.md R181). -/

namespace Sys2Proof.Machine

/-- One step of the machine. -/
def step (s : State) : Host.Outcome State Fault Refusal :=
  match s.turns with
  | [] => .next s
  | t :: rest => runTurn t { s with turns := rest }

/-- s with the host's next move being the OP write of the word whose low nbits bits are w's (R70, R76), and RESET_N
released so that the write is not ignored (R180). An operation comes to run only by such a write (R181). -/
def State.withFetchWord (s : State) (nbits w : Nat) : State :=
  { s with
    resetN := true
    turns := .host (.write 0x000#12 .b4 (BitVec.ofNat 32 (w % 2 ^ nbits))) :: s.turns }

end Sys2Proof.Machine
end

