-- ==== Sys2Proof/Machine/Fair.lean ====
section
/-! DEFINITION. Machine/Fair.lean: the named fairness of 70_reset_and_hazards.md R192: the agent whose move it is gets
its turn, so that every send completes and every wait ends. The step itself never assumes it (R103, R168). -/

namespace Sys2Proof.Machine

/-- A byte is on the line: step 3 of a send (R91). -/
def shifting (s : State) : Bool :=
  match s.stage with
  | .shift _ => true
  | .begin => false
  | .load _ => false
  | .settle => false
  | .count _ => false

/-- The move that brings the running operation on: the line's while a byte is in flight, else the engine's. -/
def fairTurn (s : State) : Turn := if shifting s then .line else .engine

/-- n moves of the block alone, each given to the agent whose move it is. -/
def fairRun : Nat → State → Result
  | 0, s => .next s
  | n + 1, s =>
    match runTurn (fairTurn s) s with
    | .next t => fairRun n t
    | .fault f => .fault f
    | .refused r => .refused r

end Sys2Proof.Machine
end

