-- ==== Sys2Proof/Machine/HostPrograms.lean ====
section
/-! DEFINITION. Machine/HostPrograms.lean: the host's pseudo-operations (30_encoding.md R85) and the manual
initialisation (70_reset_and_hazards.md R185), as lists of accesses and waits. -/

namespace Sys2Proof.Machine

/-- One step of a host program. -/
inductive HostStep where
  /-- A host access (R51). -/
  | access (a : Access)
  /-- The pseudo-operation wait: `lw 0x004`, repeated until bit 0 of the value read is 0 (R85). -/
  | waitIdle
  deriving DecidableEq, Repr

/-- op_wait <d> (R84, R85). -/
def opWait (i : Instr) : List HostStep := [.access (.write 0x000#12 .b4 (encode i)), .waitIdle]

/-- sb <off>, <b> (R84). -/
def storeByte (a : Nat) (b : Byte) : HostStep := .access (.write (BitVec.ofNat 12 a) .b1 (b.setWidth 32))

/-- initialise (R85). -/
def initialiseProgram : List HostStep := opWait (.init 0#8 0#7 0#3)

/-- "clear" (R85). -/
def clearProgram : List HostStep := opWait (.clear 0#8 0#7 0#3)

/-- "draw"(buf): store the 64 rows of 16 bytes, then draw (R85). -/
def drawProgram (buf : Nat → Nat → Byte) : List HostStep :=
  ((List.range Config.rows).flatMap fun r =>
      (List.range Config.bmpColBytes).map fun c => storeByte (bmpOffset r c) (buf r c))
    ++ opWait (.draw 0#8 0#7 0#3)

/-- The stores of "display_print": the first TEXT_BYTES characters, and a terminator if there is room (R85). -/
def textStores (str : List Byte) : List HostStep :=
  ((str.take Config.textBytes).zipIdx.map fun p => storeByte (textOffset p.2) p.1)
    ++ (if str.length < Config.textBytes then [storeByte (textOffset str.length) 0x00#8] else [])

/-- "display_print"(x, y, s) (R85). -/
def displayPrintProgram (x : BitVec 7) (y : BitVec 3) (str : List Byte) : List HostStep :=
  textStores str ++ opWait (.print 0#8 x y)

/-- "test" (R85). -/
def testProgram : List HostStep := opWait (.testfill 0#8 0#7 0#3)

/-- "font_test": any series of "display_print" with sample strings (R85, R152); the strings are the host's. -/
def fontTestProgram (samples : List (BitVec 7 × BitVec 3 × List Byte)) : List HostStep :=
  samples.flatMap fun p => displayPrintProgram p.1 p.2.1 p.2.2

/-- One byte of UNLOCK_SEQ or SETUP_SEQ sent by the host: cmd or data by its DC level (R185). -/
def sendProgram (e : DcByte) : List HostStep :=
  opWait (if e.1 then .data e.2 0#7 0#3 else .cmd e.2 0#7 0#3)

/-- The host's own initialisation: reset, config, the bytes of UNLOCK_SEQ and SETUP_SEQ, clear (R185). -/
def manualInitProgram : List HostStep :=
  opWait (.reset 0#8 0#7 0#3) ++ opWait (.config 0#8 0#7 0#3)
    ++ (Config.unlockSeq ++ Config.setupSeq).flatMap sendProgram ++ clearProgram

/-! ## Running a host program

The host and the block go on at the same time (R64, R170), so a run is told by who makes each move. -/

/-- Who makes the next move: the host, with the next access of its program, or another agent (R64, R170). -/
inductive Pick where
  | host
  | engine
  | line
  | drain
  | resetPin (level : Bool)
  deriving DecidableEq, Repr

/-- Where a host program stands after a move: what is left of it, and the block. -/
abbrev ProgramResult := Host.Outcome (List HostStep × State) Fault Refusal

/-- The outcome of a move, with what it leaves of the program. -/
def Result.leaving (left : State → List HostStep) : Result → ProgramResult
  | .next t => .next (left t, t)
  | .fault f => .fault f
  | .refused r => .refused r

/-- lw 0x004: the read of STATUS (R84). -/
def readStatus : Access := .read 0x004#12 .b4

/-- Bit 0 of the value read last, BUSY for a read of STATUS (R24), is 0. -/
def idleSeen (s : State) : Bool := !(s.reads.getLast?.getD 0#32).getLsbD 0

/-- The host's move: the next access of its program. wait is one lw 0x004, which is repeated until bit 0 of the value
read is 0 (R85). Once the program is over the host makes no access. -/
def hostMove (p : List HostStep) (s : State) : ProgramResult :=
  match p with
  | [] => .next ([], s)
  | .access a :: rest => (runTurn (.host a) s).leaving fun _ => rest
  | .waitIdle :: rest =>
    (runTurn (.host readStatus) s).leaving fun t => if idleSeen t then rest else .waitIdle :: rest

/-- One move beside a host program: only the host's own moves bring the program on. -/
def programMove (k : Pick) (p : List HostStep) (s : State) : ProgramResult :=
  match k with
  | .host => hostMove p s
  | .engine => (runTurn .engine s).leaving fun _ => p
  | .line => (runTurn .line s).leaving fun _ => p
  | .drain => (runTurn .drain s).leaving fun _ => p
  | .resetPin level => (runTurn (.resetPin level) s).leaving fun _ => p

/-- The moves ks beside the host program p: what is left of p, and the block. Every order of moves is possible, those
that never let a wait end among them (R103, R168). -/
def runProgram (ks : List Pick) (p : List HostStep) (s : State) : ProgramResult :=
  match ks with
  | [] => .next (p, s)
  | k :: rest =>
    match programMove k p s with
    | .next (q, t) => runProgram rest q t
    | .fault f => .fault f
    | .refused r => .refused r

end Sys2Proof.Machine
end

