-- ==== Sys2Proof/Safety.lean ====
section
/-! DEFINITION. Safety.lean: the terms the claims use: the trace each operation's rule gives, the part of it a running
operation still owes, the invariant of the block, and the minimum times of R191. Nothing here is part of the step. -/

namespace Sys2Proof.Machine

/-! ## Starting an operation -/

/-- A word spells no operation: the two cases of R161. -/
def illegalWord (v : Word) : Prop :=
  (v.extractLsb' 0 4 = 0x0#4 ∨ 0xA#4 ≤ v.extractLsb' 0 4)
    ∨ (v.extractLsb' 4 4 ≠ 0#4 ∨ v.getLsbD 23 = true ∨ v.extractLsb' 27 5 ≠ 0#5)

/-- The operations that transfer bytes and so need CFGD = 1 (R72, R163). -/
def transferOpc (opc : BitVec 4) : Bool :=
  opc == 0x3#4 || opc == 0x4#4 || opc == 0x6#4 || opc == 0x7#4 || opc == 0x8#4 || opc == 0x9#4

/-- The operations that begin with the page loop (R121, R122, R150). -/
def pagesOpc (opc : BitVec 4) : Bool := opc == 0x6#4 || opc == 0x7#4 || opc == 0x9#4

/-- The first micro-op of the operation with this OPC (R76, R98 to R101, R110, R121, R122, R138, R150). -/
def firstPlace (opc : BitVec 4) : Place :=
  if opc = 0x1#4 then .configure
  else if opc = 0x2#4 ∨ opc = 0x5#4 then .initdClear
  else if opc = 0x3#4 ∨ opc = 0x4#4 then .single
  else if opc = 0x8#4 then .printSelect
  else .pageSelect

/-- The state after an accepted OP write of v: CUR <- v, BUSY <- 1, POS <- the first micro-op (R76). -/
def started (v : Word) (s : State) : State :=
  { s with
    cur := v, run := true, pos := firstPlace (opcField v), stage := .begin
    pg := if pagesOpc (opcField v) then 0#3 else s.pg }

/-! ## The trace an operation's rule gives -/

/-- The event of wait(d): none for d = 0 (R93). -/
def waitEvents (d : Duration) : List Event := if d.positive then [.wait d] else []

/-- The events of send(dc, b): the byte, then its settle delay (R9, R91). -/
def sendEvents (dc : Bool) (b : Byte) : List Event := .byte dc b :: waitEvents (.cycles Config.settleCycles)

/-- The events of a list of (dc, byte) pairs (R110). -/
def seqEvents (es : List DcByte) : List Event := es.flatMap fun e => sendEvents e.1 e.2

/-- The display reset pulse (R99). -/
def pulseEvents : List Event :=
  [.rst false] ++ waitEvents (.ms Config.tRstLowMs) ++ [.rst true] ++ waitEvents (.ms Config.tRstRecMs)

/-- The three address bytes of page y (R80). -/
def headerEvents (y : Nat) : List Event :=
  sendEvents false (pageSelectByte (BitVec.ofNat 3 y)) ++ sendEvents false (columnLowByte 0#8)
    ++ sendEvents false (columnHighByte 0#8)

/-- TESTFILL's wait after a data byte (R150). -/
def delayEvents (delay : Bool) : List Event := if delay then waitEvents (.cycles Config.testColDelay) else []

/-- The columns of page y from x on. -/
def columnEvents (delay : Bool) (f : Nat → Nat → Byte) (y x : Nat) : List Event :=
  (List.range' x (Config.cols - x)).flatMap fun c => sendEvents true (f y c) ++ delayEvents delay

/-- The pages from y on. -/
def pageEvents (delay : Bool) (f : Nat → Nat → Byte) (y : Nat) : List Event :=
  (List.range' y (Config.pages - y)).flatMap fun p => headerEvents p ++ columnEvents delay f p 0

/-- A whole frame: 8 pages of 3 address bytes and 128 data bytes f y x (R121, R122, R125, R150). -/
def frameEvents (delay : Bool) (f : Nat → Nat → Byte) : List Event := pageEvents delay f 0

/-- The bits below n of the page byte of page y, column x; none if one of the BMP bytes was never written. -/
def packBits (m : Memory) (y x : Nat) : Nat → Option Byte
  | 0 => some 0x00#8
  | n + 1 =>
    match packBits m y x n, m.read (pixelOffset y x n) with
    | some out, some b => some (addPixel out x n b)
    | _, _ => none

/-- pack(y, x) of R120; none if one of the BMP bytes was never written (R44). -/
def pageByte (m : Memory) (y x : Nat) : Option Byte := packBits m y x 8

/-- DRAW's data bytes (R121). -/
def drawData (m : Memory) (y x : Nat) : Byte := (pageByte m y x).getD 0x00#8

/-- The characters of TEXT from index i, at most n of them, up to the terminator (R139). -/
def textFrom (m : Memory) : Nat → Nat → List Byte
  | 0, _ => []
  | n + 1, i =>
    match m.read (textOffset i) with
    | some c => if c = 0x00#8 then [] else c :: textFrom m n (i + 1)
    | none => []

/-- The string TEXT holds (R139). -/
def textString (m : Memory) : List Byte := textFrom m Config.textBytes 0

/-- Every TEXT byte from index i up to the terminator, or n of them, has been written (R186). -/
def textWritten (m : Memory) : Nat → Nat → Bool
  | 0, _ => true
  | n + 1, i =>
    match m.read (textOffset i) with
    | some c => if c = 0x00#8 then true else textWritten m n (i + 1)
    | none => false

/-- The glyph bytes of character c from column k on (R138). -/
def glyphEvents (c : Byte) (k : Nat) : List Event :=
  (List.range' k (Config.charWidth - k)).flatMap fun j => sendEvents true (glyph (glyphClass c) (Fin.ofNat 5 j))

/-- Character i of a string that starts at column x (R137, R138). -/
def charEvents (x : BitVec 7) (i : Nat) (c : Byte) : List Event :=
  sendEvents false (columnLowByte (charColumn x i)) ++ sendEvents false (columnHighByte (charColumn x i))
    ++ glyphEvents c 0

/-- The characters of a string, the first of them being character i (R138). -/
def stringEvents (x : BitVec 7) : Nat → List Byte → List Event
  | _, [] => []
  | i, c :: cs => charEvents x i c ++ stringEvents x (i + 1) cs

/-- PRINT's trace (R138). -/
def printEvents (m : Memory) (x : BitVec 7) (y : BitVec 3) : List Event :=
  sendEvents false (pageSelectByte y) ++ stringEvents x 0 (textString m)

/-- INIT's trace (R110). -/
def initEvents : List Event :=
  pulseEvents ++ [.cfg] ++ seqEvents (Config.unlockSeq ++ Config.setupSeq) ++ frameEvents false (fun _ _ => 0x00#8)

/-- The trace of an operation, given the buffers it reads. -/
def opEvents (i : Instr) (m : Memory) : List Event :=
  match i with
  | .config _ _ _ => [.cfg]
  | .reset _ _ _ => pulseEvents
  | .cmd arg _ _ => sendEvents false arg
  | .data arg _ _ => sendEvents true arg
  | .init _ _ _ => initEvents
  | .clear _ _ _ => frameEvents false (fun _ _ => 0x00#8)
  | .draw _ _ _ => frameEvents false (drawData m)
  | .print _ x y => printEvents m x y
  | .testfill _ _ _ => frameEvents true (fun _ _ => 0xFF#8)

/-- The byte sequence of a trace (R9). -/
def bytesSent (t : List Event) : List (Bool × Byte) :=
  t.filterMap fun
    | .byte dc b => some (dc, b)
    | .rst _ => none
    | .wait _ => none
    | .cfg => none

/-- All 1024 bytes of BMP have been written since block reset (R186). -/
def bmpWritten (m : Memory) : Prop := ∀ a, bmpBase ≤ a → a < textBase → (m.read a).isSome

/-! ## What a running operation still owes -/

/-- The events of one micro-op (R90). -/
def MicroOp.events : MicroOp → List Event
  | .send dc b => sendEvents dc b
  | .wait d => waitEvents d
  | .rst l => [.rst l]
  | .configure => [.cfg]
  | .initd _ => []

/-- What the micro-op at POS still has to emit. (Where a DRAW meets a byte never written, the machine faults and emits
nothing more; the byte counted here is then never sent.) -/
def owedNow (s : State) : List Event :=
  match s.stage with
  | .begin =>
    match microOpAt s with
    | .ok (m, _) => m.events
    | .error _ => sendEvents true 0x00#8
  | .load b => sendEvents s.pinDc b
  | .shift _ => sendEvents s.pinDc s.dr
  | .settle => waitEvents (.cycles Config.settleCycles)
  | .count d => waitEvents d

/-- The data bytes of the running page loop. -/
def frameData (s : State) : Nat → Nat → Byte :=
  if isOp 0x7#4 s then drawData s.mem else if isOp 0x9#4 s then fun _ _ => 0xFF#8 else fun _ _ => 0x00#8

/-- The page loop from page y on. -/
def owedPages (s : State) (y : Nat) : List Event := pageEvents (isOp 0x9#4 s) (frameData s) y

/-- The page loop from column x of page PG on. -/
def owedColumns (s : State) (x : Nat) : List Event :=
  columnEvents (isOp 0x9#4 s) (frameData s) s.pg.toNat x ++ owedPages s (s.pg.toNat + 1)

/-- PRINT from character i on. -/
def owedChars (s : State) (i : Nat) : List Event :=
  stringEvents (xField s.cur) i (textFrom s.mem (Config.textBytes - i) i)

/-- What follows INIT's configure; nothing in CONFIG. -/
def owedAfterConfigure (s : State) : List Event :=
  if isOp 0x5#4 s then seqEvents (Config.unlockHead :: initTail) ++ owedPages s 0 else []

/-- What follows the reset pulse: nothing in RESET, the rest of INIT. -/
def owedAfterPulse (s : State) : List Event := if isOp 0x5#4 s then .cfg :: owedAfterConfigure s else []

/-- What the micro-ops after the one at POS still have to emit. -/
def owedLater (s : State) : List Event :=
  match s.pos with
  | .initdClear => pulseEvents ++ owedAfterPulse s
  | .rstLow =>
    waitEvents (.ms Config.tRstLowMs) ++ [.rst true] ++ waitEvents (.ms Config.tRstRecMs) ++ owedAfterPulse s
  | .lowWait => [.rst true] ++ waitEvents (.ms Config.tRstRecMs) ++ owedAfterPulse s
  | .rstHigh => waitEvents (.ms Config.tRstRecMs) ++ owedAfterPulse s
  | .highWait => owedAfterPulse s
  | .configure => owedAfterConfigure s
  | .single => []
  | .seq _ rest => seqEvents rest ++ owedPages s 0
  | .pageSelect => sendEvents false (columnLowByte 0#8) ++ sendEvents false (columnHighByte 0#8) ++ owedColumns s 0
  | .columnLow => sendEvents false (columnHighByte 0#8) ++ owedColumns s 0
  | .columnHigh => owedColumns s 0
  | .column => delayEvents (isOp 0x9#4 s) ++ owedColumns s (s.cx.toNat + 1)
  | .columnDelay => owedColumns s (s.cx.toNat + 1)
  | .printSelect => owedChars s 0
  | .charLow => sendEvents false (columnHighByte s.cc) ++ glyphEvents s.ch 0 ++ owedChars s (s.ci.toNat + 1)
  | .charHigh => glyphEvents s.ch 0 ++ owedChars s (s.ci.toNat + 1)
  | .glyphByte => glyphEvents s.ch (s.gk.toNat + 1) ++ owedChars s (s.ci.toNat + 1)
  | .initdSet => []

/-- What the running operation still has to emit; nothing while the block is idle. -/
def owed (s : State) : List Event := if s.run then owedNow s ++ owedLater s else []

/-! ## Running an operation to its end -/

/-- What no operation changes: the error flags, every byte of the buffers, the input level, the moves still to come and
the answers to reads. -/
structure Kept (s u : State) : Prop where
  errIllegal : u.errIllegal = s.errIllegal
  errBusy : u.errBusy = s.errBusy
  errNotcfg : u.errNotcfg = s.errNotcfg
  bytes : ∀ a, hostByte u a = hostByte s a
  resetN : u.resetN = s.resetN
  turns : u.turns = s.turns
  reads : u.reads = s.reads
  draws : u.draws = s.draws

/-- From the idle state s the OP write of i is accepted, and with fair turns (R192) the operation ends in a state u
that has emitted i's trace and nothing else, keeps i in OP, has no byte in flight, and has P. -/
def Completes (i : Instr) (s : State) (P : State → Prop) : Prop :=
  exec i s = .next (started (encode i) s) ∧
    ∃ n u, fairRun n (started (encode i) s) = .next u ∧
      u.run = false ∧ u.cur = encode i ∧ u.tc = true ∧ u.trace = s.trace ++ opEvents i s.mem ∧ Kept s u ∧ P u

/-! ## The invariant -/

/-- The places each operation's rule goes through (R98 to R101, R110, R121, R122, R138, R150). -/
def placeOf (opc : BitVec 4) (p : Place) : Bool :=
  match p with
  | .configure => opc == 0x1#4 || opc == 0x5#4
  | .initdClear => opc == 0x2#4 || opc == 0x5#4
  | .rstLow => opc == 0x2#4 || opc == 0x5#4
  | .lowWait => opc == 0x2#4 || opc == 0x5#4
  | .rstHigh => opc == 0x2#4 || opc == 0x5#4
  | .highWait => opc == 0x2#4 || opc == 0x5#4
  | .single => opc == 0x3#4 || opc == 0x4#4
  | .seq _ _ => opc == 0x5#4
  | .pageSelect => opc == 0x5#4 || opc == 0x6#4 || opc == 0x7#4 || opc == 0x9#4
  | .columnLow => opc == 0x5#4 || opc == 0x6#4 || opc == 0x7#4 || opc == 0x9#4
  | .columnHigh => opc == 0x5#4 || opc == 0x6#4 || opc == 0x7#4 || opc == 0x9#4
  | .column => opc == 0x5#4 || opc == 0x6#4 || opc == 0x7#4 || opc == 0x9#4
  | .columnDelay => opc == 0x9#4
  | .printSelect => opc == 0x8#4
  | .charLow => opc == 0x8#4
  | .charHigh => opc == 0x8#4
  | .glyphByte => opc == 0x8#4
  | .initdSet => opc == 0x5#4

/-- The places whose micro-op sends a byte. -/
def sends : Place → Bool
  | .configure => false
  | .initdClear => false
  | .rstLow => false
  | .lowWait => false
  | .rstHigh => false
  | .highWait => false
  | .single => true
  | .seq _ _ => true
  | .pageSelect => true
  | .columnLow => true
  | .columnHigh => true
  | .column => true
  | .columnDelay => false
  | .printSelect => true
  | .charLow => true
  | .charHigh => true
  | .glyphByte => true
  | .initdSet => false

/-- The places whose micro-op is a wait. -/
def waits (p : Place) : Bool := p == .lowWait || p == .highWait || p == .columnDelay

/-- The places that come only once the line is configured: those that send, and those between or after sends. -/
def needsLine (p : Place) : Bool := sends p || p == .columnDelay || p == .initdSet

/-- The places inside PRINT's character loop. -/
def inChar (p : Place) : Bool := p == .charLow || p == .charHigh || p == .glyphByte

/-- What holds of the block in every state a run reaches. -/
structure Inv (s : State) : Prop where
  /-- Memory keeps its canonical form. -/
  memWf : s.mem.wf
  /-- Only BMP and TEXT hold bytes (R52). -/
  memInBuffers : ∀ p ∈ s.mem, bmpBase ≤ p.1 ∧ p.1 < textBase + Config.textBytes
  /-- So do the racing writes. -/
  postedInBuffers : ∀ w ∈ s.posted, bmpBase ≤ w.off ∧ w.off + w.bytes.length ≤ textBase + Config.textBytes
  /-- A write races only with DRAW or PRINT (R66). -/
  postedRacing : s.posted ≠ [] → racing s
  /-- CFG holds its reset value or the constants of configure (R34, R35). -/
  cfgFixed : s.cfg = CfgReg.atReset ∨ s.cfg = configuredCfg
  /-- CS is asserted exactly while the serial master is configured (R95). -/
  csFollowsCfg : s.pinCs = !s.cfg.spe
  /-- TC is 0 exactly while a byte is in flight (R26). -/
  tcShift : s.tc = !shifting s
  /-- BITCNT counts 8 down to 1 while a byte is in flight and is 0 otherwise (R36, R91). -/
  bitsLeft : if shifting s then 1 ≤ s.bitcnt.toNat ∧ s.bitcnt.toNat ≤ 8 else s.bitcnt = 0#4
  /-- SCK rests at CPOL but between the two edges of a bit (R92). -/
  sckRests : s.stage ≠ .shift .secondEdge → s.pinSck = s.cfg.cpol
  /-- An idle block is inside no micro-op. -/
  idleStage : s.run = false → s.stage = .begin
  /-- DLY counts only inside a wait (R93). -/
  dlyCounts : (∃ d, s.stage = .count d) ∨ s.dly = 0
  /-- The running operation is legal and POS is a place of its rule (R21, R76). -/
  placeFits : s.run → wordLegal s.cur ∧ placeOf (opcField s.cur) s.pos
  /-- Only a place that sends is inside a send. -/
  sendFits : (∃ b, s.stage = .load b) ∨ shifting s ∨ s.stage = .settle → sends s.pos
  /-- A delay is counted only inside a wait, or inside a send (R91, R93). -/
  waitFits : (∃ d, s.stage = .count d) → sends s.pos || waits s.pos
  /-- A byte is sent only on a configured line (R163, R184). -/
  sendsConfigured : s.run → needsLine s.pos → s.cfg.spe
  /-- A running PRINT's character index stays in TEXT (R139). -/
  charIndex : s.run → inChar s.pos → s.ci.toNat < Config.textBytes
  /-- A running PRINT's glyph byte index is 0 to 4 (R39). -/
  glyphIndex : s.run → s.pos = .glyphByte → s.gk.toNat ≤ 4
  /-- RST is low exactly from the start of the pulse to its release (R94, R99, R110). -/
  rstLevel : s.pinRst = !(s.run && (s.pos == .lowWait || s.pos == .rstHigh))
  /-- While RESET_N = 0 everything is at its reset value (R180). The registers R42 leaves unspecified are then at the
  model's values, log entry 2, and what a run keeps through block reset is the model's, log entry 14. -/
  heldReset : s.resetN = false → s = blockReset s

/-! ## Minimum times -/

/-- Block-clock cycles the events of a trace take at least (R191): a byte 8*P, a wait its count. -/
def traceCycles : List Event → Nat
  | [] => 0
  | .byte _ _ :: t => 8 * Config.prescaler + traceCycles t
  | .wait d :: t => d.count + traceCycles t
  | .rst _ :: t => traceCycles t
  | .cfg :: t => traceCycles t

end Sys2Proof.Machine
end

