-- ==== Sys2Proof/Certificates/Slice0/Obligations.lean ====
section
/-! DEFINITION. Certificates/Slice0/Obligations.lean: the statements for the provers, in the order of the spec's files:
encoding, OP writes, the register window, the transmitter, the operations, errors, reset, and the whole machine. -/

open Sys2Proof Sys2Proof.Machine

/-! ## Encoding (30_encoding.md) -/

/-- R70, R71, R75: every field of every instruction, used or ignored, survives encoding and decoding. -/
def Obligations.DecodeOfEncode : Prop :=
  ∀ i : Instr, decode (encode i) = .ok i

/-- R70, R73, R74: a word the decoder accepts is exactly the encoding of what it decodes to. -/
def Obligations.EncodeOfDecode : Prop :=
  ∀ (v : Word) (i : Instr), decode v = .ok i → encode i = v

/-- R74: the bits under the mask 0xF88000FF select the operation: a word with a reserved bit set spells none, and any
other word spells the operation whose OPC the masked word is. -/
def Obligations.MaskSelectsOperation : Prop :=
  ∀ (v : Word) (i : Instr),
    ((decode v).toOption.map Instr.opc = some i.opc ↔ v &&& 0xF88000FF#32 = i.opc.setWidth 32) ∧
    (v &&& 0xF88000F0#32 ≠ 0#32 → decode v = .error .reservedBits)

/-- R71: the operand fields are the bits of the descriptor, unscaled and unsigned. -/
def Obligations.OperandFields : Prop :=
  ∀ v : Word,
    (opcField v).toNat = v.toNat % 16 ∧ (argField v).toNat = v.toNat / 256 % 256 ∧
    (xField v).toNat = v.toNat / 65536 % 128 ∧ (yField v).toNat = v.toNat / 16777216 % 8

/-- R84, R75: words of the assembler table, and the worked word 0x077FFF06, decode to their instructions. -/
def Obligations.TableWordsDecode : Prop :=
  decode 0x00000001#32 = .ok (.config 0#8 0#7 0#3) ∧ decode 0x00000002#32 = .ok (.reset 0#8 0#7 0#3) ∧
  decode 0x0000AF03#32 = .ok (.cmd 0xAF#8 0#7 0#3) ∧ decode 0x00005504#32 = .ok (.data 0x55#8 0#7 0#3) ∧
  decode 0x00000005#32 = .ok (.init 0#8 0#7 0#3) ∧ decode 0x077FFF06#32 = .ok (.clear 0xFF#8 127#7 7#3) ∧
  decode 0x00000007#32 = .ok (.draw 0#8 0#7 0#3) ∧ decode 0x020A0008#32 = .ok (.print 0#8 10#7 2#3) ∧
  decode 0x00000009#32 = .ok (.testfill 0#8 0#7 0#3)

/-- R77 to R79, R137: the address bytes 0xB0 | y, 0x00 | col[3:0] and 0x10 | col[7:4], and the column (X + 6*i) mod 256
of character i. -/
def Obligations.AddressBytes : Prop :=
  (∀ y : BitVec 3, (pageSelectByte y).toNat = 0xB0 + y.toNat) ∧
  (∀ col : BitVec 8, (columnLowByte col).toNat = col.toNat % 16 ∧ (columnHighByte col).toNat = 0x10 + col.toNat / 16) ∧
  (∀ (x : BitVec 7) (i : Nat), (charColumn x i).toNat = (x.toNat + 6 * i) % 256)

/-! ## Writing OP (30_encoding.md R76, 60_exceptions.md) -/

/-- R76, R64: a step is the oldest move still to come, taken off the list, and nothing where none is left; where that
move is an OP write of a word that decodes to i, it is exec of i. -/
def Obligations.StepRunsTheDecodedInstruction : Prop :=
  ∀ s : State,
    (∀ (rest : List Turn) (v : Word) (i : Instr),
      s.resetN = true → s.turns = .host (.write 0x000#12 .b4 v) :: rest → decode v = .ok i →
      step s = exec i { s with turns := rest }) ∧
    (∀ t rest, s.turns = t :: rest → step s = runTurn t { s with turns := rest }) ∧
    (s.turns = [] → step s = .next s)

/-- R76, R164: exactly one of the four outcomes of an OP write, tested in this order. -/
def Obligations.OpWriteOutcomes : Prop :=
  ∀ (v : Word) (s : State), s.resetN = true →
    (s.run = true →
      runTurn (.host (.write 0x000#12 .b4 v)) s = .next { s with errBusy := true }) ∧
    (s.run = false → illegalWord v →
      runTurn (.host (.write 0x000#12 .b4 v)) s = .next { s with errIllegal := true }) ∧
    (s.run = false → ¬ illegalWord v → transferOpc (v.extractLsb' 0 4) = true → s.cfg.spe = false →
      runTurn (.host (.write 0x000#12 .b4 v)) s = .next { s with errNotcfg := true }) ∧
    (s.run = false → ¬ illegalWord v → (transferOpc (v.extractLsb' 0 4) = true → s.cfg.spe = true) →
      runTurn (.host (.write 0x000#12 .b4 v)) s = .next (started v s))

/-- R163: CMD, DATA, CLEAR, DRAW, PRINT and TESTFILL on an idle unconfigured block set ERR_NOTCFG and do nothing else;
CONFIG, RESET and INIT never raise it. -/
def Obligations.UnconfiguredTransferRaisesErrNotcfg : Prop :=
  ∀ (arg : BitVec 8) (x : BitVec 7) (y : BitVec 3) (s : State),
    (s.run = false → s.cfg.spe = false →
      ∀ i ∈ [Instr.cmd arg x y, .data arg x y, .clear arg x y, .draw arg x y, .print arg x y, .testfill arg x y],
        exec i s = .next { s with errNotcfg := true }) ∧
    (∀ i ∈ [Instr.config arg x y, .reset arg x y, .init arg x y], ∀ t,
      exec i s = .next t → t.errNotcfg = s.errNotcfg)

/-- R76, R98, R99, R110: CONFIG, RESET and INIT start on every idle block, configured or not. -/
def Obligations.ConfigResetInitStart : Prop :=
  ∀ (arg : BitVec 8) (x : BitVec 7) (y : BitVec 3) (s : State), s.run = false →
    exec (.config arg x y) s =
      .next { s with cur := encode (.config arg x y), run := true, pos := .configure, stage := .begin } ∧
    exec (.reset arg x y) s =
      .next { s with cur := encode (.reset arg x y), run := true, pos := .initdClear, stage := .begin } ∧
    exec (.init arg x y) s =
      .next { s with cur := encode (.init arg x y), run := true, pos := .initdClear, stage := .begin }

/-- R76, R100, R101, R121, R122, R138, R150: the transfer operations start on an idle configured block. -/
def Obligations.TransferOperationsStart : Prop :=
  ∀ (arg : BitVec 8) (x : BitVec 7) (y : BitVec 3) (s : State), s.run = false → s.cfg.spe = true →
    exec (.cmd arg x y) s =
      .next { s with cur := encode (.cmd arg x y), run := true, pos := .single, stage := .begin } ∧
    exec (.data arg x y) s =
      .next { s with cur := encode (.data arg x y), run := true, pos := .single, stage := .begin } ∧
    exec (.clear arg x y) s =
      .next { s with cur := encode (.clear arg x y), run := true, pos := .pageSelect, stage := .begin, pg := 0#3 } ∧
    exec (.draw arg x y) s =
      .next { s with cur := encode (.draw arg x y), run := true, pos := .pageSelect, stage := .begin, pg := 0#3 } ∧
    exec (.print arg x y) s =
      .next { s with cur := encode (.print arg x y), run := true, pos := .printSelect, stage := .begin } ∧
    exec (.testfill arg x y) s =
      .next { s with cur := encode (.testfill arg x y), run := true, pos := .pageSelect, stage := .begin, pg := 0#3 }

/-- The frame of all nine instructions (CONFIG, RESET, CMD, DATA, INIT, CLEAR, DRAW, PRINT, TESTFILL): an OP write
changes nothing but OP, BUSY and POS (with PG, for the operations that begin with the page loop), or one of ERR_BUSY
and ERR_NOTCFG. No pin, no event, no byte of the buffers changes. -/
def Obligations.ExecFrame : Prop :=
  ∀ (i : Instr) (s t : State), exec i s = .next t →
    (t.cur = s.cur ∨ t.cur = encode i) ∧
    t.tc = s.tc ∧ t.initd = s.initd ∧ t.errIllegal = s.errIllegal ∧
    (t.errBusy = s.errBusy ∨ s.run = true ∧ t = { s with errBusy := true }) ∧
    (t.errNotcfg = s.errNotcfg ∨ s.run = false ∧ s.cfg.spe = false ∧ t = { s with errNotcfg := true }) ∧
    t.pinDc = s.pinDc ∧ t.pinRst = s.pinRst ∧ t.pinCs = s.pinCs ∧ t.pinSck = s.pinSck ∧ t.pinMosi = s.pinMosi ∧
    t.cfg = s.cfg ∧ t.dly = s.dly ∧ (t.pg = s.pg ∨ pagesOpc i.opc = true) ∧ t.cx = s.cx ∧ t.bi = s.bi ∧
    t.ci = s.ci ∧ t.cc = s.cc ∧ t.gk = s.gk ∧ t.ch = s.ch ∧ t.dr = s.dr ∧ t.shift = s.shift ∧
    t.bitcnt = s.bitcnt ∧ t.resetN = s.resetN ∧ t.turns = s.turns ∧ t.posted = s.posted ∧ t.trace = s.trace ∧
    t.reads = s.reads ∧ t.draws = s.draws ∧ (∀ a, t.mem.read a = s.mem.read a) ∧ (∀ a, hostByte t a = hostByte s a)

/-- R23: OP reads the last accepted descriptor: a write that starts an operation sets it, a rejected write leaves it,
no other move but block reset changes it; after reset it reads 0. -/
def Obligations.OpReadsLastAcceptedDescriptor : Prop :=
  (∀ s : State, readValue 0x000#12 .b4 s = s.cur) ∧
  (∀ (v : Word) (s t : State), s.resetN = true → runTurn (.host (.write 0x000#12 .b4 v)) s = .next t →
    (s.run = false ∧ t.run = true → t.cur = v) ∧
    (s.run = true ∨ illegalWord v ∨ transferOpc (v.extractLsb' 0 4) = true ∧ s.cfg.spe = false → t.cur = s.cur)) ∧
  (∀ (t : Turn) (s u : State), s.resetN = true → runTurn t s = .next u → t ≠ .resetPin false → u.cur ≠ s.cur →
    ∃ v, t = .host (.write 0x000#12 .b4 v) ∧ s.run = false ∧ u.run = true ∧ u.cur = v) ∧
  readValue 0x000#12 .b4 State.reset = 0x00000000#32

/-! ## The register window (10_state.md, 20_memory.md) -/

/-- R24, R33, R34: every bit of the STATUS, PINS and CFG words; CFG is 0x207 | (BR << 3) with configure's constants,
where PRESCALER = 2^(BR+1). -/
def Obligations.RegisterWordLayouts : Prop :=
  cfgWord configuredCfg = 0x207#32 ||| (Config.prescalerCode.setWidth 32 <<< 3) ∧
  prescalerOk Config.prescaler = true ∧ Config.prescaler = 2 ^ (configuredCfg.br.toNat + 1) ∧
  ∀ (s : State) (i : Nat),
    (readValue 0x004#12 .b4 s).getLsbD i =
      ((i == 0 && s.run) || (i == 1 && s.tc) || (i == 2 && s.cfg.spe) || (i == 3 && s.initd)
        || (i == 8 && s.errIllegal) || (i == 9 && s.errBusy) || (i == 10 && s.errNotcfg)) ∧
    (readValue 0x008#12 .b4 s).getLsbD i =
      ((i == 0 && s.pinDc) || (i == 1 && s.pinRst) || (i == 2 && s.pinCs) || (i == 3 && s.pinSck)
        || (i == 4 && s.pinMosi)) ∧
    (readValue 0x00C#12 .b4 s).getLsbD i =
      ((i == 0 && s.cfg.spe) || (i == 1 && s.cfg.mstr) || (i == 2 && s.cfg.txonly)
        || (decide (3 ≤ i ∧ i ≤ 5) && s.cfg.br.getLsbD (i - 3)) || (i == 6 && s.cfg.lsbfirst)
        || (i == 7 && s.cfg.cpol) || (i == 8 && s.cfg.cpha) || (i == 9 && s.cfg.pinaf))

/-- R32: a write of v to STATUS clears exactly the error flags whose bits are 1 in v. -/
def Obligations.StatusWriteClearsFlags : Prop :=
  ∀ (v : Word) (s : State), s.resetN = true →
    runTurn (.host (.write 0x004#12 .b4 v)) s = .next { s with
      errIllegal := if v.getLsbD 8 then false else s.errIllegal
      errBusy := if v.getLsbD 9 then false else s.errBusy
      errNotcfg := if v.getLsbD 10 then false else s.errNotcfg }

/-- R59: only aligned word writes to OP and STATUS have side effects. A read changes nothing of the block: only the
model's own record of the answer (log entry 4) and its count of the free values drawn (log entry 6) move on. Any other
write is either an aligned one to a buffer, which stores its bytes and changes no other byte and nothing else of the
block, or it changes nothing at all. -/
def Obligations.OnlyOpAndStatusWritesHaveSideEffects : Prop :=
  ∀ (off : Offset) (n : Width) (v : Word) (s : State), s.resetN = true →
    runTurn (.host (.read off n)) s =
      .next { s with reads := s.reads ++ [readValue off n s], draws := s.draws + n.bytes } ∧
    (¬ (n = .b4 ∧ (off = 0x000#12 ∨ off = 0x004#12)) →
      if 0x400 ≤ off.toNat ∧ off.toNat < 0x800 + Config.textBytes ∧ off.toNat % n.bytes = 0 then
        ∃ t, runTurn (.host (.write off n v)) s = .next t ∧ t = hostStore off.toNat (bytesOf n v) s ∧
          t = { s with mem := t.mem, posted := t.posted } ∧
          (∀ j, j < n.bytes → hostByte t (off.toNat + j) = some (v.extractLsb' (8 * j) 8)) ∧
          (∀ a, a < off.toNat ∨ off.toNat + n.bytes ≤ a → hostByte t a = hostByte s a)
      else runTurn (.host (.write off n v)) s = .next s)

/-- R53: any access to offsets 0x000 to 0x00F that is not an aligned word access is ignored or answers 0. -/
def Obligations.RegistersTakeAlignedWordsOnly : Prop :=
  ∀ (off : Offset) (n : Width) (v : Word) (s : State), s.resetN = true →
    off.toNat < 0x010 → (n ≠ .b4 ∨ off.toNat % 4 ≠ 0) →
    runTurn (.host (.write off n v)) s = .next s ∧
    ∃ t, runTurn (.host (.read off n)) s = .next t ∧ t.reads = s.reads ++ [0#32]

/-- R58: reserved offsets read 0 and ignore writes, whatever the size. -/
def Obligations.ReservedOffsetsAreInert : Prop :=
  ∀ (off : Offset) (n : Width) (v : Word) (s : State), s.resetN = true →
    (0x010 ≤ off.toNat ∧ off.toNat ≤ 0x3FF ∨ 0x800 + Config.textBytes ≤ off.toNat) →
    runTurn (.host (.write off n v)) s = .next s ∧
    ∃ t, runTurn (.host (.read off n)) s = .next t ∧ t.reads = s.reads ++ [0#32]

/-- R57: a misaligned access to BMP or TEXT is ignored or answers 0; no aligned one straddles the end of TEXT. -/
def Obligations.MisalignedBufferAccessIsInert : Prop :=
  ∀ (off : Offset) (n : Width) (v : Word) (s : State), s.resetN = true →
    0x400 ≤ off.toNat → off.toNat < 0x800 + Config.textBytes →
    (off.toNat % n.bytes ≠ 0 →
      runTurn (.host (.write off n v)) s = .next s ∧
      ∃ t, runTurn (.host (.read off n)) s = .next t ∧ t.reads = s.reads ++ [0#32]) ∧
    (off.toNat % n.bytes = 0 → off.toNat + n.bytes ≤ 0x800 + Config.textBytes)

/-- R56, R61: an aligned write of n bytes stores byte j of v at off + j and no other byte changes; it changes nothing
else of the block but the two places a buffer byte stands (mem, and posted while it races). -/
def Obligations.BufferWriteStoresItsBytes : Prop :=
  ∀ (off : Offset) (n : Width) (v : Word) (s : State), s.resetN = true →
    0x400 ≤ off.toNat → off.toNat < 0x800 + Config.textBytes → off.toNat % n.bytes = 0 →
    ∃ t, runTurn (.host (.write off n v)) s = .next t ∧
      t = { s with mem := t.mem, posted := t.posted } ∧
      (∀ j, j < n.bytes → hostByte t (off.toNat + j) = some (v.extractLsb' (8 * j) 8)) ∧
      (∀ a, a < off.toNat ∨ off.toNat + n.bytes ≤ a → hostByte t a = hostByte s a)

/-- R56, R61: an aligned read of written bytes answers their little-endian value: byte j is bits 8j+7 to 8j, and the
bits above the access are 0. -/
def Obligations.BufferReadIsLittleEndian : Prop :=
  ∀ (off : Offset) (n : Width) (s : State) (f : Nat → Byte), s.resetN = true →
    0x400 ≤ off.toNat → off.toNat < 0x800 + Config.textBytes → off.toNat % n.bytes = 0 →
    (∀ j, j < n.bytes → hostByte s (off.toNat + j) = some (f j)) →
    ∃ t w, runTurn (.host (.read off n)) s = .next t ∧ t.reads = s.reads ++ [w] ∧
      (∀ j, j < n.bytes → w.extractLsb' (8 * j) 8 = f j) ∧
      (∀ k, 8 * n.bytes ≤ k → w.getLsbD k = false)

/-- R66, R60, R64: a host write to a buffer while DRAW or PRINT runs leaves the engine the bytes it saw before; the host
sees its write at once. However many writes race already, drain turns make them visible one whole write at a time, in
the order the host made them: after k of them the engine sees the first k, and the last of them gives it this write.
(The drain turn, and the order of two racing writes, are the model's, log entry 5.) -/
def Obligations.RacingWriteShowsOldOrNew : Prop :=
  ∀ (off : Offset) (n : Width) (v : Word) (s : State), s.resetN = true → s.run = true →
    (opcField s.cur = 0x7#4 ∨ opcField s.cur = 0x8#4) →
    0x400 ≤ off.toNat → off.toNat < 0x800 + Config.textBytes → off.toNat % n.bytes = 0 →
    ∃ t, runTurn (.host (.write off n v)) s = .next t ∧
      (∀ a, t.mem.read a = s.mem.read a) ∧
      (∀ j, j < n.bytes → hostByte t (off.toNat + j) = some (v.extractLsb' (8 * j) 8)) ∧
      (∀ a, a < off.toNat ∨ off.toNat + n.bytes ≤ a → hostByte t a = hostByte s a) ∧
      (∀ k, k ≤ s.posted.length →
        ∃ u, Host.Core.run Sys2Proof.core k { t with turns := List.replicate k .drain } = .next u ∧
          (∀ a, u.mem.read a = hostByte { s with posted := s.posted.take k } a) ∧
          (∀ a, hostByte u a = hostByte t a)) ∧
      ∃ u, Host.Core.run Sys2Proof.core (s.posted.length + 1)
          { t with turns := List.replicate (s.posted.length + 1) .drain } = .next u ∧
        u.posted = [] ∧
        (∀ j, j < n.bytes → u.mem.read (off.toNat + j) = some (v.extractLsb' (8 * j) 8)) ∧
        (∀ a, a < off.toNat ∨ off.toNat + n.bytes ≤ a → u.mem.read a = hostByte s a)

/-- R54, R55, R59: only a host write to the buffers, or block reset, changes a byte of BMP or TEXT; no operation does. -/
def Obligations.OnlyHostWritesChangeBuffers : Prop :=
  ∀ (t : Turn) (s u : State), s.resetN = true → runTurn t s = .next u → t ≠ .resetPin false →
    (∀ off n v, t = .host (.write off n v) → off.toNat < 0x400 ∨ 0x800 + Config.textBytes ≤ off.toNat) →
    ∀ a, hostByte u a = hostByte s a

/-! ## The transmitter (40_transmitter.md) -/

/-- R91, R92, R63: a byte loaded on a configured line goes out most significant bit first: after 3k + 2 turns of the
line SCK is high and MOSI is bit 7 - k; after 24 the byte is complete: TC = 1, BITCNT = 0, SCK = 0, MOSI keeps bit 0,
and Byte(dc, b) is emitted, with DC as it was. (Three turns a bit are the model's, log entry 11;
nothing is said of SHIFT afterwards, log entry 8.) -/
def Obligations.ByteGoesOutMsbFirst : Prop :=
  ∀ (b : Byte) (s : State), s.run = true → s.cfg = configuredCfg →
    (∀ k, k < 8 → (lineTurn^[3 * k + 2] (loadByte b s)).pinSck = true ∧
      (lineTurn^[3 * k + 2] (loadByte b s)).pinMosi = b.getLsbD (7 - k) ∧
      (lineTurn^[3 * k + 2] (loadByte b s)).tc = false ∧
      (lineTurn^[3 * k + 2] (loadByte b s)).trace = s.trace) ∧
    ∃ v, lineTurn^[24] (loadByte b s) =
      { s with dr := b, shift := v, bitcnt := 0#4, tc := true, stage := .settle, pinSck := false,
               pinMosi := b.getLsbD 0, trace := s.trace ++ [.byte s.pinDc b] }

/-- R103, R168: a byte whose line gets no turn never completes: however many other moves there are, BUSY stays 1, TC
stays 0, no micro-op runs and no event is emitted, and every OP write raises ERR_BUSY; block reset ends it. -/
def Obligations.StuckLineHangs : Prop :=
  ∀ (s : State) (ts : List Turn), s.resetN = true → s.run = true → s.tc = false → shifting s = true →
    (∀ t ∈ ts, t ≠ .line ∧ t ≠ .resetPin false) →
    ∃ u, Host.Core.run Sys2Proof.core ts.length { s with turns := ts } = .next u ∧
      u.run = true ∧ u.tc = false ∧ u.trace = s.trace ∧ u.pos = s.pos ∧ u.stage = s.stage ∧ u.resetN = true ∧
      (∀ v, runTurn (.host (.write 0x000#12 .b4 v)) u = .next { u with errBusy := true }) ∧
      runTurn (.resetPin false) u = .next (blockReset u)

/-- R102: DC changes only at the start of a send, to that byte's level, and at block reset. -/
def Obligations.DcChangesOnlyAtSend : Prop :=
  ∀ (t : Turn) (s u : State), s.resetN = true → runTurn t s = .next u → u.pinDc ≠ s.pinDc →
    t = .resetPin false ∨
    (t = .engine ∧ s.run = true ∧ s.stage = .begin ∧
      ∃ dc b s', microOpAt s = .ok (.send dc b, s') ∧ u.pinDc = dc ∧ u.stage = .load b)

/-- R35, R27, R95: CFG changes only by the configure micro-op, which writes its constants, and at block reset; host
writes to its offset are ignored. -/
def Obligations.CfgChangesOnlyByConfigure : Prop :=
  (∀ (t : Turn) (s u : State), s.resetN = true → runTurn t s = .next u → u.cfg ≠ s.cfg →
    (t = .resetPin false ∧ u.cfg = CfgReg.atReset) ∨
    (t = .engine ∧ s.run = true ∧ s.pos = .configure ∧ u.cfg = configuredCfg ∧ u.pinCs = false ∧
      u.pinSck = configuredCfg.cpol ∧ u.trace = s.trace ++ [.cfg])) ∧
  (∀ (off : Offset) (n : Width) (v : Word) (s : State), s.resetN = true → 0x00C ≤ off.toNat → off.toNat < 0x010 →
    runTurn (.host (.write off n v)) s = .next s)

/-- R94, R43: RST changes only where the pulse of RESET or INIT drives it, which emits Rst, and at block reset. -/
def Obligations.RstChangesOnlyInPulse : Prop :=
  ∀ (t : Turn) (s u : State), s.resetN = true → runTurn t s = .next u → u.pinRst ≠ s.pinRst →
    t = .resetPin false ∨
    (t = .engine ∧ s.run = true ∧ (s.pos = .rstLow ∧ u.pinRst = false ∨ s.pos = .rstHigh ∧ u.pinRst = true) ∧
      u.trace = s.trace ++ [.rst u.pinRst])

/-- R28, R96: INITD becomes 1 only by INIT's last micro-op and 0 only by the first micro-op of RESET or INIT, or block
reset. -/
def Obligations.InitdChangesOnlyInResetAndInit : Prop :=
  ∀ (t : Turn) (s u : State), s.resetN = true → runTurn t s = .next u → u.initd ≠ s.initd →
    (t = .resetPin false ∧ u.initd = false) ∨
    (t = .engine ∧ s.run = true ∧ s.pos = .initdClear ∧ u.initd = false) ∨
    (t = .engine ∧ s.run = true ∧ s.pos = .initdSet ∧ u.initd = true ∧ u.run = false)

/-! ## The operations, run to their end -/

/-- R98, R95: CONFIG ends with CFG configured, CS asserted and SCK idle; no other pin and no other flag changes. -/
def Obligations.ConfigCompletes : Prop :=
  ∀ (arg : BitVec 8) (x : BitVec 7) (y : BitVec 3) (s : State), Inv s → s.resetN = true → s.run = false →
    Completes (.config arg x y) s fun u =>
      u.cfg = configuredCfg ∧ u.pinCs = false ∧ u.pinSck = false ∧ u.initd = s.initd ∧ u.pinDc = s.pinDc ∧
      u.pinRst = s.pinRst ∧ u.pinMosi = s.pinMosi

/-- R99: RESET pulses RST and clears INITD; CFG, CS, DC, SCK and MOSI do not change. -/
def Obligations.ResetCompletes : Prop :=
  ∀ (arg : BitVec 8) (x : BitVec 7) (y : BitVec 3) (s : State), Inv s → s.resetN = true → s.run = false →
    Completes (.reset arg x y) s fun u =>
      u.initd = false ∧ u.pinRst = true ∧ u.cfg = s.cfg ∧ u.pinCs = s.pinCs ∧ u.pinDc = s.pinDc ∧
      u.pinSck = s.pinSck ∧ u.pinMosi = s.pinMosi

/-- R100, R101: CMD and DATA send ARG unchanged with their DC level. -/
def Obligations.CmdAndDataComplete : Prop :=
  ∀ (arg : BitVec 8) (x : BitVec 7) (y : BitVec 3) (s : State), Inv s → s.resetN = true → s.run = false →
    s.cfg.spe = true →
    (Completes (.cmd arg x y) s fun u =>
      u.pinDc = false ∧ u.pinMosi = arg.getLsbD 0 ∧ u.initd = s.initd ∧ u.cfg = s.cfg ∧ u.pinRst = s.pinRst ∧
      u.pinCs = s.pinCs ∧ u.pinSck = s.pinSck) ∧
    (Completes (.data arg x y) s fun u =>
      u.pinDc = true ∧ u.pinMosi = arg.getLsbD 0 ∧ u.initd = s.initd ∧ u.cfg = s.cfg ∧ u.pinRst = s.pinRst ∧
      u.pinCs = s.pinCs ∧ u.pinSck = s.pinSck)

/-- R110, R113: from every idle state INIT emits the same trace, and ends configured with INITD = 1. -/
def Obligations.InitCompletes : Prop :=
  ∀ (arg : BitVec 8) (x : BitVec 7) (y : BitVec 3) (s : State), Inv s → s.resetN = true → s.run = false →
    Completes (.init arg x y) s fun u =>
      u.initd = true ∧ u.cfg = configuredCfg ∧ u.pinCs = false ∧ u.pinRst = true ∧ u.pinDc = true ∧
      u.pinSck = false ∧ u.pinMosi = false ∧ u.trace = s.trace ++ initEvents

/-- R122: CLEAR sends the blank frame, whatever the buffers hold. -/
def Obligations.ClearCompletes : Prop :=
  ∀ (arg : BitVec 8) (x : BitVec 7) (y : BitVec 3) (s : State), Inv s → s.resetN = true → s.run = false →
    s.cfg.spe = true →
    Completes (.clear arg x y) s fun u =>
      u.pinDc = true ∧ u.pinMosi = false ∧ u.initd = s.initd ∧ u.cfg = s.cfg ∧ u.pinRst = s.pinRst ∧
      u.pinCs = s.pinCs ∧ u.pinSck = s.pinSck

/-- R121, R186: DRAW sends the whole bitmap once every BMP byte has been written. -/
def Obligations.DrawCompletes : Prop :=
  ∀ (arg : BitVec 8) (x : BitVec 7) (y : BitVec 3) (s : State), Inv s → s.resetN = true → s.run = false →
    s.cfg.spe = true → bmpWritten s.mem →
    Completes (.draw arg x y) s fun u =>
      u.pinDc = true ∧ u.initd = s.initd ∧ u.cfg = s.cfg ∧ u.pinRst = s.pinRst ∧ u.pinCs = s.pinCs ∧
      u.pinSck = s.pinSck

/-- R138, R139, R186: PRINT sends the string as glyphs once TEXT is written up to its terminator, or whole. DC ends at
1 exactly if at least one character was sent. -/
def Obligations.PrintCompletes : Prop :=
  ∀ (arg : BitVec 8) (x : BitVec 7) (y : BitVec 3) (s : State), Inv s → s.resetN = true → s.run = false →
    s.cfg.spe = true → textWritten s.mem Config.textBytes 0 = true →
    Completes (.print arg x y) s fun u =>
      u.pinDc = !(textString s.mem).isEmpty ∧ u.initd = s.initd ∧ u.cfg = s.cfg ∧ u.pinRst = s.pinRst ∧
      u.pinCs = s.pinCs ∧ u.pinSck = s.pinSck

/-- R150: TESTFILL sends 1024 bytes of 0xFF, with its delay after each, whatever the buffers hold. -/
def Obligations.TestfillCompletes : Prop :=
  ∀ (arg : BitVec 8) (x : BitVec 7) (y : BitVec 3) (s : State), Inv s → s.resetN = true → s.run = false →
    s.cfg.spe = true →
    Completes (.testfill arg x y) s fun u =>
      u.pinDc = true ∧ u.pinMosi = true ∧ u.initd = s.initd ∧ u.cfg = s.cfg ∧ u.pinRst = s.pinRst ∧
      u.pinCs = s.pinCs ∧ u.pinSck = s.pinSck

/-- R44, R121, R138: DRAW faults where it is about to send a page byte of which one BMP byte was never written. PRINT
faults at the end of the settle delay before the character whose TEXT byte was never written: of the page select for
character 0, of the last glyph byte of the character before for the others. k more turns of the engine stand before that
end: SETTLE_CYCLES where the delay has not begun (so the very next turn faults where SETTLE_CYCLES = 0), and otherwise
what DLY still counts; they emit nothing. (The moment PRINT reads the byte is the model's, log entry 9, and so is one
engine turn a cycle, log entry 13.) -/
def Obligations.UnwrittenBytesFault : Prop :=
  (∀ s : State, s.resetN = true → s.run = true → opcField s.cur = 0x7#4 → s.pos = .column → s.stage = .begin →
    (∃ i, i < 8 ∧ s.mem.read (0x400 + (16 * (8 * s.pg.toNat + i) + s.cx.toNat / 8)) = none) →
    runTurn .engine s = .fault .bmpUnwritten) ∧
  (∀ (s : State) (i k : Nat), s.resetN = true → s.run = true →
    (s.pos = .printSelect ∧ i = 0 ∨ s.pos = .glyphByte ∧ s.gk = 4#3 ∧ i = s.ci.toNat + 1) →
    (s.stage = .settle ∧ k = Config.settleCycles ∨ (∃ d, s.stage = .count d) ∧ k = s.dly - 1) →
    i < Config.textBytes → s.mem.read (0x800 + i) = none →
    ∃ u, fairRun k s = .next u ∧ u.trace = s.trace ∧ runTurn .engine u = .fault .textUnwritten)

/-! ## What the operations send (42_frame.md, 43_text.md, 44_diagnostics.md) -/

/-- R120, R62: bit i of pack(y, x) is bit 7 - (x mod 8) of BMP[16*(8y+i) + x div 8]. -/
def Obligations.PageByteClosedForm : Prop :=
  ∀ (m : Memory) (f : Nat → Byte), (∀ a, a < 1024 → m.read (0x400 + a) = some (f a)) →
    ∀ y x, y < 8 → x < 128 →
      ∃ b, pageByte m y x = some b ∧
        ∀ i, i < 8 → b.getLsbD i = (f (16 * (8 * y + i) + x / 8)).getLsbD (7 - x % 8)

/-- R120, R39: the engine's loop over BI computes the page byte of page PG, column CX, reading nothing else. -/
def Obligations.ComposedByteIsPageByte : Prop :=
  ∀ s : State,
    composePage s = (pageByte s.mem s.pg.toNat s.cx.toNat).map fun b => (b, { s with bi := 7#3 })

/-- R125: CLEAR, DRAW and TESTFILL each send 1048 bytes, and byte k is the one of page k div 131, slot k mod 131. -/
def Obligations.FrameByteSequence : Prop :=
  ∀ (arg : BitVec 8) (x : BitVec 7) (y : BitVec 3) (m : Memory) (i : Instr) (f : Nat → Nat → Byte),
    (i = .clear arg x y ∧ f = fun _ _ => 0x00#8) ∨ (i = .draw arg x y ∧ f = drawData m) ∨
      (i = .testfill arg x y ∧ f = fun _ _ => 0xFF#8) →
    (bytesSent (opEvents i m)).length = 1048 ∧
    ((bytesSent (opEvents i m)).filter fun p => !p.1).length = 24 ∧
    ((bytesSent (opEvents i m)).filter fun p => p.1).length = 1024 ∧
    ∀ k, k < 1048 → (bytesSent (opEvents i m))[k]? = some (
      if k % 131 = 0 then (false, 0xB0#8 ||| BitVec.ofNat 8 (k / 131))
      else if k % 131 = 1 then (false, 0x00#8)
      else if k % 131 = 2 then (false, 0x10#8)
      else (true, f (k / 131) (k % 131 - 3)))

/-- R123: on an all-zero bitmap DRAW's trace is CLEAR's. -/
def Obligations.DrawOfZeroBitmapIsClear : Prop :=
  ∀ (m : Memory) (arg : BitVec 8) (x : BitVec 7) (y : BitVec 3),
    (∀ a, bmpBase ≤ a → a < textBase → m.read a = some 0x00#8) →
    opEvents (.draw arg x y) m = opEvents (.clear arg x y) m

/-- R124: for a bitmap with one set bit, at row r, column byte c, bit b, DRAW sends the frame whose one non-zero data
byte stands at page r div 8, column 8c + (7 - b), and is 1 << (r mod 8). -/
def Obligations.SingleBitDraw : Prop :=
  ∀ (m : Memory) (arg : BitVec 8) (x0 : BitVec 7) (y0 : BitVec 3) (r c b : Nat), r < 64 → c < 16 → b < 8 →
    (∀ a, bmpBase ≤ a → a < textBase →
      m.read a = some (if a = bmpBase + (16 * r + c) then 1#8 <<< b else 0x00#8)) →
    opEvents (.draw arg x0 y0) m = frameEvents false fun y x =>
      if y = r / 8 ∧ x = 8 * c + (7 - b) then 1#8 <<< (r % 8) else 0x00#8

/-- R135, R136: letters fold their case, 'A' and 'a' have the glyph 1F 05 05 05 1F, and every character that is no
digit, letter or angle bracket is BLANK, five zero bytes. -/
def Obligations.GlyphsFoldCaseAndBlank : Prop :=
  (∀ c : Byte, 0x41 ≤ c.toNat → c.toNat ≤ 0x5A → glyphClass (c + 0x20#8) = glyphClass c ∧
    glyphClass c = .letter (Fin.ofNat 26 (c.toNat - 0x41))) ∧
  (∀ c : Byte, 0x30 ≤ c.toNat → c.toNat ≤ 0x39 → glyphClass c = .digit (Fin.ofNat 10 (c.toNat - 0x30))) ∧
  glyphClass 0x3C#8 = .leftArrow ∧ glyphClass 0x3E#8 = .rightArrow ∧
  (∀ c : Byte, ¬ (0x30 ≤ c.toNat ∧ c.toNat ≤ 0x39) → ¬ (0x41 ≤ c.toNat ∧ c.toNat ≤ 0x5A) →
    ¬ (0x61 ≤ c.toNat ∧ c.toNat ≤ 0x7A) → c ≠ 0x3C#8 → c ≠ 0x3E#8 →
    ∀ k, glyph (glyphClass c) k = 0x00#8) ∧
  (List.ofFn (glyph (glyphClass 0x41#8)) = [0x1F#8, 0x05#8, 0x05#8, 0x05#8, 0x1F#8])

/-- R140: PRINT of a string of n characters, 0 <= n <= TEXT_BYTES, sends exactly 1 + 7*n bytes: the page select, and
for each character two column bytes and five data bytes. -/
def Obligations.PrintByteCount : Prop :=
  ∀ (arg : BitVec 8) (x : BitVec 7) (y : BitVec 3) (m : Memory),
    (textString m).length ≤ Config.textBytes ∧
    (bytesSent (opEvents (.print arg x y) m)).length = 1 + 7 * (textString m).length ∧
    ((bytesSent (opEvents (.print arg x y) m)).filter fun p => !p.1).length = 1 + 2 * (textString m).length ∧
    ((bytesSent (opEvents (.print arg x y) m)).filter fun p => p.1).length = 5 * (textString m).length

/-- R114: INIT sends |UNLOCK_SEQ| + |SETUP_SEQ| + 1048 bytes, the last 1048 of them CLEAR's. -/
def Obligations.InitByteCount : Prop :=
  ∀ (arg : BitVec 8) (x : BitVec 7) (y : BitVec 3) (m : Memory),
    (bytesSent (opEvents (.init arg x y) m)).length = Config.unlockSeq.length + Config.setupSeq.length + 1048 ∧
    bytesSent (opEvents (.init arg x y) m) =
      (Config.unlockSeq ++ Config.setupSeq) ++ bytesSent (opEvents (.clear arg x y) m)

/-- R191: the minimum times of the operations, in block-clock cycles. The machine holds no time: the cycles are the
model's own function traceCycles over the trace an operation's rule gives, log entry 13, and no run is measured. -/
def Obligations.MinimumTimes : Prop :=
  ∀ (arg : BitVec 8) (x : BitVec 7) (y : BitVec 3) (m : Memory) (c : Nat),
    c = 8 * Config.prescaler + Config.settleCycles →
    traceCycles (opEvents (.cmd arg x y) m) = c ∧ traceCycles (opEvents (.data arg x y) m) = c ∧
    traceCycles (opEvents (.clear arg x y) m) = 1048 * c ∧ traceCycles (opEvents (.draw arg x y) m) = 1048 * c ∧
    traceCycles (opEvents (.testfill arg x y) m) = 1048 * c + 1024 * Config.testColDelay ∧
    traceCycles (opEvents (.print arg x y) m) = (1 + 7 * (textString m).length) * c ∧
    traceCycles (opEvents (.reset arg x y) m) = (Duration.ms 5).count + (Duration.ms 1).count ∧
    traceCycles (opEvents (.init arg x y) m) = (Duration.ms 5).count + (Duration.ms 1).count +
      (Config.unlockSeq.length + Config.setupSeq.length + 1048) * c

/-- R185, R85: reset, config, the bytes of UNLOCK_SEQ and SETUP_SEQ by cmd and data, and clear, each with its wait, can
be run to their end from every idle state, and give INIT's trace; INITD stays 0. -/
def Obligations.ManualInitGivesInitTrace : Prop :=
  ∀ s : State, Inv s → s.resetN = true → s.run = false →
    ∃ ks u, runProgram ks manualInitProgram s = .next ([], u) ∧ u.trace = s.trace ++ initEvents ∧
      u.initd = false ∧ u.run = false ∧ u.cfg = configuredCfg

/-- R85, R24: the pseudo-operation wait is a read of STATUS, repeated until bit 0 of the value read is 0: each poll
answers STATUS and changes nothing of the block; while BUSY = 1 the wait goes on, else it is over. With a byte on a line
that gets no turn it never is (R103, R168): every poll answers BUSY = 1, and nothing is emitted. (The record of the
answers is the model's, log entries 4 and 6.) -/
def Obligations.WaitPollsStatus : Prop :=
  ∀ (rest : List HostStep) (s : State), s.resetN = true →
    hostMove (.waitIdle :: rest) s = .next (if s.run then .waitIdle :: rest else rest,
      { s with reads := s.reads ++ [statusWord s], draws := s.draws + 4 }) ∧
    ∀ ks : List Pick, s.run = true → shifting s = true → (∀ k ∈ ks, k ≠ .line ∧ k ≠ .resetPin false) →
      ∃ ws u, runProgram ks (.waitIdle :: rest) s = .next (.waitIdle :: rest, u) ∧ u.run = true ∧
        u.trace = s.trace ∧ u.reads = s.reads ++ ws ∧ ws.length = ks.count .host ∧
        ∀ w ∈ ws, w.getLsbD 0 = true

/-- R85, R97: op_wait of an operation the block can accept ends only when the operation has ended: in whatever order the
agents move, if the program is over and RESET_N was not driven low, the block is idle, has emitted exactly the
operation's trace, and holds its descriptor in OP; the error flags and the bytes of the buffers are as before. -/
def Obligations.OpWaitEndsWithTheOperation : Prop :=
  ∀ (i : Instr) (s u : State) (ks : List Pick), Inv s → s.resetN = true → s.run = false →
    (transferOpc i.opc = true → s.cfg.spe = true) → (∀ k ∈ ks, k ≠ .resetPin false) →
    runProgram ks (opWait i) s = .next ([], u) →
    u.run = false ∧ u.trace = s.trace ++ opEvents i s.mem ∧ u.cur = encode i ∧
      u.errIllegal = s.errIllegal ∧ u.errBusy = s.errBusy ∧ u.errNotcfg = s.errNotcfg ∧
      (∀ a, hostByte u a = hostByte s a)

/-! ## Errors and reset (60_exceptions.md, 70_reset_and_hazards.md) -/

/-- R160, R166, R29 to R31: an error flag is set only by an aligned word write to OP and cleared only by one to STATUS
with its bit set, or by block reset. -/
def Obligations.ErrorFlagsAreSticky : Prop :=
  ∀ (t : Turn) (s u : State), s.resetN = true → runTurn t s = .next u → t ≠ .resetPin false →
    (u.errIllegal ≠ s.errIllegal → (∃ v, t = .host (.write 0x000#12 .b4 v) ∧ u.errIllegal = true) ∨
      ∃ v, t = .host (.write 0x004#12 .b4 v) ∧ v.getLsbD 8 = true ∧ u.errIllegal = false) ∧
    (u.errBusy ≠ s.errBusy → (∃ v, t = .host (.write 0x000#12 .b4 v) ∧ u.errBusy = true) ∨
      ∃ v, t = .host (.write 0x004#12 .b4 v) ∧ v.getLsbD 9 = true ∧ u.errBusy = false) ∧
    (u.errNotcfg ≠ s.errNotcfg → (∃ v, t = .host (.write 0x000#12 .b4 v) ∧ u.errNotcfg = true) ∨
      ∃ v, t = .host (.write 0x004#12 .b4 v) ∧ v.getLsbD 10 = true ∧ u.errNotcfg = false)

/-- R42: the values the spec states for reset. (What POS, the loop counters, DR and SHIFT hold is the model's choice,
log entry 2, and is not stated.) -/
def Obligations.ResetValues : Prop :=
  readValue 0x000#12 .b4 State.reset = 0x00000000#32 ∧ readValue 0x004#12 .b4 State.reset = 0x00000002#32 ∧
  readValue 0x008#12 .b4 State.reset = 0x00000006#32 ∧ readValue 0x00C#12 .b4 State.reset = 0x00000000#32 ∧
  State.reset.run = false ∧ State.reset.bitcnt = 0#4 ∧ State.reset.dly = 0 ∧ State.reset.resetN = true ∧
  State.reset.trace = [] ∧ (∀ a, hostByte State.reset a = none)

/-- R182: block reset abandons the running operation at once: no event is emitted, neither then nor by any later move
while RESET_N stays low or after it is released, CS and RST are 1, CFGD and INITD are 0. (What a run keeps through block
reset, its trace and the moves still to come, is the model's, log entry 14.) -/
def Obligations.BlockResetAbandonsOperation : Prop :=
  ∀ s : State, s.resetN = true →
    ∃ u, runTurn (.resetPin false) s = .next u ∧ u.trace = s.trace ∧ u.run = false ∧
      statusWord u = 0x00000002#32 ∧ pinsWord u = 0x00000006#32 ∧ cfgWord u.cfg = 0#32 ∧ u.cur = 0#32 ∧
      (∀ a, hostByte u a = none) ∧
      ∃ w, runTurn (.resetPin true) u = .next w ∧ w = { u with resetN := true } ∧
        (∀ t ∈ [Turn.engine, .line, .drain], runTurn t u = .next u ∧ runTurn t w = .next w)

/-- R180: while RESET_N = 0 host reads answer 0, host writes are ignored, and every move leaves the reset values; when
it returns to 1 the block is idle. (What POS, the loop counters, DR and SHIFT hold then is the model's choice, log entry
2, and what a run keeps through block reset log entry 14.) -/
def Obligations.HeldResetIgnoresTheHost : Prop :=
  ∀ s : State, s.resetN = false →
    (∀ off n, runTurn (.host (.read off n)) s = .next { blockReset s with reads := s.reads ++ [0#32] }) ∧
    (∀ off n v, runTurn (.host (.write off n v)) s = .next (blockReset s)) ∧
    (∀ t ∈ [Turn.engine, .line, .drain, .resetPin false], runTurn t s = .next (blockReset s)) ∧
    ∃ u, runTurn (.resetPin true) s = .next u ∧ u.run = false ∧ u.resetN = true ∧
      statusWord u = 0x00000002#32 ∧ pinsWord u = 0x00000006#32

/-- R181, R25: an idle block starts nothing by itself: turns of the engine and the line change nothing. -/
def Obligations.IdleBlockStartsNothing : Prop :=
  ∀ s : State, s.resetN = true → s.run = false →
    runTurn .engine s = .next s ∧ runTurn .line s = .next s

/-! ## The whole machine -/

/-- The invariant holds right after reset (R42, R180). (Inv speaks of the loop counters only while an operation runs, and
right after reset none does, so their values, log entry 2, do not matter here.) -/
def Obligations.InvHoldsAtReset : Prop := Inv State.reset

/-- Every step keeps the invariant, from every state that has it (R21, R26, R34, R35, R36, R39, R92, R95, R139, R163,
R180; the canonical form of memory). (That a racing write stands only beside DRAW or PRINT is the model's, log entry 5;
so are the values held while RESET_N = 0 by POS, PG, CX, BI, CI, CC, GK, DR and SHIFT, which R42 leaves unspecified, log
entry 2, and what a run keeps through block reset, log entry 14.) -/
def Obligations.StepKeepsInv : Prop :=
  ∀ s u : State, Inv s → step s = .next u → Inv u

/-- R21, R90, R64, R162: whatever the agents do and in whatever order, what a running operation has emitted and what
it still owes by its rule together never change, until it ends or block reset cuts it. (A racing write that reaches
the engine may change what DRAW or PRINT sends, R66, and is left out here. That PRINT reads a character when the
micro-op before it has completed is the model's, log entry 9.) -/
def Obligations.OwedTraceIsConserved : Prop :=
  ∀ (t : Turn) (s u : State), Inv s → s.resetN = true → s.run = true → t ≠ .resetPin false →
    (t = .drain → s.posted = []) → runTurn t s = .next u →
    u.trace ++ owed u = s.trace ++ owed s

/-- R76, R98 to R101, R110, R121, R122, R138, R150: an operation that has just started owes exactly its rule's trace. -/
def Obligations.StartedOperationOwesItsTrace : Prop :=
  ∀ (i : Instr) (s : State), owed (started (encode i) s) = opEvents i s.mem

/-- R97, R25: BUSY falls only at an engine turn, when everything owed has been emitted; OP, the error flags and what
the host reads in the buffers do not change then. -/
def Obligations.BusyFallsAtTheEnd : Prop :=
  ∀ (t : Turn) (s u : State), Inv s → s.resetN = true → s.run = true → t ≠ .resetPin false →
    runTurn t s = .next u → u.run = false →
    t = .engine ∧ u.trace = s.trace ++ owed s ∧ u.cur = s.cur ∧ u.errIllegal = s.errIllegal ∧
      u.errBusy = s.errBusy ∧ u.errNotcfg = s.errNotcfg ∧ (∀ a, hostByte u a = hostByte s a)
end

