-- ==== Sys2Proof/Laws/Encoding.lean ====
section
/-! SUPPORT. Laws/Encoding.lean: the fields of a packed descriptor word (30_encoding.md R70, R71). -/

namespace Sys2Proof

/-- Bit i of a packed word is the bit of the field that stands there (R70). -/
theorem getLsbD_packFields (o : BitVec 4) (a : BitVec 8) (x : BitVec 7) (y : BitVec 3) (i : Nat) (h : i < 32) :
    (packFields o a x y).getLsbD i =
      if i < 4 then o.getLsbD i
      else if i < 8 then false
      else if i < 16 then a.getLsbD (i - 8)
      else if i < 23 then x.getLsbD (i - 16)
      else if i < 24 then false
      else if i < 27 then y.getLsbD (i - 24)
      else false := by
  simp only [packFields, BitVec.getLsbD_or, BitVec.getLsbD_shiftLeft, BitVec.getLsbD_setWidth]
  have ho : 4 ≤ i → o.getLsbD i = false := fun hi => BitVec.getLsbD_of_ge o i hi
  have ha : 16 ≤ i → a.getLsbD (i - 8) = false := fun hi => BitVec.getLsbD_of_ge a _ (by omega)
  have hx : 23 ≤ i → x.getLsbD (i - 16) = false := fun hi => BitVec.getLsbD_of_ge x _ (by omega)
  have hy : 27 ≤ i → y.getLsbD (i - 24) = false := fun hi => BitVec.getLsbD_of_ge y _ (by omega)
  grind

theorem opcField_packFields (o : BitVec 4) (a : BitVec 8) (x : BitVec 7) (y : BitVec 3) :
    opcField (packFields o a x y) = o := by
  apply BitVec.eq_of_getLsbD_eq; intro i hi
  simp only [opcField, BitVec.getLsbD_extractLsb', getLsbD_packFields o a x y (0 + i) (by omega)]
  simp [hi]

theorem argField_packFields (o : BitVec 4) (a : BitVec 8) (x : BitVec 7) (y : BitVec 3) :
    argField (packFields o a x y) = a := by
  apply BitVec.eq_of_getLsbD_eq; intro i hi
  simp only [argField, BitVec.getLsbD_extractLsb', getLsbD_packFields o a x y (8 + i) (by omega)]
  grind

theorem xField_packFields (o : BitVec 4) (a : BitVec 8) (x : BitVec 7) (y : BitVec 3) :
    xField (packFields o a x y) = x := by
  apply BitVec.eq_of_getLsbD_eq; intro i hi
  simp only [xField, BitVec.getLsbD_extractLsb', getLsbD_packFields o a x y (16 + i) (by omega)]
  grind

theorem yField_packFields (o : BitVec 4) (a : BitVec 8) (x : BitVec 7) (y : BitVec 3) :
    yField (packFields o a x y) = y := by
  apply BitVec.eq_of_getLsbD_eq; intro i hi
  simp only [yField, BitVec.getLsbD_extractLsb', getLsbD_packFields o a x y (24 + i) (by omega)]
  grind

/-- The reserved bits are clear exactly when every one of bits 7:4, 23 and 31:27 is 0 (R74). -/
theorem reservedClear_iff (v : Word) :
    reservedClear v = true ↔
      ∀ i, i < 32 → (4 ≤ i ∧ i < 8 ∨ i = 23 ∨ 27 ≤ i) → v.getLsbD i = false := by
  simp only [reservedClear, Bool.and_eq_true, beq_iff_eq]
  constructor
  · rintro ⟨⟨h1, h2⟩, h3⟩ i hi h
    have k1 := congrArg (fun w => w.getLsbD (i - 4)) h1
    have k2 := congrArg (fun w => w.getLsbD (i - 23)) h2
    have k3 := congrArg (fun w => w.getLsbD (i - 27)) h3
    simp only [BitVec.getLsbD_extractLsb', BitVec.getLsbD_zero] at k1 k2 k3
    grind
  · intro h
    refine ⟨⟨?_, ?_⟩, ?_⟩ <;> apply BitVec.eq_of_getLsbD_eq <;> intro i hi
    · simp [BitVec.getLsbD_extractLsb', h (4 + i) (by omega) (by omega)]
    · simp [BitVec.getLsbD_extractLsb', h (23 + i) (by omega) (by omega)]
    · simp [BitVec.getLsbD_extractLsb', h (27 + i) (by omega) (by omega)]

theorem reservedClear_packFields (o : BitVec 4) (a : BitVec 8) (x : BitVec 7) (y : BitVec 3) :
    reservedClear (packFields o a x y) = true := by
  rw [reservedClear_iff]; intro i hi h
  rw [getLsbD_packFields o a x y i hi]; grind

/-- A word whose reserved bits are 0 is its four fields laid out (R70). -/
theorem packFields_fields {v : Word} (h : reservedClear v = true) :
    packFields (opcField v) (argField v) (xField v) (yField v) = v := by
  rw [reservedClear_iff] at h
  apply BitVec.eq_of_getLsbD_eq; intro i hi
  have := h i hi
  rw [getLsbD_packFields _ _ _ _ i hi]
  simp only [opcField, argField, xField, yField, BitVec.getLsbD_extractLsb']
  grind

theorem encode_eq_packFields (i : Instr) : ∃ a x y, encode i = packFields i.opc a x y := by
  cases i <;> exact ⟨_, _, _, rfl⟩

@[simp] theorem opcField_encode (i : Instr) : opcField (encode i) = i.opc := by
  obtain ⟨a, x, y, h⟩ := encode_eq_packFields i; rw [h, opcField_packFields]

@[simp] theorem reservedClear_encode (i : Instr) : reservedClear (encode i) = true := by
  obtain ⟨a, x, y, h⟩ := encode_eq_packFields i; rw [h, reservedClear_packFields]

@[simp] theorem wordLegal_encode (i : Instr) : wordLegal (encode i) = true := by
  have h : opcAssigned (encode i) = true := by
    have := opcField_encode i
    unfold opcField at this
    unfold opcAssigned
    rw [this]; cases i <;> rfl
  simp [wordLegal, h]

end Sys2Proof
end

