-- ==== Sys2Proof/Laws/Memory.lean ====
section
/-! SUPPORT. Laws/Memory.lean: the laws of the buffers: a read after a write, and the canonical form. -/

namespace Sys2Proof.Machine

theorem Memory.read_write (m : Memory) (a k : Nat) (b : Byte) :
    (m.write a b).read k = if k = a then some b else m.read k := by
  induction m with
  | nil => simp only [Memory.write, Memory.read]; split <;> split <;> simp_all
  | cons c m ih =>
    obtain ⟨j, d⟩ := c
    simp only [Memory.write]
    split
    · simp only [Memory.read]; grind
    · split
      · simp only [Memory.read]; grind
      · simp only [Memory.read, ih]; grind

/-- A byte of a run of bytes written from a on is the byte at its place in the run; every other byte is as before. -/
theorem Memory.read_writeBytes (bs : List Byte) (m : Memory) (a k : Nat) :
    (m.writeBytes a bs).read k = if a ≤ k ∧ k < a + bs.length then bs[k - a]? else m.read k := by
  induction bs generalizing m a with
  | nil => simp [Memory.writeBytes]
  | cons b bs ih =>
    simp only [Memory.writeBytes, ih, Memory.read_write, List.length_cons]
    by_cases h : k = a
    · subst h; simp
    · by_cases h2 : a ≤ k
      · have : k - a = (k - (a + 1)) + 1 := by omega
        have e : (a + 1 ≤ k ∧ k < a + 1 + bs.length) ↔ (a ≤ k ∧ k < a + (bs.length + 1)) := by omega
        simp only [h, if_false, this, List.getElem?_cons_succ, e]
      · have e : ¬ (a + 1 ≤ k ∧ k < a + 1 + bs.length) := by omega
        have e' : ¬ (a ≤ k ∧ k < a + (bs.length + 1)) := by omega
        rw [if_neg e, if_neg e', if_neg h]

theorem Memory.mem_write {m : Memory} {a : Nat} {b : Byte} {p : Host.Cell} (h : p ∈ m.write a b) :
    p = (a, b) ∨ p ∈ m := by
  induction m with
  | nil => simpa [Memory.write] using h
  | cons c m ih =>
    obtain ⟨j, d⟩ := c
    simp only [Memory.write] at h
    split at h
    · simpa using h
    · split at h
      · simp only [List.mem_cons] at h ⊢; tauto
      · simp only [List.mem_cons] at h ⊢
        rcases h with h | h
        · tauto
        · have := ih h; tauto

theorem Memory.mem_writeBytes {bs : List Byte} {m : Memory} {a : Nat} {p : Host.Cell}
    (h : p ∈ m.writeBytes a bs) : (a ≤ p.1 ∧ p.1 < a + bs.length) ∨ p ∈ m := by
  induction bs generalizing m a with
  | nil => exact .inr h
  | cons b bs ih =>
    rcases ih h with h | h
    · left; simp only [List.length_cons]; omega
    · rcases Memory.mem_write h with rfl | h
      · left; simp
      · exact .inr h

theorem Memory.wf_write {m : Memory} (h : m.wf) (a : Nat) (b : Byte) : (m.write a b).wf := by
  induction m with
  | nil => simp [Memory.wf, Memory.write]
  | cons c m ih =>
    obtain ⟨j, d⟩ := c
    obtain ⟨h1, h2⟩ := List.pairwise_cons.1 h
    simp only [Memory.write]
    split
    · refine List.pairwise_cons.2 ⟨fun p hp => ?_, h⟩
      rcases List.mem_cons.1 hp with rfl | hp
      · assumption
      · have := h1 p hp; simp only at this ⊢; omega
    · split
      · subst_vars; exact List.pairwise_cons.2 ⟨h1, h2⟩
      · refine List.pairwise_cons.2 ⟨fun p hp => ?_, ih h2⟩
        rcases Memory.mem_write hp with rfl | hp
        · simp only; omega
        · exact h1 p hp

theorem Memory.wf_writeBytes {m : Memory} (h : m.wf) (a : Nat) (bs : List Byte) : (m.writeBytes a bs).wf := by
  induction bs generalizing m a with
  | nil => exact h
  | cons b bs ih => exact ih (Memory.wf_write h a b) (a + 1)

theorem foldl_wf (ws : List PostedWrite) {m : Memory} (h : m.wf) :
    (ws.foldl (fun m w => m.writeBytes w.off w.bytes) m).wf := by
  induction ws generalizing m with
  | nil => exact h
  | cons w ws ih => exact ih (Memory.wf_writeBytes h _ _)

/-- Every memory operation of the block keeps the canonical form. -/
theorem hostMemory_wf {s : State} (h : s.mem.wf) : (hostMemory s).wf := foldl_wf _ h

theorem drainOne_wf {s : State} (h : s.mem.wf) : (drainOne s).mem.wf := by
  unfold drainOne; split
  · exact h
  · exact Memory.wf_writeBytes h _ _

theorem drainAll_wf {s : State} (h : s.mem.wf) : (drainAll s).mem.wf := hostMemory_wf h

theorem finish_wf {s : State} (h : s.mem.wf) : (finish s).mem.wf := hostMemory_wf (s := { s with run := false, stage := .begin }) h

theorem hostStore_wf {s : State} (h : s.mem.wf) (a : Nat) (bs : List Byte) : (hostStore a bs s).mem.wf := by
  unfold hostStore; split
  · exact h
  · exact Memory.wf_writeBytes (hostMemory_wf h) _ _

/-- The memory of the state after reset lists nothing. -/
theorem reset_wf : State.reset.mem.wf := List.Pairwise.nil

theorem foldl_mem {ws : List PostedWrite} {m : Memory} {p : Host.Cell}
    (h : p ∈ ws.foldl (fun m w => m.writeBytes w.off w.bytes) m) :
    (∃ w ∈ ws, w.off ≤ p.1 ∧ p.1 < w.off + w.bytes.length) ∨ p ∈ m := by
  induction ws generalizing m with
  | nil => exact .inr h
  | cons w ws ih =>
    rcases ih h with ⟨v, hv, h⟩ | h
    · exact .inl ⟨v, List.mem_cons_of_mem _ hv, h⟩
    · rcases Memory.mem_writeBytes h with h | h
      · exact .inl ⟨w, by simp, h⟩
      · exact .inr h

/-- What the host sees after its own write: its bytes, and every other byte as before, whether or not the write races
with an operation. -/
theorem hostByte_hostStore (s : State) (a k : Nat) (bs : List Byte) :
    hostByte (hostStore a bs s) k = if a ≤ k ∧ k < a + bs.length then bs[k - a]? else hostByte s k := by
  unfold hostStore hostByte hostMemory
  split
  · simp only [List.foldl_append, List.foldl_cons, List.foldl_nil, Memory.read_writeBytes]
  · simp only [List.foldl_nil, Memory.read_writeBytes]

@[simp] theorem hostMemory_drainOne (s : State) : hostMemory (drainOne s) = hostMemory s := by
  unfold drainOne hostMemory; split <;> simp_all

@[simp] theorem hostMemory_drainAll (s : State) : hostMemory (drainAll s) = hostMemory s := rfl

@[simp] theorem hostMemory_finish (s : State) : hostMemory (finish s) = hostMemory s := rfl

theorem hostMemory_of_no_posted {s : State} (h : s.posted = []) : hostMemory s = s.mem := by
  simp [hostMemory, h]

/-- The host's view of memory depends on mem and posted alone. -/
theorem hostMemory_congr {s t : State} (h : t.mem = s.mem) (h' : t.posted = s.posted) :
    hostMemory t = hostMemory s := by simp [hostMemory, h, h']

end Sys2Proof.Machine
end

