-- ==== Sys2Proof/Laws/State.lean ====
section
/-! SUPPORT. Laws/State.lean: one lemma per field per update, so that no later proof unfolds a record update. -/

namespace Sys2Proof.Machine

/-! ## raise -/

@[simp] theorem raise_cur (e : ErrorFlag) (s : State) : (raise e s).cur = s.cur := by cases e <;> rfl
@[simp] theorem raise_run (e : ErrorFlag) (s : State) : (raise e s).run = s.run := by cases e <;> rfl
@[simp] theorem raise_tc (e : ErrorFlag) (s : State) : (raise e s).tc = s.tc := by cases e <;> rfl
@[simp] theorem raise_initd (e : ErrorFlag) (s : State) : (raise e s).initd = s.initd := by cases e <;> rfl
@[simp] theorem raise_pinDc (e : ErrorFlag) (s : State) : (raise e s).pinDc = s.pinDc := by cases e <;> rfl
@[simp] theorem raise_pinRst (e : ErrorFlag) (s : State) : (raise e s).pinRst = s.pinRst := by cases e <;> rfl
@[simp] theorem raise_pinCs (e : ErrorFlag) (s : State) : (raise e s).pinCs = s.pinCs := by cases e <;> rfl
@[simp] theorem raise_pinSck (e : ErrorFlag) (s : State) : (raise e s).pinSck = s.pinSck := by cases e <;> rfl
@[simp] theorem raise_pinMosi (e : ErrorFlag) (s : State) : (raise e s).pinMosi = s.pinMosi := by cases e <;> rfl
@[simp] theorem raise_cfg (e : ErrorFlag) (s : State) : (raise e s).cfg = s.cfg := by cases e <;> rfl
@[simp] theorem raise_mem (e : ErrorFlag) (s : State) : (raise e s).mem = s.mem := by cases e <;> rfl
@[simp] theorem raise_pos (e : ErrorFlag) (s : State) : (raise e s).pos = s.pos := by cases e <;> rfl
@[simp] theorem raise_stage (e : ErrorFlag) (s : State) : (raise e s).stage = s.stage := by cases e <;> rfl
@[simp] theorem raise_dly (e : ErrorFlag) (s : State) : (raise e s).dly = s.dly := by cases e <;> rfl
@[simp] theorem raise_pg (e : ErrorFlag) (s : State) : (raise e s).pg = s.pg := by cases e <;> rfl
@[simp] theorem raise_cx (e : ErrorFlag) (s : State) : (raise e s).cx = s.cx := by cases e <;> rfl
@[simp] theorem raise_bi (e : ErrorFlag) (s : State) : (raise e s).bi = s.bi := by cases e <;> rfl
@[simp] theorem raise_ci (e : ErrorFlag) (s : State) : (raise e s).ci = s.ci := by cases e <;> rfl
@[simp] theorem raise_cc (e : ErrorFlag) (s : State) : (raise e s).cc = s.cc := by cases e <;> rfl
@[simp] theorem raise_gk (e : ErrorFlag) (s : State) : (raise e s).gk = s.gk := by cases e <;> rfl
@[simp] theorem raise_ch (e : ErrorFlag) (s : State) : (raise e s).ch = s.ch := by cases e <;> rfl
@[simp] theorem raise_dr (e : ErrorFlag) (s : State) : (raise e s).dr = s.dr := by cases e <;> rfl
@[simp] theorem raise_shift (e : ErrorFlag) (s : State) : (raise e s).shift = s.shift := by cases e <;> rfl
@[simp] theorem raise_bitcnt (e : ErrorFlag) (s : State) : (raise e s).bitcnt = s.bitcnt := by cases e <;> rfl
@[simp] theorem raise_resetN (e : ErrorFlag) (s : State) : (raise e s).resetN = s.resetN := by cases e <;> rfl
@[simp] theorem raise_turns (e : ErrorFlag) (s : State) : (raise e s).turns = s.turns := by cases e <;> rfl
@[simp] theorem raise_posted (e : ErrorFlag) (s : State) : (raise e s).posted = s.posted := by cases e <;> rfl
@[simp] theorem raise_trace (e : ErrorFlag) (s : State) : (raise e s).trace = s.trace := by cases e <;> rfl
@[simp] theorem raise_reads (e : ErrorFlag) (s : State) : (raise e s).reads = s.reads := by cases e <;> rfl
@[simp] theorem raise_draws (e : ErrorFlag) (s : State) : (raise e s).draws = s.draws := by cases e <;> rfl

/-! ## clearErrors -/

@[simp] theorem clearErrors_cur (v : Word) (s : State) : (clearErrors v s).cur = s.cur := rfl
@[simp] theorem clearErrors_run (v : Word) (s : State) : (clearErrors v s).run = s.run := rfl
@[simp] theorem clearErrors_tc (v : Word) (s : State) : (clearErrors v s).tc = s.tc := rfl
@[simp] theorem clearErrors_initd (v : Word) (s : State) : (clearErrors v s).initd = s.initd := rfl
@[simp] theorem clearErrors_errIllegal (v : Word) (s : State) : (clearErrors v s).errIllegal = (s.errIllegal && !v.getLsbD 8) := rfl
@[simp] theorem clearErrors_errBusy (v : Word) (s : State) : (clearErrors v s).errBusy = (s.errBusy && !v.getLsbD 9) := rfl
@[simp] theorem clearErrors_errNotcfg (v : Word) (s : State) : (clearErrors v s).errNotcfg = (s.errNotcfg && !v.getLsbD 10) := rfl
@[simp] theorem clearErrors_pinDc (v : Word) (s : State) : (clearErrors v s).pinDc = s.pinDc := rfl
@[simp] theorem clearErrors_pinRst (v : Word) (s : State) : (clearErrors v s).pinRst = s.pinRst := rfl
@[simp] theorem clearErrors_pinCs (v : Word) (s : State) : (clearErrors v s).pinCs = s.pinCs := rfl
@[simp] theorem clearErrors_pinSck (v : Word) (s : State) : (clearErrors v s).pinSck = s.pinSck := rfl
@[simp] theorem clearErrors_pinMosi (v : Word) (s : State) : (clearErrors v s).pinMosi = s.pinMosi := rfl
@[simp] theorem clearErrors_cfg (v : Word) (s : State) : (clearErrors v s).cfg = s.cfg := rfl
@[simp] theorem clearErrors_mem (v : Word) (s : State) : (clearErrors v s).mem = s.mem := rfl
@[simp] theorem clearErrors_pos (v : Word) (s : State) : (clearErrors v s).pos = s.pos := rfl
@[simp] theorem clearErrors_stage (v : Word) (s : State) : (clearErrors v s).stage = s.stage := rfl
@[simp] theorem clearErrors_dly (v : Word) (s : State) : (clearErrors v s).dly = s.dly := rfl
@[simp] theorem clearErrors_pg (v : Word) (s : State) : (clearErrors v s).pg = s.pg := rfl
@[simp] theorem clearErrors_cx (v : Word) (s : State) : (clearErrors v s).cx = s.cx := rfl
@[simp] theorem clearErrors_bi (v : Word) (s : State) : (clearErrors v s).bi = s.bi := rfl
@[simp] theorem clearErrors_ci (v : Word) (s : State) : (clearErrors v s).ci = s.ci := rfl
@[simp] theorem clearErrors_cc (v : Word) (s : State) : (clearErrors v s).cc = s.cc := rfl
@[simp] theorem clearErrors_gk (v : Word) (s : State) : (clearErrors v s).gk = s.gk := rfl
@[simp] theorem clearErrors_ch (v : Word) (s : State) : (clearErrors v s).ch = s.ch := rfl
@[simp] theorem clearErrors_dr (v : Word) (s : State) : (clearErrors v s).dr = s.dr := rfl
@[simp] theorem clearErrors_shift (v : Word) (s : State) : (clearErrors v s).shift = s.shift := rfl
@[simp] theorem clearErrors_bitcnt (v : Word) (s : State) : (clearErrors v s).bitcnt = s.bitcnt := rfl
@[simp] theorem clearErrors_resetN (v : Word) (s : State) : (clearErrors v s).resetN = s.resetN := rfl
@[simp] theorem clearErrors_turns (v : Word) (s : State) : (clearErrors v s).turns = s.turns := rfl
@[simp] theorem clearErrors_posted (v : Word) (s : State) : (clearErrors v s).posted = s.posted := rfl
@[simp] theorem clearErrors_trace (v : Word) (s : State) : (clearErrors v s).trace = s.trace := rfl
@[simp] theorem clearErrors_reads (v : Word) (s : State) : (clearErrors v s).reads = s.reads := rfl
@[simp] theorem clearErrors_draws (v : Word) (s : State) : (clearErrors v s).draws = s.draws := rfl

/-! ## accept -/

@[simp] theorem accept_cur (v : Word) (p : Place) (s : State) : (accept v p s).cur = (v) := rfl
@[simp] theorem accept_run (v : Word) (p : Place) (s : State) : (accept v p s).run = (true) := rfl
@[simp] theorem accept_tc (v : Word) (p : Place) (s : State) : (accept v p s).tc = s.tc := rfl
@[simp] theorem accept_initd (v : Word) (p : Place) (s : State) : (accept v p s).initd = s.initd := rfl
@[simp] theorem accept_errIllegal (v : Word) (p : Place) (s : State) : (accept v p s).errIllegal = s.errIllegal := rfl
@[simp] theorem accept_errBusy (v : Word) (p : Place) (s : State) : (accept v p s).errBusy = s.errBusy := rfl
@[simp] theorem accept_errNotcfg (v : Word) (p : Place) (s : State) : (accept v p s).errNotcfg = s.errNotcfg := rfl
@[simp] theorem accept_pinDc (v : Word) (p : Place) (s : State) : (accept v p s).pinDc = s.pinDc := rfl
@[simp] theorem accept_pinRst (v : Word) (p : Place) (s : State) : (accept v p s).pinRst = s.pinRst := rfl
@[simp] theorem accept_pinCs (v : Word) (p : Place) (s : State) : (accept v p s).pinCs = s.pinCs := rfl
@[simp] theorem accept_pinSck (v : Word) (p : Place) (s : State) : (accept v p s).pinSck = s.pinSck := rfl
@[simp] theorem accept_pinMosi (v : Word) (p : Place) (s : State) : (accept v p s).pinMosi = s.pinMosi := rfl
@[simp] theorem accept_cfg (v : Word) (p : Place) (s : State) : (accept v p s).cfg = s.cfg := rfl
@[simp] theorem accept_mem (v : Word) (p : Place) (s : State) : (accept v p s).mem = s.mem := rfl
@[simp] theorem accept_pos (v : Word) (p : Place) (s : State) : (accept v p s).pos = (p) := rfl
@[simp] theorem accept_stage (v : Word) (p : Place) (s : State) : (accept v p s).stage = (.begin) := rfl
@[simp] theorem accept_dly (v : Word) (p : Place) (s : State) : (accept v p s).dly = s.dly := rfl
@[simp] theorem accept_pg (v : Word) (p : Place) (s : State) : (accept v p s).pg = s.pg := rfl
@[simp] theorem accept_cx (v : Word) (p : Place) (s : State) : (accept v p s).cx = s.cx := rfl
@[simp] theorem accept_bi (v : Word) (p : Place) (s : State) : (accept v p s).bi = s.bi := rfl
@[simp] theorem accept_ci (v : Word) (p : Place) (s : State) : (accept v p s).ci = s.ci := rfl
@[simp] theorem accept_cc (v : Word) (p : Place) (s : State) : (accept v p s).cc = s.cc := rfl
@[simp] theorem accept_gk (v : Word) (p : Place) (s : State) : (accept v p s).gk = s.gk := rfl
@[simp] theorem accept_ch (v : Word) (p : Place) (s : State) : (accept v p s).ch = s.ch := rfl
@[simp] theorem accept_dr (v : Word) (p : Place) (s : State) : (accept v p s).dr = s.dr := rfl
@[simp] theorem accept_shift (v : Word) (p : Place) (s : State) : (accept v p s).shift = s.shift := rfl
@[simp] theorem accept_bitcnt (v : Word) (p : Place) (s : State) : (accept v p s).bitcnt = s.bitcnt := rfl
@[simp] theorem accept_resetN (v : Word) (p : Place) (s : State) : (accept v p s).resetN = s.resetN := rfl
@[simp] theorem accept_turns (v : Word) (p : Place) (s : State) : (accept v p s).turns = s.turns := rfl
@[simp] theorem accept_posted (v : Word) (p : Place) (s : State) : (accept v p s).posted = s.posted := rfl
@[simp] theorem accept_trace (v : Word) (p : Place) (s : State) : (accept v p s).trace = s.trace := rfl
@[simp] theorem accept_reads (v : Word) (p : Place) (s : State) : (accept v p s).reads = s.reads := rfl
@[simp] theorem accept_draws (v : Word) (p : Place) (s : State) : (accept v p s).draws = s.draws := rfl

/-! ## acceptPages -/

@[simp] theorem acceptPages_cur (v : Word) (s : State) : (acceptPages v s).cur = (v) := rfl
@[simp] theorem acceptPages_run (v : Word) (s : State) : (acceptPages v s).run = (true) := rfl
@[simp] theorem acceptPages_tc (v : Word) (s : State) : (acceptPages v s).tc = s.tc := rfl
@[simp] theorem acceptPages_initd (v : Word) (s : State) : (acceptPages v s).initd = s.initd := rfl
@[simp] theorem acceptPages_errIllegal (v : Word) (s : State) : (acceptPages v s).errIllegal = s.errIllegal := rfl
@[simp] theorem acceptPages_errBusy (v : Word) (s : State) : (acceptPages v s).errBusy = s.errBusy := rfl
@[simp] theorem acceptPages_errNotcfg (v : Word) (s : State) : (acceptPages v s).errNotcfg = s.errNotcfg := rfl
@[simp] theorem acceptPages_pinDc (v : Word) (s : State) : (acceptPages v s).pinDc = s.pinDc := rfl
@[simp] theorem acceptPages_pinRst (v : Word) (s : State) : (acceptPages v s).pinRst = s.pinRst := rfl
@[simp] theorem acceptPages_pinCs (v : Word) (s : State) : (acceptPages v s).pinCs = s.pinCs := rfl
@[simp] theorem acceptPages_pinSck (v : Word) (s : State) : (acceptPages v s).pinSck = s.pinSck := rfl
@[simp] theorem acceptPages_pinMosi (v : Word) (s : State) : (acceptPages v s).pinMosi = s.pinMosi := rfl
@[simp] theorem acceptPages_cfg (v : Word) (s : State) : (acceptPages v s).cfg = s.cfg := rfl
@[simp] theorem acceptPages_mem (v : Word) (s : State) : (acceptPages v s).mem = s.mem := rfl
@[simp] theorem acceptPages_pos (v : Word) (s : State) : (acceptPages v s).pos = (.pageSelect) := rfl
@[simp] theorem acceptPages_stage (v : Word) (s : State) : (acceptPages v s).stage = (.begin) := rfl
@[simp] theorem acceptPages_dly (v : Word) (s : State) : (acceptPages v s).dly = s.dly := rfl
@[simp] theorem acceptPages_pg (v : Word) (s : State) : (acceptPages v s).pg = (0#3) := rfl
@[simp] theorem acceptPages_cx (v : Word) (s : State) : (acceptPages v s).cx = s.cx := rfl
@[simp] theorem acceptPages_bi (v : Word) (s : State) : (acceptPages v s).bi = s.bi := rfl
@[simp] theorem acceptPages_ci (v : Word) (s : State) : (acceptPages v s).ci = s.ci := rfl
@[simp] theorem acceptPages_cc (v : Word) (s : State) : (acceptPages v s).cc = s.cc := rfl
@[simp] theorem acceptPages_gk (v : Word) (s : State) : (acceptPages v s).gk = s.gk := rfl
@[simp] theorem acceptPages_ch (v : Word) (s : State) : (acceptPages v s).ch = s.ch := rfl
@[simp] theorem acceptPages_dr (v : Word) (s : State) : (acceptPages v s).dr = s.dr := rfl
@[simp] theorem acceptPages_shift (v : Word) (s : State) : (acceptPages v s).shift = s.shift := rfl
@[simp] theorem acceptPages_bitcnt (v : Word) (s : State) : (acceptPages v s).bitcnt = s.bitcnt := rfl
@[simp] theorem acceptPages_resetN (v : Word) (s : State) : (acceptPages v s).resetN = s.resetN := rfl
@[simp] theorem acceptPages_turns (v : Word) (s : State) : (acceptPages v s).turns = s.turns := rfl
@[simp] theorem acceptPages_posted (v : Word) (s : State) : (acceptPages v s).posted = s.posted := rfl
@[simp] theorem acceptPages_trace (v : Word) (s : State) : (acceptPages v s).trace = s.trace := rfl
@[simp] theorem acceptPages_reads (v : Word) (s : State) : (acceptPages v s).reads = s.reads := rfl
@[simp] theorem acceptPages_draws (v : Word) (s : State) : (acceptPages v s).draws = s.draws := rfl

/-! ## drainAll -/

@[simp] theorem drainAll_cur (s : State) : (drainAll s).cur = s.cur := rfl
@[simp] theorem drainAll_run (s : State) : (drainAll s).run = s.run := rfl
@[simp] theorem drainAll_tc (s : State) : (drainAll s).tc = s.tc := rfl
@[simp] theorem drainAll_initd (s : State) : (drainAll s).initd = s.initd := rfl
@[simp] theorem drainAll_errIllegal (s : State) : (drainAll s).errIllegal = s.errIllegal := rfl
@[simp] theorem drainAll_errBusy (s : State) : (drainAll s).errBusy = s.errBusy := rfl
@[simp] theorem drainAll_errNotcfg (s : State) : (drainAll s).errNotcfg = s.errNotcfg := rfl
@[simp] theorem drainAll_pinDc (s : State) : (drainAll s).pinDc = s.pinDc := rfl
@[simp] theorem drainAll_pinRst (s : State) : (drainAll s).pinRst = s.pinRst := rfl
@[simp] theorem drainAll_pinCs (s : State) : (drainAll s).pinCs = s.pinCs := rfl
@[simp] theorem drainAll_pinSck (s : State) : (drainAll s).pinSck = s.pinSck := rfl
@[simp] theorem drainAll_pinMosi (s : State) : (drainAll s).pinMosi = s.pinMosi := rfl
@[simp] theorem drainAll_cfg (s : State) : (drainAll s).cfg = s.cfg := rfl
@[simp] theorem drainAll_mem (s : State) : (drainAll s).mem = (hostMemory s) := rfl
@[simp] theorem drainAll_pos (s : State) : (drainAll s).pos = s.pos := rfl
@[simp] theorem drainAll_stage (s : State) : (drainAll s).stage = s.stage := rfl
@[simp] theorem drainAll_dly (s : State) : (drainAll s).dly = s.dly := rfl
@[simp] theorem drainAll_pg (s : State) : (drainAll s).pg = s.pg := rfl
@[simp] theorem drainAll_cx (s : State) : (drainAll s).cx = s.cx := rfl
@[simp] theorem drainAll_bi (s : State) : (drainAll s).bi = s.bi := rfl
@[simp] theorem drainAll_ci (s : State) : (drainAll s).ci = s.ci := rfl
@[simp] theorem drainAll_cc (s : State) : (drainAll s).cc = s.cc := rfl
@[simp] theorem drainAll_gk (s : State) : (drainAll s).gk = s.gk := rfl
@[simp] theorem drainAll_ch (s : State) : (drainAll s).ch = s.ch := rfl
@[simp] theorem drainAll_dr (s : State) : (drainAll s).dr = s.dr := rfl
@[simp] theorem drainAll_shift (s : State) : (drainAll s).shift = s.shift := rfl
@[simp] theorem drainAll_bitcnt (s : State) : (drainAll s).bitcnt = s.bitcnt := rfl
@[simp] theorem drainAll_resetN (s : State) : (drainAll s).resetN = s.resetN := rfl
@[simp] theorem drainAll_turns (s : State) : (drainAll s).turns = s.turns := rfl
@[simp] theorem drainAll_posted (s : State) : (drainAll s).posted = ([]) := rfl
@[simp] theorem drainAll_trace (s : State) : (drainAll s).trace = s.trace := rfl
@[simp] theorem drainAll_reads (s : State) : (drainAll s).reads = s.reads := rfl
@[simp] theorem drainAll_draws (s : State) : (drainAll s).draws = s.draws := rfl

/-! ## finish -/

@[simp] theorem finish_cur (s : State) : (finish s).cur = s.cur := rfl
@[simp] theorem finish_run (s : State) : (finish s).run = (false) := rfl
@[simp] theorem finish_tc (s : State) : (finish s).tc = s.tc := rfl
@[simp] theorem finish_initd (s : State) : (finish s).initd = s.initd := rfl
@[simp] theorem finish_errIllegal (s : State) : (finish s).errIllegal = s.errIllegal := rfl
@[simp] theorem finish_errBusy (s : State) : (finish s).errBusy = s.errBusy := rfl
@[simp] theorem finish_errNotcfg (s : State) : (finish s).errNotcfg = s.errNotcfg := rfl
@[simp] theorem finish_pinDc (s : State) : (finish s).pinDc = s.pinDc := rfl
@[simp] theorem finish_pinRst (s : State) : (finish s).pinRst = s.pinRst := rfl
@[simp] theorem finish_pinCs (s : State) : (finish s).pinCs = s.pinCs := rfl
@[simp] theorem finish_pinSck (s : State) : (finish s).pinSck = s.pinSck := rfl
@[simp] theorem finish_pinMosi (s : State) : (finish s).pinMosi = s.pinMosi := rfl
@[simp] theorem finish_cfg (s : State) : (finish s).cfg = s.cfg := rfl
@[simp] theorem finish_mem (s : State) : (finish s).mem = (hostMemory s) := rfl
@[simp] theorem finish_pos (s : State) : (finish s).pos = s.pos := rfl
@[simp] theorem finish_stage (s : State) : (finish s).stage = (.begin) := rfl
@[simp] theorem finish_dly (s : State) : (finish s).dly = s.dly := rfl
@[simp] theorem finish_pg (s : State) : (finish s).pg = s.pg := rfl
@[simp] theorem finish_cx (s : State) : (finish s).cx = s.cx := rfl
@[simp] theorem finish_bi (s : State) : (finish s).bi = s.bi := rfl
@[simp] theorem finish_ci (s : State) : (finish s).ci = s.ci := rfl
@[simp] theorem finish_cc (s : State) : (finish s).cc = s.cc := rfl
@[simp] theorem finish_gk (s : State) : (finish s).gk = s.gk := rfl
@[simp] theorem finish_ch (s : State) : (finish s).ch = s.ch := rfl
@[simp] theorem finish_dr (s : State) : (finish s).dr = s.dr := rfl
@[simp] theorem finish_shift (s : State) : (finish s).shift = s.shift := rfl
@[simp] theorem finish_bitcnt (s : State) : (finish s).bitcnt = s.bitcnt := rfl
@[simp] theorem finish_resetN (s : State) : (finish s).resetN = s.resetN := rfl
@[simp] theorem finish_turns (s : State) : (finish s).turns = s.turns := rfl
@[simp] theorem finish_posted (s : State) : (finish s).posted = ([]) := rfl
@[simp] theorem finish_trace (s : State) : (finish s).trace = s.trace := rfl
@[simp] theorem finish_reads (s : State) : (finish s).reads = s.reads := rfl
@[simp] theorem finish_draws (s : State) : (finish s).draws = s.draws := rfl

/-! ## goTo -/

@[simp] theorem goTo_cur (p : Place) (s : State) : (goTo p s).cur = s.cur := rfl
@[simp] theorem goTo_run (p : Place) (s : State) : (goTo p s).run = s.run := rfl
@[simp] theorem goTo_tc (p : Place) (s : State) : (goTo p s).tc = s.tc := rfl
@[simp] theorem goTo_initd (p : Place) (s : State) : (goTo p s).initd = s.initd := rfl
@[simp] theorem goTo_errIllegal (p : Place) (s : State) : (goTo p s).errIllegal = s.errIllegal := rfl
@[simp] theorem goTo_errBusy (p : Place) (s : State) : (goTo p s).errBusy = s.errBusy := rfl
@[simp] theorem goTo_errNotcfg (p : Place) (s : State) : (goTo p s).errNotcfg = s.errNotcfg := rfl
@[simp] theorem goTo_pinDc (p : Place) (s : State) : (goTo p s).pinDc = s.pinDc := rfl
@[simp] theorem goTo_pinRst (p : Place) (s : State) : (goTo p s).pinRst = s.pinRst := rfl
@[simp] theorem goTo_pinCs (p : Place) (s : State) : (goTo p s).pinCs = s.pinCs := rfl
@[simp] theorem goTo_pinSck (p : Place) (s : State) : (goTo p s).pinSck = s.pinSck := rfl
@[simp] theorem goTo_pinMosi (p : Place) (s : State) : (goTo p s).pinMosi = s.pinMosi := rfl
@[simp] theorem goTo_cfg (p : Place) (s : State) : (goTo p s).cfg = s.cfg := rfl
@[simp] theorem goTo_mem (p : Place) (s : State) : (goTo p s).mem = s.mem := rfl
@[simp] theorem goTo_pos (p : Place) (s : State) : (goTo p s).pos = (p) := rfl
@[simp] theorem goTo_stage (p : Place) (s : State) : (goTo p s).stage = (.begin) := rfl
@[simp] theorem goTo_dly (p : Place) (s : State) : (goTo p s).dly = s.dly := rfl
@[simp] theorem goTo_pg (p : Place) (s : State) : (goTo p s).pg = s.pg := rfl
@[simp] theorem goTo_cx (p : Place) (s : State) : (goTo p s).cx = s.cx := rfl
@[simp] theorem goTo_bi (p : Place) (s : State) : (goTo p s).bi = s.bi := rfl
@[simp] theorem goTo_ci (p : Place) (s : State) : (goTo p s).ci = s.ci := rfl
@[simp] theorem goTo_cc (p : Place) (s : State) : (goTo p s).cc = s.cc := rfl
@[simp] theorem goTo_gk (p : Place) (s : State) : (goTo p s).gk = s.gk := rfl
@[simp] theorem goTo_ch (p : Place) (s : State) : (goTo p s).ch = s.ch := rfl
@[simp] theorem goTo_dr (p : Place) (s : State) : (goTo p s).dr = s.dr := rfl
@[simp] theorem goTo_shift (p : Place) (s : State) : (goTo p s).shift = s.shift := rfl
@[simp] theorem goTo_bitcnt (p : Place) (s : State) : (goTo p s).bitcnt = s.bitcnt := rfl
@[simp] theorem goTo_resetN (p : Place) (s : State) : (goTo p s).resetN = s.resetN := rfl
@[simp] theorem goTo_turns (p : Place) (s : State) : (goTo p s).turns = s.turns := rfl
@[simp] theorem goTo_posted (p : Place) (s : State) : (goTo p s).posted = s.posted := rfl
@[simp] theorem goTo_trace (p : Place) (s : State) : (goTo p s).trace = s.trace := rfl
@[simp] theorem goTo_reads (p : Place) (s : State) : (goTo p s).reads = s.reads := rfl
@[simp] theorem goTo_draws (p : Place) (s : State) : (goTo p s).draws = s.draws := rfl

/-! ## emit -/

@[simp] theorem emit_cur (e : Event) (s : State) : (emit e s).cur = s.cur := rfl
@[simp] theorem emit_run (e : Event) (s : State) : (emit e s).run = s.run := rfl
@[simp] theorem emit_tc (e : Event) (s : State) : (emit e s).tc = s.tc := rfl
@[simp] theorem emit_initd (e : Event) (s : State) : (emit e s).initd = s.initd := rfl
@[simp] theorem emit_errIllegal (e : Event) (s : State) : (emit e s).errIllegal = s.errIllegal := rfl
@[simp] theorem emit_errBusy (e : Event) (s : State) : (emit e s).errBusy = s.errBusy := rfl
@[simp] theorem emit_errNotcfg (e : Event) (s : State) : (emit e s).errNotcfg = s.errNotcfg := rfl
@[simp] theorem emit_pinDc (e : Event) (s : State) : (emit e s).pinDc = s.pinDc := rfl
@[simp] theorem emit_pinRst (e : Event) (s : State) : (emit e s).pinRst = s.pinRst := rfl
@[simp] theorem emit_pinCs (e : Event) (s : State) : (emit e s).pinCs = s.pinCs := rfl
@[simp] theorem emit_pinSck (e : Event) (s : State) : (emit e s).pinSck = s.pinSck := rfl
@[simp] theorem emit_pinMosi (e : Event) (s : State) : (emit e s).pinMosi = s.pinMosi := rfl
@[simp] theorem emit_cfg (e : Event) (s : State) : (emit e s).cfg = s.cfg := rfl
@[simp] theorem emit_mem (e : Event) (s : State) : (emit e s).mem = s.mem := rfl
@[simp] theorem emit_pos (e : Event) (s : State) : (emit e s).pos = s.pos := rfl
@[simp] theorem emit_stage (e : Event) (s : State) : (emit e s).stage = s.stage := rfl
@[simp] theorem emit_dly (e : Event) (s : State) : (emit e s).dly = s.dly := rfl
@[simp] theorem emit_pg (e : Event) (s : State) : (emit e s).pg = s.pg := rfl
@[simp] theorem emit_cx (e : Event) (s : State) : (emit e s).cx = s.cx := rfl
@[simp] theorem emit_bi (e : Event) (s : State) : (emit e s).bi = s.bi := rfl
@[simp] theorem emit_ci (e : Event) (s : State) : (emit e s).ci = s.ci := rfl
@[simp] theorem emit_cc (e : Event) (s : State) : (emit e s).cc = s.cc := rfl
@[simp] theorem emit_gk (e : Event) (s : State) : (emit e s).gk = s.gk := rfl
@[simp] theorem emit_ch (e : Event) (s : State) : (emit e s).ch = s.ch := rfl
@[simp] theorem emit_dr (e : Event) (s : State) : (emit e s).dr = s.dr := rfl
@[simp] theorem emit_shift (e : Event) (s : State) : (emit e s).shift = s.shift := rfl
@[simp] theorem emit_bitcnt (e : Event) (s : State) : (emit e s).bitcnt = s.bitcnt := rfl
@[simp] theorem emit_resetN (e : Event) (s : State) : (emit e s).resetN = s.resetN := rfl
@[simp] theorem emit_turns (e : Event) (s : State) : (emit e s).turns = s.turns := rfl
@[simp] theorem emit_posted (e : Event) (s : State) : (emit e s).posted = s.posted := rfl
@[simp] theorem emit_trace (e : Event) (s : State) : (emit e s).trace = (s.trace ++ [e]) := rfl
@[simp] theorem emit_reads (e : Event) (s : State) : (emit e s).reads = s.reads := rfl
@[simp] theorem emit_draws (e : Event) (s : State) : (emit e s).draws = s.draws := rfl

/-! ## drivePinRst -/

@[simp] theorem drivePinRst_cur (l : Bool) (s : State) : (drivePinRst l s).cur = s.cur := rfl
@[simp] theorem drivePinRst_run (l : Bool) (s : State) : (drivePinRst l s).run = s.run := rfl
@[simp] theorem drivePinRst_tc (l : Bool) (s : State) : (drivePinRst l s).tc = s.tc := rfl
@[simp] theorem drivePinRst_initd (l : Bool) (s : State) : (drivePinRst l s).initd = s.initd := rfl
@[simp] theorem drivePinRst_errIllegal (l : Bool) (s : State) : (drivePinRst l s).errIllegal = s.errIllegal := rfl
@[simp] theorem drivePinRst_errBusy (l : Bool) (s : State) : (drivePinRst l s).errBusy = s.errBusy := rfl
@[simp] theorem drivePinRst_errNotcfg (l : Bool) (s : State) : (drivePinRst l s).errNotcfg = s.errNotcfg := rfl
@[simp] theorem drivePinRst_pinDc (l : Bool) (s : State) : (drivePinRst l s).pinDc = s.pinDc := rfl
@[simp] theorem drivePinRst_pinRst (l : Bool) (s : State) : (drivePinRst l s).pinRst = (l) := rfl
@[simp] theorem drivePinRst_pinCs (l : Bool) (s : State) : (drivePinRst l s).pinCs = s.pinCs := rfl
@[simp] theorem drivePinRst_pinSck (l : Bool) (s : State) : (drivePinRst l s).pinSck = s.pinSck := rfl
@[simp] theorem drivePinRst_pinMosi (l : Bool) (s : State) : (drivePinRst l s).pinMosi = s.pinMosi := rfl
@[simp] theorem drivePinRst_cfg (l : Bool) (s : State) : (drivePinRst l s).cfg = s.cfg := rfl
@[simp] theorem drivePinRst_mem (l : Bool) (s : State) : (drivePinRst l s).mem = s.mem := rfl
@[simp] theorem drivePinRst_pos (l : Bool) (s : State) : (drivePinRst l s).pos = s.pos := rfl
@[simp] theorem drivePinRst_stage (l : Bool) (s : State) : (drivePinRst l s).stage = s.stage := rfl
@[simp] theorem drivePinRst_dly (l : Bool) (s : State) : (drivePinRst l s).dly = s.dly := rfl
@[simp] theorem drivePinRst_pg (l : Bool) (s : State) : (drivePinRst l s).pg = s.pg := rfl
@[simp] theorem drivePinRst_cx (l : Bool) (s : State) : (drivePinRst l s).cx = s.cx := rfl
@[simp] theorem drivePinRst_bi (l : Bool) (s : State) : (drivePinRst l s).bi = s.bi := rfl
@[simp] theorem drivePinRst_ci (l : Bool) (s : State) : (drivePinRst l s).ci = s.ci := rfl
@[simp] theorem drivePinRst_cc (l : Bool) (s : State) : (drivePinRst l s).cc = s.cc := rfl
@[simp] theorem drivePinRst_gk (l : Bool) (s : State) : (drivePinRst l s).gk = s.gk := rfl
@[simp] theorem drivePinRst_ch (l : Bool) (s : State) : (drivePinRst l s).ch = s.ch := rfl
@[simp] theorem drivePinRst_dr (l : Bool) (s : State) : (drivePinRst l s).dr = s.dr := rfl
@[simp] theorem drivePinRst_shift (l : Bool) (s : State) : (drivePinRst l s).shift = s.shift := rfl
@[simp] theorem drivePinRst_bitcnt (l : Bool) (s : State) : (drivePinRst l s).bitcnt = s.bitcnt := rfl
@[simp] theorem drivePinRst_resetN (l : Bool) (s : State) : (drivePinRst l s).resetN = s.resetN := rfl
@[simp] theorem drivePinRst_turns (l : Bool) (s : State) : (drivePinRst l s).turns = s.turns := rfl
@[simp] theorem drivePinRst_posted (l : Bool) (s : State) : (drivePinRst l s).posted = s.posted := rfl
@[simp] theorem drivePinRst_trace (l : Bool) (s : State) : (drivePinRst l s).trace = (s.trace ++ [.rst l]) := rfl
@[simp] theorem drivePinRst_reads (l : Bool) (s : State) : (drivePinRst l s).reads = s.reads := rfl
@[simp] theorem drivePinRst_draws (l : Bool) (s : State) : (drivePinRst l s).draws = s.draws := rfl

/-! ## configure -/

@[simp] theorem configure_cur (s : State) : (configure s).cur = s.cur := rfl
@[simp] theorem configure_run (s : State) : (configure s).run = s.run := rfl
@[simp] theorem configure_tc (s : State) : (configure s).tc = s.tc := rfl
@[simp] theorem configure_initd (s : State) : (configure s).initd = s.initd := rfl
@[simp] theorem configure_errIllegal (s : State) : (configure s).errIllegal = s.errIllegal := rfl
@[simp] theorem configure_errBusy (s : State) : (configure s).errBusy = s.errBusy := rfl
@[simp] theorem configure_errNotcfg (s : State) : (configure s).errNotcfg = s.errNotcfg := rfl
@[simp] theorem configure_pinDc (s : State) : (configure s).pinDc = s.pinDc := rfl
@[simp] theorem configure_pinRst (s : State) : (configure s).pinRst = s.pinRst := rfl
@[simp] theorem configure_pinCs (s : State) : (configure s).pinCs = (false) := rfl
@[simp] theorem configure_pinSck (s : State) : (configure s).pinSck = (configuredCfg.cpol) := rfl
@[simp] theorem configure_pinMosi (s : State) : (configure s).pinMosi = s.pinMosi := rfl
@[simp] theorem configure_cfg (s : State) : (configure s).cfg = (configuredCfg) := rfl
@[simp] theorem configure_mem (s : State) : (configure s).mem = s.mem := rfl
@[simp] theorem configure_pos (s : State) : (configure s).pos = s.pos := rfl
@[simp] theorem configure_stage (s : State) : (configure s).stage = s.stage := rfl
@[simp] theorem configure_dly (s : State) : (configure s).dly = s.dly := rfl
@[simp] theorem configure_pg (s : State) : (configure s).pg = s.pg := rfl
@[simp] theorem configure_cx (s : State) : (configure s).cx = s.cx := rfl
@[simp] theorem configure_bi (s : State) : (configure s).bi = s.bi := rfl
@[simp] theorem configure_ci (s : State) : (configure s).ci = s.ci := rfl
@[simp] theorem configure_cc (s : State) : (configure s).cc = s.cc := rfl
@[simp] theorem configure_gk (s : State) : (configure s).gk = s.gk := rfl
@[simp] theorem configure_ch (s : State) : (configure s).ch = s.ch := rfl
@[simp] theorem configure_dr (s : State) : (configure s).dr = s.dr := rfl
@[simp] theorem configure_shift (s : State) : (configure s).shift = s.shift := rfl
@[simp] theorem configure_bitcnt (s : State) : (configure s).bitcnt = s.bitcnt := rfl
@[simp] theorem configure_resetN (s : State) : (configure s).resetN = s.resetN := rfl
@[simp] theorem configure_turns (s : State) : (configure s).turns = s.turns := rfl
@[simp] theorem configure_posted (s : State) : (configure s).posted = s.posted := rfl
@[simp] theorem configure_trace (s : State) : (configure s).trace = (s.trace ++ [.cfg]) := rfl
@[simp] theorem configure_reads (s : State) : (configure s).reads = s.reads := rfl
@[simp] theorem configure_draws (s : State) : (configure s).draws = s.draws := rfl

/-! ## beginSend -/

@[simp] theorem beginSend_cur (dc : Bool) (b : Byte) (s : State) : (beginSend dc b s).cur = s.cur := rfl
@[simp] theorem beginSend_run (dc : Bool) (b : Byte) (s : State) : (beginSend dc b s).run = s.run := rfl
@[simp] theorem beginSend_tc (dc : Bool) (b : Byte) (s : State) : (beginSend dc b s).tc = s.tc := rfl
@[simp] theorem beginSend_initd (dc : Bool) (b : Byte) (s : State) : (beginSend dc b s).initd = s.initd := rfl
@[simp] theorem beginSend_errIllegal (dc : Bool) (b : Byte) (s : State) : (beginSend dc b s).errIllegal = s.errIllegal := rfl
@[simp] theorem beginSend_errBusy (dc : Bool) (b : Byte) (s : State) : (beginSend dc b s).errBusy = s.errBusy := rfl
@[simp] theorem beginSend_errNotcfg (dc : Bool) (b : Byte) (s : State) : (beginSend dc b s).errNotcfg = s.errNotcfg := rfl
@[simp] theorem beginSend_pinDc (dc : Bool) (b : Byte) (s : State) : (beginSend dc b s).pinDc = (dc) := rfl
@[simp] theorem beginSend_pinRst (dc : Bool) (b : Byte) (s : State) : (beginSend dc b s).pinRst = s.pinRst := rfl
@[simp] theorem beginSend_pinCs (dc : Bool) (b : Byte) (s : State) : (beginSend dc b s).pinCs = s.pinCs := rfl
@[simp] theorem beginSend_pinSck (dc : Bool) (b : Byte) (s : State) : (beginSend dc b s).pinSck = s.pinSck := rfl
@[simp] theorem beginSend_pinMosi (dc : Bool) (b : Byte) (s : State) : (beginSend dc b s).pinMosi = s.pinMosi := rfl
@[simp] theorem beginSend_cfg (dc : Bool) (b : Byte) (s : State) : (beginSend dc b s).cfg = s.cfg := rfl
@[simp] theorem beginSend_mem (dc : Bool) (b : Byte) (s : State) : (beginSend dc b s).mem = s.mem := rfl
@[simp] theorem beginSend_pos (dc : Bool) (b : Byte) (s : State) : (beginSend dc b s).pos = s.pos := rfl
@[simp] theorem beginSend_stage (dc : Bool) (b : Byte) (s : State) : (beginSend dc b s).stage = (.load b) := rfl
@[simp] theorem beginSend_dly (dc : Bool) (b : Byte) (s : State) : (beginSend dc b s).dly = s.dly := rfl
@[simp] theorem beginSend_pg (dc : Bool) (b : Byte) (s : State) : (beginSend dc b s).pg = s.pg := rfl
@[simp] theorem beginSend_cx (dc : Bool) (b : Byte) (s : State) : (beginSend dc b s).cx = s.cx := rfl
@[simp] theorem beginSend_bi (dc : Bool) (b : Byte) (s : State) : (beginSend dc b s).bi = s.bi := rfl
@[simp] theorem beginSend_ci (dc : Bool) (b : Byte) (s : State) : (beginSend dc b s).ci = s.ci := rfl
@[simp] theorem beginSend_cc (dc : Bool) (b : Byte) (s : State) : (beginSend dc b s).cc = s.cc := rfl
@[simp] theorem beginSend_gk (dc : Bool) (b : Byte) (s : State) : (beginSend dc b s).gk = s.gk := rfl
@[simp] theorem beginSend_ch (dc : Bool) (b : Byte) (s : State) : (beginSend dc b s).ch = s.ch := rfl
@[simp] theorem beginSend_dr (dc : Bool) (b : Byte) (s : State) : (beginSend dc b s).dr = s.dr := rfl
@[simp] theorem beginSend_shift (dc : Bool) (b : Byte) (s : State) : (beginSend dc b s).shift = s.shift := rfl
@[simp] theorem beginSend_bitcnt (dc : Bool) (b : Byte) (s : State) : (beginSend dc b s).bitcnt = s.bitcnt := rfl
@[simp] theorem beginSend_resetN (dc : Bool) (b : Byte) (s : State) : (beginSend dc b s).resetN = s.resetN := rfl
@[simp] theorem beginSend_turns (dc : Bool) (b : Byte) (s : State) : (beginSend dc b s).turns = s.turns := rfl
@[simp] theorem beginSend_posted (dc : Bool) (b : Byte) (s : State) : (beginSend dc b s).posted = s.posted := rfl
@[simp] theorem beginSend_trace (dc : Bool) (b : Byte) (s : State) : (beginSend dc b s).trace = s.trace := rfl
@[simp] theorem beginSend_reads (dc : Bool) (b : Byte) (s : State) : (beginSend dc b s).reads = s.reads := rfl
@[simp] theorem beginSend_draws (dc : Bool) (b : Byte) (s : State) : (beginSend dc b s).draws = s.draws := rfl

/-! ## loadByte -/

@[simp] theorem loadByte_cur (b : Byte) (s : State) : (loadByte b s).cur = s.cur := rfl
@[simp] theorem loadByte_run (b : Byte) (s : State) : (loadByte b s).run = s.run := rfl
@[simp] theorem loadByte_tc (b : Byte) (s : State) : (loadByte b s).tc = (false) := rfl
@[simp] theorem loadByte_initd (b : Byte) (s : State) : (loadByte b s).initd = s.initd := rfl
@[simp] theorem loadByte_errIllegal (b : Byte) (s : State) : (loadByte b s).errIllegal = s.errIllegal := rfl
@[simp] theorem loadByte_errBusy (b : Byte) (s : State) : (loadByte b s).errBusy = s.errBusy := rfl
@[simp] theorem loadByte_errNotcfg (b : Byte) (s : State) : (loadByte b s).errNotcfg = s.errNotcfg := rfl
@[simp] theorem loadByte_pinDc (b : Byte) (s : State) : (loadByte b s).pinDc = s.pinDc := rfl
@[simp] theorem loadByte_pinRst (b : Byte) (s : State) : (loadByte b s).pinRst = s.pinRst := rfl
@[simp] theorem loadByte_pinCs (b : Byte) (s : State) : (loadByte b s).pinCs = s.pinCs := rfl
@[simp] theorem loadByte_pinSck (b : Byte) (s : State) : (loadByte b s).pinSck = s.pinSck := rfl
@[simp] theorem loadByte_pinMosi (b : Byte) (s : State) : (loadByte b s).pinMosi = s.pinMosi := rfl
@[simp] theorem loadByte_cfg (b : Byte) (s : State) : (loadByte b s).cfg = s.cfg := rfl
@[simp] theorem loadByte_mem (b : Byte) (s : State) : (loadByte b s).mem = s.mem := rfl
@[simp] theorem loadByte_pos (b : Byte) (s : State) : (loadByte b s).pos = s.pos := rfl
@[simp] theorem loadByte_stage (b : Byte) (s : State) : (loadByte b s).stage = (.shift .setUp) := rfl
@[simp] theorem loadByte_dly (b : Byte) (s : State) : (loadByte b s).dly = s.dly := rfl
@[simp] theorem loadByte_pg (b : Byte) (s : State) : (loadByte b s).pg = s.pg := rfl
@[simp] theorem loadByte_cx (b : Byte) (s : State) : (loadByte b s).cx = s.cx := rfl
@[simp] theorem loadByte_bi (b : Byte) (s : State) : (loadByte b s).bi = s.bi := rfl
@[simp] theorem loadByte_ci (b : Byte) (s : State) : (loadByte b s).ci = s.ci := rfl
@[simp] theorem loadByte_cc (b : Byte) (s : State) : (loadByte b s).cc = s.cc := rfl
@[simp] theorem loadByte_gk (b : Byte) (s : State) : (loadByte b s).gk = s.gk := rfl
@[simp] theorem loadByte_ch (b : Byte) (s : State) : (loadByte b s).ch = s.ch := rfl
@[simp] theorem loadByte_dr (b : Byte) (s : State) : (loadByte b s).dr = (b) := rfl
@[simp] theorem loadByte_shift (b : Byte) (s : State) : (loadByte b s).shift = (b) := rfl
@[simp] theorem loadByte_bitcnt (b : Byte) (s : State) : (loadByte b s).bitcnt = (8#4) := rfl
@[simp] theorem loadByte_resetN (b : Byte) (s : State) : (loadByte b s).resetN = s.resetN := rfl
@[simp] theorem loadByte_turns (b : Byte) (s : State) : (loadByte b s).turns = s.turns := rfl
@[simp] theorem loadByte_posted (b : Byte) (s : State) : (loadByte b s).posted = s.posted := rfl
@[simp] theorem loadByte_trace (b : Byte) (s : State) : (loadByte b s).trace = s.trace := rfl
@[simp] theorem loadByte_reads (b : Byte) (s : State) : (loadByte b s).reads = s.reads := rfl
@[simp] theorem loadByte_draws (b : Byte) (s : State) : (loadByte b s).draws = s.draws := rfl

/-! ## bitSetUp -/

@[simp] theorem bitSetUp_cur (s : State) : (bitSetUp s).cur = s.cur := rfl
@[simp] theorem bitSetUp_run (s : State) : (bitSetUp s).run = s.run := rfl
@[simp] theorem bitSetUp_tc (s : State) : (bitSetUp s).tc = s.tc := rfl
@[simp] theorem bitSetUp_initd (s : State) : (bitSetUp s).initd = s.initd := rfl
@[simp] theorem bitSetUp_errIllegal (s : State) : (bitSetUp s).errIllegal = s.errIllegal := rfl
@[simp] theorem bitSetUp_errBusy (s : State) : (bitSetUp s).errBusy = s.errBusy := rfl
@[simp] theorem bitSetUp_errNotcfg (s : State) : (bitSetUp s).errNotcfg = s.errNotcfg := rfl
@[simp] theorem bitSetUp_pinDc (s : State) : (bitSetUp s).pinDc = s.pinDc := rfl
@[simp] theorem bitSetUp_pinRst (s : State) : (bitSetUp s).pinRst = s.pinRst := rfl
@[simp] theorem bitSetUp_pinCs (s : State) : (bitSetUp s).pinCs = s.pinCs := rfl
@[simp] theorem bitSetUp_pinSck (s : State) : (bitSetUp s).pinSck = s.pinSck := rfl
@[simp] theorem bitSetUp_pinMosi (s : State) : (bitSetUp s).pinMosi = (if s.cfg.cpha then s.pinMosi else s.shift.getLsbD 7) := rfl
@[simp] theorem bitSetUp_cfg (s : State) : (bitSetUp s).cfg = s.cfg := rfl
@[simp] theorem bitSetUp_mem (s : State) : (bitSetUp s).mem = s.mem := rfl
@[simp] theorem bitSetUp_pos (s : State) : (bitSetUp s).pos = s.pos := rfl
@[simp] theorem bitSetUp_stage (s : State) : (bitSetUp s).stage = (.shift .firstEdge) := rfl
@[simp] theorem bitSetUp_dly (s : State) : (bitSetUp s).dly = s.dly := rfl
@[simp] theorem bitSetUp_pg (s : State) : (bitSetUp s).pg = s.pg := rfl
@[simp] theorem bitSetUp_cx (s : State) : (bitSetUp s).cx = s.cx := rfl
@[simp] theorem bitSetUp_bi (s : State) : (bitSetUp s).bi = s.bi := rfl
@[simp] theorem bitSetUp_ci (s : State) : (bitSetUp s).ci = s.ci := rfl
@[simp] theorem bitSetUp_cc (s : State) : (bitSetUp s).cc = s.cc := rfl
@[simp] theorem bitSetUp_gk (s : State) : (bitSetUp s).gk = s.gk := rfl
@[simp] theorem bitSetUp_ch (s : State) : (bitSetUp s).ch = s.ch := rfl
@[simp] theorem bitSetUp_dr (s : State) : (bitSetUp s).dr = s.dr := rfl
@[simp] theorem bitSetUp_shift (s : State) : (bitSetUp s).shift = s.shift := rfl
@[simp] theorem bitSetUp_bitcnt (s : State) : (bitSetUp s).bitcnt = s.bitcnt := rfl
@[simp] theorem bitSetUp_resetN (s : State) : (bitSetUp s).resetN = s.resetN := rfl
@[simp] theorem bitSetUp_turns (s : State) : (bitSetUp s).turns = s.turns := rfl
@[simp] theorem bitSetUp_posted (s : State) : (bitSetUp s).posted = s.posted := rfl
@[simp] theorem bitSetUp_trace (s : State) : (bitSetUp s).trace = s.trace := rfl
@[simp] theorem bitSetUp_reads (s : State) : (bitSetUp s).reads = s.reads := rfl
@[simp] theorem bitSetUp_draws (s : State) : (bitSetUp s).draws = s.draws := rfl

/-! ## bitFirstEdge -/

@[simp] theorem bitFirstEdge_cur (s : State) : (bitFirstEdge s).cur = s.cur := rfl
@[simp] theorem bitFirstEdge_run (s : State) : (bitFirstEdge s).run = s.run := rfl
@[simp] theorem bitFirstEdge_tc (s : State) : (bitFirstEdge s).tc = s.tc := rfl
@[simp] theorem bitFirstEdge_initd (s : State) : (bitFirstEdge s).initd = s.initd := rfl
@[simp] theorem bitFirstEdge_errIllegal (s : State) : (bitFirstEdge s).errIllegal = s.errIllegal := rfl
@[simp] theorem bitFirstEdge_errBusy (s : State) : (bitFirstEdge s).errBusy = s.errBusy := rfl
@[simp] theorem bitFirstEdge_errNotcfg (s : State) : (bitFirstEdge s).errNotcfg = s.errNotcfg := rfl
@[simp] theorem bitFirstEdge_pinDc (s : State) : (bitFirstEdge s).pinDc = s.pinDc := rfl
@[simp] theorem bitFirstEdge_pinRst (s : State) : (bitFirstEdge s).pinRst = s.pinRst := rfl
@[simp] theorem bitFirstEdge_pinCs (s : State) : (bitFirstEdge s).pinCs = s.pinCs := rfl
@[simp] theorem bitFirstEdge_pinSck (s : State) : (bitFirstEdge s).pinSck = (!s.cfg.cpol) := rfl
@[simp] theorem bitFirstEdge_pinMosi (s : State) : (bitFirstEdge s).pinMosi = (if s.cfg.cpha then s.shift.getLsbD 7 else s.pinMosi) := rfl
@[simp] theorem bitFirstEdge_cfg (s : State) : (bitFirstEdge s).cfg = s.cfg := rfl
@[simp] theorem bitFirstEdge_mem (s : State) : (bitFirstEdge s).mem = s.mem := rfl
@[simp] theorem bitFirstEdge_pos (s : State) : (bitFirstEdge s).pos = s.pos := rfl
@[simp] theorem bitFirstEdge_stage (s : State) : (bitFirstEdge s).stage = (.shift .secondEdge) := rfl
@[simp] theorem bitFirstEdge_dly (s : State) : (bitFirstEdge s).dly = s.dly := rfl
@[simp] theorem bitFirstEdge_pg (s : State) : (bitFirstEdge s).pg = s.pg := rfl
@[simp] theorem bitFirstEdge_cx (s : State) : (bitFirstEdge s).cx = s.cx := rfl
@[simp] theorem bitFirstEdge_bi (s : State) : (bitFirstEdge s).bi = s.bi := rfl
@[simp] theorem bitFirstEdge_ci (s : State) : (bitFirstEdge s).ci = s.ci := rfl
@[simp] theorem bitFirstEdge_cc (s : State) : (bitFirstEdge s).cc = s.cc := rfl
@[simp] theorem bitFirstEdge_gk (s : State) : (bitFirstEdge s).gk = s.gk := rfl
@[simp] theorem bitFirstEdge_ch (s : State) : (bitFirstEdge s).ch = s.ch := rfl
@[simp] theorem bitFirstEdge_dr (s : State) : (bitFirstEdge s).dr = s.dr := rfl
@[simp] theorem bitFirstEdge_shift (s : State) : (bitFirstEdge s).shift = s.shift := rfl
@[simp] theorem bitFirstEdge_bitcnt (s : State) : (bitFirstEdge s).bitcnt = s.bitcnt := rfl
@[simp] theorem bitFirstEdge_resetN (s : State) : (bitFirstEdge s).resetN = s.resetN := rfl
@[simp] theorem bitFirstEdge_turns (s : State) : (bitFirstEdge s).turns = s.turns := rfl
@[simp] theorem bitFirstEdge_posted (s : State) : (bitFirstEdge s).posted = s.posted := rfl
@[simp] theorem bitFirstEdge_trace (s : State) : (bitFirstEdge s).trace = s.trace := rfl
@[simp] theorem bitFirstEdge_reads (s : State) : (bitFirstEdge s).reads = s.reads := rfl
@[simp] theorem bitFirstEdge_draws (s : State) : (bitFirstEdge s).draws = s.draws := rfl

/-! ## bitSecondEdge -/

@[simp] theorem bitSecondEdge_cur (s : State) : (bitSecondEdge s).cur = s.cur := by unfold bitSecondEdge; dsimp only; split <;> rfl
@[simp] theorem bitSecondEdge_run (s : State) : (bitSecondEdge s).run = s.run := by unfold bitSecondEdge; dsimp only; split <;> rfl
@[simp] theorem bitSecondEdge_initd (s : State) : (bitSecondEdge s).initd = s.initd := by unfold bitSecondEdge; dsimp only; split <;> rfl
@[simp] theorem bitSecondEdge_errIllegal (s : State) : (bitSecondEdge s).errIllegal = s.errIllegal := by unfold bitSecondEdge; dsimp only; split <;> rfl
@[simp] theorem bitSecondEdge_errBusy (s : State) : (bitSecondEdge s).errBusy = s.errBusy := by unfold bitSecondEdge; dsimp only; split <;> rfl
@[simp] theorem bitSecondEdge_errNotcfg (s : State) : (bitSecondEdge s).errNotcfg = s.errNotcfg := by unfold bitSecondEdge; dsimp only; split <;> rfl
@[simp] theorem bitSecondEdge_pinDc (s : State) : (bitSecondEdge s).pinDc = s.pinDc := by unfold bitSecondEdge; dsimp only; split <;> rfl
@[simp] theorem bitSecondEdge_pinRst (s : State) : (bitSecondEdge s).pinRst = s.pinRst := by unfold bitSecondEdge; dsimp only; split <;> rfl
@[simp] theorem bitSecondEdge_pinCs (s : State) : (bitSecondEdge s).pinCs = s.pinCs := by unfold bitSecondEdge; dsimp only; split <;> rfl
@[simp] theorem bitSecondEdge_pinSck (s : State) : (bitSecondEdge s).pinSck = (s.cfg.cpol) := by unfold bitSecondEdge; dsimp only; split <;> rfl
@[simp] theorem bitSecondEdge_pinMosi (s : State) : (bitSecondEdge s).pinMosi = s.pinMosi := by unfold bitSecondEdge; dsimp only; split <;> rfl
@[simp] theorem bitSecondEdge_cfg (s : State) : (bitSecondEdge s).cfg = s.cfg := by unfold bitSecondEdge; dsimp only; split <;> rfl
@[simp] theorem bitSecondEdge_mem (s : State) : (bitSecondEdge s).mem = s.mem := by unfold bitSecondEdge; dsimp only; split <;> rfl
@[simp] theorem bitSecondEdge_pos (s : State) : (bitSecondEdge s).pos = s.pos := by unfold bitSecondEdge; dsimp only; split <;> rfl
@[simp] theorem bitSecondEdge_dly (s : State) : (bitSecondEdge s).dly = s.dly := by unfold bitSecondEdge; dsimp only; split <;> rfl
@[simp] theorem bitSecondEdge_pg (s : State) : (bitSecondEdge s).pg = s.pg := by unfold bitSecondEdge; dsimp only; split <;> rfl
@[simp] theorem bitSecondEdge_cx (s : State) : (bitSecondEdge s).cx = s.cx := by unfold bitSecondEdge; dsimp only; split <;> rfl
@[simp] theorem bitSecondEdge_bi (s : State) : (bitSecondEdge s).bi = s.bi := by unfold bitSecondEdge; dsimp only; split <;> rfl
@[simp] theorem bitSecondEdge_ci (s : State) : (bitSecondEdge s).ci = s.ci := by unfold bitSecondEdge; dsimp only; split <;> rfl
@[simp] theorem bitSecondEdge_cc (s : State) : (bitSecondEdge s).cc = s.cc := by unfold bitSecondEdge; dsimp only; split <;> rfl
@[simp] theorem bitSecondEdge_gk (s : State) : (bitSecondEdge s).gk = s.gk := by unfold bitSecondEdge; dsimp only; split <;> rfl
@[simp] theorem bitSecondEdge_ch (s : State) : (bitSecondEdge s).ch = s.ch := by unfold bitSecondEdge; dsimp only; split <;> rfl
@[simp] theorem bitSecondEdge_dr (s : State) : (bitSecondEdge s).dr = s.dr := by unfold bitSecondEdge; dsimp only; split <;> rfl
@[simp] theorem bitSecondEdge_shift (s : State) : (bitSecondEdge s).shift = (shiftOut s.trace.length s.bitcnt s.shift) := by unfold bitSecondEdge; dsimp only; split <;> rfl
@[simp] theorem bitSecondEdge_resetN (s : State) : (bitSecondEdge s).resetN = s.resetN := by unfold bitSecondEdge; dsimp only; split <;> rfl
@[simp] theorem bitSecondEdge_turns (s : State) : (bitSecondEdge s).turns = s.turns := by unfold bitSecondEdge; dsimp only; split <;> rfl
@[simp] theorem bitSecondEdge_posted (s : State) : (bitSecondEdge s).posted = s.posted := by unfold bitSecondEdge; dsimp only; split <;> rfl
@[simp] theorem bitSecondEdge_reads (s : State) : (bitSecondEdge s).reads = s.reads := by unfold bitSecondEdge; dsimp only; split <;> rfl
@[simp] theorem bitSecondEdge_draws (s : State) : (bitSecondEdge s).draws = s.draws := by unfold bitSecondEdge; dsimp only; split <;> rfl

/-! ## drainOne -/

@[simp] theorem drainOne_cur (s : State) : (drainOne s).cur = s.cur := by unfold drainOne; split <;> rfl
@[simp] theorem drainOne_run (s : State) : (drainOne s).run = s.run := by unfold drainOne; split <;> rfl
@[simp] theorem drainOne_tc (s : State) : (drainOne s).tc = s.tc := by unfold drainOne; split <;> rfl
@[simp] theorem drainOne_initd (s : State) : (drainOne s).initd = s.initd := by unfold drainOne; split <;> rfl
@[simp] theorem drainOne_errIllegal (s : State) : (drainOne s).errIllegal = s.errIllegal := by unfold drainOne; split <;> rfl
@[simp] theorem drainOne_errBusy (s : State) : (drainOne s).errBusy = s.errBusy := by unfold drainOne; split <;> rfl
@[simp] theorem drainOne_errNotcfg (s : State) : (drainOne s).errNotcfg = s.errNotcfg := by unfold drainOne; split <;> rfl
@[simp] theorem drainOne_pinDc (s : State) : (drainOne s).pinDc = s.pinDc := by unfold drainOne; split <;> rfl
@[simp] theorem drainOne_pinRst (s : State) : (drainOne s).pinRst = s.pinRst := by unfold drainOne; split <;> rfl
@[simp] theorem drainOne_pinCs (s : State) : (drainOne s).pinCs = s.pinCs := by unfold drainOne; split <;> rfl
@[simp] theorem drainOne_pinSck (s : State) : (drainOne s).pinSck = s.pinSck := by unfold drainOne; split <;> rfl
@[simp] theorem drainOne_pinMosi (s : State) : (drainOne s).pinMosi = s.pinMosi := by unfold drainOne; split <;> rfl
@[simp] theorem drainOne_cfg (s : State) : (drainOne s).cfg = s.cfg := by unfold drainOne; split <;> rfl
@[simp] theorem drainOne_pos (s : State) : (drainOne s).pos = s.pos := by unfold drainOne; split <;> rfl
@[simp] theorem drainOne_stage (s : State) : (drainOne s).stage = s.stage := by unfold drainOne; split <;> rfl
@[simp] theorem drainOne_dly (s : State) : (drainOne s).dly = s.dly := by unfold drainOne; split <;> rfl
@[simp] theorem drainOne_pg (s : State) : (drainOne s).pg = s.pg := by unfold drainOne; split <;> rfl
@[simp] theorem drainOne_cx (s : State) : (drainOne s).cx = s.cx := by unfold drainOne; split <;> rfl
@[simp] theorem drainOne_bi (s : State) : (drainOne s).bi = s.bi := by unfold drainOne; split <;> rfl
@[simp] theorem drainOne_ci (s : State) : (drainOne s).ci = s.ci := by unfold drainOne; split <;> rfl
@[simp] theorem drainOne_cc (s : State) : (drainOne s).cc = s.cc := by unfold drainOne; split <;> rfl
@[simp] theorem drainOne_gk (s : State) : (drainOne s).gk = s.gk := by unfold drainOne; split <;> rfl
@[simp] theorem drainOne_ch (s : State) : (drainOne s).ch = s.ch := by unfold drainOne; split <;> rfl
@[simp] theorem drainOne_dr (s : State) : (drainOne s).dr = s.dr := by unfold drainOne; split <;> rfl
@[simp] theorem drainOne_shift (s : State) : (drainOne s).shift = s.shift := by unfold drainOne; split <;> rfl
@[simp] theorem drainOne_bitcnt (s : State) : (drainOne s).bitcnt = s.bitcnt := by unfold drainOne; split <;> rfl
@[simp] theorem drainOne_resetN (s : State) : (drainOne s).resetN = s.resetN := by unfold drainOne; split <;> rfl
@[simp] theorem drainOne_turns (s : State) : (drainOne s).turns = s.turns := by unfold drainOne; split <;> rfl
@[simp] theorem drainOne_trace (s : State) : (drainOne s).trace = s.trace := by unfold drainOne; split <;> rfl
@[simp] theorem drainOne_reads (s : State) : (drainOne s).reads = s.reads := by unfold drainOne; split <;> rfl
@[simp] theorem drainOne_draws (s : State) : (drainOne s).draws = s.draws := by unfold drainOne; split <;> rfl

/-! ## hostStore -/

@[simp] theorem hostStore_cur (a : Nat) (bs : List Byte) (s : State) : (hostStore a bs s).cur = s.cur := by unfold hostStore; split <;> rfl
@[simp] theorem hostStore_run (a : Nat) (bs : List Byte) (s : State) : (hostStore a bs s).run = s.run := by unfold hostStore; split <;> rfl
@[simp] theorem hostStore_tc (a : Nat) (bs : List Byte) (s : State) : (hostStore a bs s).tc = s.tc := by unfold hostStore; split <;> rfl
@[simp] theorem hostStore_initd (a : Nat) (bs : List Byte) (s : State) : (hostStore a bs s).initd = s.initd := by unfold hostStore; split <;> rfl
@[simp] theorem hostStore_errIllegal (a : Nat) (bs : List Byte) (s : State) : (hostStore a bs s).errIllegal = s.errIllegal := by unfold hostStore; split <;> rfl
@[simp] theorem hostStore_errBusy (a : Nat) (bs : List Byte) (s : State) : (hostStore a bs s).errBusy = s.errBusy := by unfold hostStore; split <;> rfl
@[simp] theorem hostStore_errNotcfg (a : Nat) (bs : List Byte) (s : State) : (hostStore a bs s).errNotcfg = s.errNotcfg := by unfold hostStore; split <;> rfl
@[simp] theorem hostStore_pinDc (a : Nat) (bs : List Byte) (s : State) : (hostStore a bs s).pinDc = s.pinDc := by unfold hostStore; split <;> rfl
@[simp] theorem hostStore_pinRst (a : Nat) (bs : List Byte) (s : State) : (hostStore a bs s).pinRst = s.pinRst := by unfold hostStore; split <;> rfl
@[simp] theorem hostStore_pinCs (a : Nat) (bs : List Byte) (s : State) : (hostStore a bs s).pinCs = s.pinCs := by unfold hostStore; split <;> rfl
@[simp] theorem hostStore_pinSck (a : Nat) (bs : List Byte) (s : State) : (hostStore a bs s).pinSck = s.pinSck := by unfold hostStore; split <;> rfl
@[simp] theorem hostStore_pinMosi (a : Nat) (bs : List Byte) (s : State) : (hostStore a bs s).pinMosi = s.pinMosi := by unfold hostStore; split <;> rfl
@[simp] theorem hostStore_cfg (a : Nat) (bs : List Byte) (s : State) : (hostStore a bs s).cfg = s.cfg := by unfold hostStore; split <;> rfl
@[simp] theorem hostStore_pos (a : Nat) (bs : List Byte) (s : State) : (hostStore a bs s).pos = s.pos := by unfold hostStore; split <;> rfl
@[simp] theorem hostStore_stage (a : Nat) (bs : List Byte) (s : State) : (hostStore a bs s).stage = s.stage := by unfold hostStore; split <;> rfl
@[simp] theorem hostStore_dly (a : Nat) (bs : List Byte) (s : State) : (hostStore a bs s).dly = s.dly := by unfold hostStore; split <;> rfl
@[simp] theorem hostStore_pg (a : Nat) (bs : List Byte) (s : State) : (hostStore a bs s).pg = s.pg := by unfold hostStore; split <;> rfl
@[simp] theorem hostStore_cx (a : Nat) (bs : List Byte) (s : State) : (hostStore a bs s).cx = s.cx := by unfold hostStore; split <;> rfl
@[simp] theorem hostStore_bi (a : Nat) (bs : List Byte) (s : State) : (hostStore a bs s).bi = s.bi := by unfold hostStore; split <;> rfl
@[simp] theorem hostStore_ci (a : Nat) (bs : List Byte) (s : State) : (hostStore a bs s).ci = s.ci := by unfold hostStore; split <;> rfl
@[simp] theorem hostStore_cc (a : Nat) (bs : List Byte) (s : State) : (hostStore a bs s).cc = s.cc := by unfold hostStore; split <;> rfl
@[simp] theorem hostStore_gk (a : Nat) (bs : List Byte) (s : State) : (hostStore a bs s).gk = s.gk := by unfold hostStore; split <;> rfl
@[simp] theorem hostStore_ch (a : Nat) (bs : List Byte) (s : State) : (hostStore a bs s).ch = s.ch := by unfold hostStore; split <;> rfl
@[simp] theorem hostStore_dr (a : Nat) (bs : List Byte) (s : State) : (hostStore a bs s).dr = s.dr := by unfold hostStore; split <;> rfl
@[simp] theorem hostStore_shift (a : Nat) (bs : List Byte) (s : State) : (hostStore a bs s).shift = s.shift := by unfold hostStore; split <;> rfl
@[simp] theorem hostStore_bitcnt (a : Nat) (bs : List Byte) (s : State) : (hostStore a bs s).bitcnt = s.bitcnt := by unfold hostStore; split <;> rfl
@[simp] theorem hostStore_resetN (a : Nat) (bs : List Byte) (s : State) : (hostStore a bs s).resetN = s.resetN := by unfold hostStore; split <;> rfl
@[simp] theorem hostStore_turns (a : Nat) (bs : List Byte) (s : State) : (hostStore a bs s).turns = s.turns := by unfold hostStore; split <;> rfl
@[simp] theorem hostStore_trace (a : Nat) (bs : List Byte) (s : State) : (hostStore a bs s).trace = s.trace := by unfold hostStore; split <;> rfl
@[simp] theorem hostStore_reads (a : Nat) (bs : List Byte) (s : State) : (hostStore a bs s).reads = s.reads := by unfold hostStore; split <;> rfl
@[simp] theorem hostStore_draws (a : Nat) (bs : List Byte) (s : State) : (hostStore a bs s).draws = s.draws := by unfold hostStore; split <;> rfl

/-! ## hostRead -/

@[simp] theorem hostRead_cur (off : Offset) (n : Width) (s : State) : (hostRead off n s).cur = s.cur := rfl
@[simp] theorem hostRead_run (off : Offset) (n : Width) (s : State) : (hostRead off n s).run = s.run := rfl
@[simp] theorem hostRead_tc (off : Offset) (n : Width) (s : State) : (hostRead off n s).tc = s.tc := rfl
@[simp] theorem hostRead_initd (off : Offset) (n : Width) (s : State) : (hostRead off n s).initd = s.initd := rfl
@[simp] theorem hostRead_errIllegal (off : Offset) (n : Width) (s : State) : (hostRead off n s).errIllegal = s.errIllegal := rfl
@[simp] theorem hostRead_errBusy (off : Offset) (n : Width) (s : State) : (hostRead off n s).errBusy = s.errBusy := rfl
@[simp] theorem hostRead_errNotcfg (off : Offset) (n : Width) (s : State) : (hostRead off n s).errNotcfg = s.errNotcfg := rfl
@[simp] theorem hostRead_pinDc (off : Offset) (n : Width) (s : State) : (hostRead off n s).pinDc = s.pinDc := rfl
@[simp] theorem hostRead_pinRst (off : Offset) (n : Width) (s : State) : (hostRead off n s).pinRst = s.pinRst := rfl
@[simp] theorem hostRead_pinCs (off : Offset) (n : Width) (s : State) : (hostRead off n s).pinCs = s.pinCs := rfl
@[simp] theorem hostRead_pinSck (off : Offset) (n : Width) (s : State) : (hostRead off n s).pinSck = s.pinSck := rfl
@[simp] theorem hostRead_pinMosi (off : Offset) (n : Width) (s : State) : (hostRead off n s).pinMosi = s.pinMosi := rfl
@[simp] theorem hostRead_cfg (off : Offset) (n : Width) (s : State) : (hostRead off n s).cfg = s.cfg := rfl
@[simp] theorem hostRead_mem (off : Offset) (n : Width) (s : State) : (hostRead off n s).mem = s.mem := rfl
@[simp] theorem hostRead_pos (off : Offset) (n : Width) (s : State) : (hostRead off n s).pos = s.pos := rfl
@[simp] theorem hostRead_stage (off : Offset) (n : Width) (s : State) : (hostRead off n s).stage = s.stage := rfl
@[simp] theorem hostRead_dly (off : Offset) (n : Width) (s : State) : (hostRead off n s).dly = s.dly := rfl
@[simp] theorem hostRead_pg (off : Offset) (n : Width) (s : State) : (hostRead off n s).pg = s.pg := rfl
@[simp] theorem hostRead_cx (off : Offset) (n : Width) (s : State) : (hostRead off n s).cx = s.cx := rfl
@[simp] theorem hostRead_bi (off : Offset) (n : Width) (s : State) : (hostRead off n s).bi = s.bi := rfl
@[simp] theorem hostRead_ci (off : Offset) (n : Width) (s : State) : (hostRead off n s).ci = s.ci := rfl
@[simp] theorem hostRead_cc (off : Offset) (n : Width) (s : State) : (hostRead off n s).cc = s.cc := rfl
@[simp] theorem hostRead_gk (off : Offset) (n : Width) (s : State) : (hostRead off n s).gk = s.gk := rfl
@[simp] theorem hostRead_ch (off : Offset) (n : Width) (s : State) : (hostRead off n s).ch = s.ch := rfl
@[simp] theorem hostRead_dr (off : Offset) (n : Width) (s : State) : (hostRead off n s).dr = s.dr := rfl
@[simp] theorem hostRead_shift (off : Offset) (n : Width) (s : State) : (hostRead off n s).shift = s.shift := rfl
@[simp] theorem hostRead_bitcnt (off : Offset) (n : Width) (s : State) : (hostRead off n s).bitcnt = s.bitcnt := rfl
@[simp] theorem hostRead_resetN (off : Offset) (n : Width) (s : State) : (hostRead off n s).resetN = s.resetN := rfl
@[simp] theorem hostRead_turns (off : Offset) (n : Width) (s : State) : (hostRead off n s).turns = s.turns := rfl
@[simp] theorem hostRead_posted (off : Offset) (n : Width) (s : State) : (hostRead off n s).posted = s.posted := rfl
@[simp] theorem hostRead_trace (off : Offset) (n : Width) (s : State) : (hostRead off n s).trace = s.trace := rfl
@[simp] theorem hostRead_reads (off : Offset) (n : Width) (s : State) : (hostRead off n s).reads = (s.reads ++ [readValue off n s]) := rfl
@[simp] theorem hostRead_draws (off : Offset) (n : Width) (s : State) : (hostRead off n s).draws = (s.draws + n.bytes) := rfl

/-! ## blockReset -/

@[simp] theorem blockReset_cur (s : State) : (blockReset s).cur = 0#32 := rfl
@[simp] theorem blockReset_run (s : State) : (blockReset s).run = false := rfl
@[simp] theorem blockReset_tc (s : State) : (blockReset s).tc = true := rfl
@[simp] theorem blockReset_initd (s : State) : (blockReset s).initd = false := rfl
@[simp] theorem blockReset_errIllegal (s : State) : (blockReset s).errIllegal = false := rfl
@[simp] theorem blockReset_errBusy (s : State) : (blockReset s).errBusy = false := rfl
@[simp] theorem blockReset_errNotcfg (s : State) : (blockReset s).errNotcfg = false := rfl
@[simp] theorem blockReset_pinDc (s : State) : (blockReset s).pinDc = false := rfl
@[simp] theorem blockReset_pinRst (s : State) : (blockReset s).pinRst = true := rfl
@[simp] theorem blockReset_pinCs (s : State) : (blockReset s).pinCs = true := rfl
@[simp] theorem blockReset_pinSck (s : State) : (blockReset s).pinSck = false := rfl
@[simp] theorem blockReset_pinMosi (s : State) : (blockReset s).pinMosi = false := rfl
@[simp] theorem blockReset_cfg (s : State) : (blockReset s).cfg = CfgReg.atReset := rfl
@[simp] theorem blockReset_mem (s : State) : (blockReset s).mem = [] := rfl
@[simp] theorem blockReset_pos (s : State) : (blockReset s).pos = .configure := rfl
@[simp] theorem blockReset_stage (s : State) : (blockReset s).stage = .begin := rfl
@[simp] theorem blockReset_dly (s : State) : (blockReset s).dly = 0 := rfl
@[simp] theorem blockReset_pg (s : State) : (blockReset s).pg = 0#3 := rfl
@[simp] theorem blockReset_cx (s : State) : (blockReset s).cx = 0#7 := rfl
@[simp] theorem blockReset_bi (s : State) : (blockReset s).bi = 0#3 := rfl
@[simp] theorem blockReset_ci (s : State) : (blockReset s).ci = 0#11 := rfl
@[simp] theorem blockReset_cc (s : State) : (blockReset s).cc = 0#8 := rfl
@[simp] theorem blockReset_gk (s : State) : (blockReset s).gk = 0#3 := rfl
@[simp] theorem blockReset_ch (s : State) : (blockReset s).ch = 0#8 := rfl
@[simp] theorem blockReset_dr (s : State) : (blockReset s).dr = 0#8 := rfl
@[simp] theorem blockReset_shift (s : State) : (blockReset s).shift = 0#8 := rfl
@[simp] theorem blockReset_bitcnt (s : State) : (blockReset s).bitcnt = 0#4 := rfl
@[simp] theorem blockReset_resetN (s : State) : (blockReset s).resetN = false := rfl
@[simp] theorem blockReset_turns (s : State) : (blockReset s).turns = s.turns := rfl
@[simp] theorem blockReset_posted (s : State) : (blockReset s).posted = [] := rfl
@[simp] theorem blockReset_trace (s : State) : (blockReset s).trace = s.trace := rfl
@[simp] theorem blockReset_reads (s : State) : (blockReset s).reads = s.reads := rfl
@[simp] theorem blockReset_draws (s : State) : (blockReset s).draws = s.draws := rfl

end Sys2Proof.Machine
end

