-- ==== Sys2Proof/Laws/Ops.lean ====
section
/-! SUPPORT. Laws/Ops.lean: what each shared operation can do, said once. -/

namespace Sys2Proof.Machine

/-- An OP write of a legal descriptor does one of three things (R76). -/
theorem submit_cases {n : Bool} {f : State → State} {s t : State} (h : submit n f s = .next t) :
    (s.run = true ∧ t = raise .busy s)
      ∨ (s.run = false ∧ n = true ∧ s.cfg.spe = false ∧ t = raise .notcfg s)
      ∨ (s.run = false ∧ (n = true → s.cfg.spe = true) ∧ t = f s) := by
  unfold submit at h
  split at h
  · exact .inl ⟨‹_›, by cases h; rfl⟩
  · split at h
    · rename_i h1 h2; simp at h1 h2; exact .inr (.inl ⟨h1, h2.1, h2.2, by cases h; rfl⟩)
    · rename_i h1 h2; simp at h1 h2; exact .inr (.inr ⟨h1, h2, by cases h; rfl⟩)

/-- Every meaning is one shared operation over the instruction's own descriptor. -/
theorem exec_eq_submit (i : Instr) (s : State) :
    exec i s = submit (transferOpc i.opc) (started (encode i)) s := by
  have e := opcField_encode i
  cases i <;>
    simp only [exec, execConfig, execReset, execCmd, execData, execInit, execClear, execDraw, execPrint, execTestfill,
      submit, accept, acceptPages, started, e] <;> rfl

/-- What an OP write of a legal descriptor does (R76). -/
theorem exec_cases {i : Instr} {s t : State} (h : exec i s = .next t) :
    (s.run = true ∧ t = raise .busy s)
      ∨ (s.run = false ∧ transferOpc i.opc = true ∧ s.cfg.spe = false ∧ t = raise .notcfg s)
      ∨ (s.run = false ∧ (transferOpc i.opc = true → s.cfg.spe = true) ∧ t = started (encode i) s) := by
  rw [exec_eq_submit] at h; exact submit_cases h

theorem submitIllegal_eq (s : State) :
    submitIllegal s = .next (if s.run then raise .busy s else raise .illegal s) := by
  unfold submitIllegal; split <;> rfl

/-- A host access always answers a next state. -/
theorem exec_next (i : Instr) (s : State) : ∃ t, exec i s = .next t := by
  rw [exec_eq_submit]; unfold submit; split
  · exact ⟨_, rfl⟩
  · split <;> exact ⟨_, rfl⟩

theorem opWrite_next (v : Word) (s : State) : ∃ t, opWrite v s = .next t := by
  unfold opWrite; split
  · exact exec_next _ _
  · exact ⟨_, submitIllegal_eq s⟩

/-- A host write is ignored, writes OP, clears error flags, or stores bytes (R53, R56 to R59). -/
theorem hostWrite_cases {off : Offset} {n : Width} {v : Word} {s t : State} (h : hostWrite off n v s = .next t) :
    t = s ∨ opWrite v s = .next t ∨ t = clearErrors v s
      ∨ (t = hostStore off.toNat (bytesOf n v) s ∧ aligned off n = true
          ∧ (regionOf off = .bmp ∨ regionOf off = .text)) := by
  unfold hostWrite at h
  split at h
  · split at h
    · split at h
      · exact .inr (.inl h)
      · cases h; exact .inl rfl
    · split at h <;> cases h
      · exact .inr (.inr (.inl rfl))
      · exact .inl rfl
    · cases h; exact .inl rfl
    · cases h; exact .inl rfl
    · cases h; exact .inr (.inr (.inr ⟨rfl, ‹_›, .inl ‹_›⟩))
    · cases h; exact .inr (.inr (.inr ⟨rfl, ‹_›, .inr ‹_›⟩))
    · cases h; exact .inl rfl
  · cases h; exact .inl rfl

theorem hostAccess_next (a : Access) (s : State) : ∃ t, hostAccess a s = .next t := by
  cases a with
  | read off n => exact ⟨_, rfl⟩
  | write off n v =>
    simp only [hostAccess, hostWrite]
    split
    · split
      · split
        · exact opWrite_next v s
        · exact ⟨_, rfl⟩
      all_goals exact ⟨_, rfl⟩
    · exact ⟨_, rfl⟩

/-! ## Register words and buffer accesses -/

/-- Bit i of a word with one flag at bit k. -/
theorem getLsbD_flagBit (b : Bool) (k i : Nat) :
    (flagBit b k).getLsbD i = (b && decide (i < 32) && decide (k = i)) := by
  cases b <;> simp [flagBit, BitVec.getLsbD_twoPow]
  grind

/-- The offsets from BMP to the end of TEXT are the buffers (R52). -/
theorem regionOf_buffer {off : Offset} (h1 : 0x400 ≤ off.toNat) (h2 : off.toNat < 0x800 + Config.textBytes) :
    regionOf off = .bmp ∨ regionOf off = .text := by
  have e1 : textBase = 2048 := rfl
  have e2 : bmpBase = 1024 := rfl
  have e3 : Config.textBytes = 64 := rfl
  unfold regionOf; grind

/-- An aligned access in a buffer ends inside the buffers: none straddles the end of TEXT (R57). -/
theorem buffer_bounds {off : Offset} {n : Width} (hal : aligned off n = true)
    (hreg : regionOf off = .bmp ∨ regionOf off = .text) :
    bmpBase ≤ off.toNat ∧ off.toNat + n.bytes ≤ textBase + Config.textBytes := by
  have e1 : textBase = 2048 := rfl
  have e2 : bmpBase = 1024 := rfl
  have e3 : Config.textBytes = 64 := rfl
  have : bmpBase ≤ off.toNat ∧ off.toNat < textBase + Config.textBytes := by
    rcases hreg with hr | hr <;> unfold regionOf at hr <;> grind
  simp [aligned] at hal
  cases n <;> simp [Width.bytes] at * <;> omega

theorem bytesOf_length (n : Width) (v : Word) : (bytesOf n v).length = n.bytes := by simp [bytesOf]

theorem bytesOf_getElem? (n : Width) (v : Word) (j : Nat) :
    (bytesOf n v)[j]? = if j < n.bytes then some (byteOf v j) else none := by
  unfold bytesOf; grind

/-- Bit k of a little-endian value is a bit of byte k div 8 (R56, R61). -/
theorem getLsbD_valueOf (bs : List Byte) (hl : bs.length ≤ 4) (k : Nat) :
    (valueOf bs).getLsbD k = ((bs[k / 8]?).getD 0#8).getLsbD (k % 8) := by
  induction bs generalizing k with
  | nil => simp [valueOf]
  | cons b bs ih =>
    simp only [valueOf, BitVec.getLsbD_or, BitVec.getLsbD_setWidth, BitVec.getLsbD_shiftLeft]
    rw [ih (by simp at hl; omega)]
    by_cases h : k < 8
    · have e : k / 8 = 0 := by omega
      have e2 : k % 8 = k := by omega
      simp [e, e2, h]; intro; omega
    · have e : k / 8 = (k - 8) / 8 + 1 := by omega
      have e2 : (k - 8) % 8 = k % 8 := by omega
      simp only [e, e2, List.getElem?_cons_succ]
      have : b.getLsbD k = false := BitVec.getLsbD_of_ge b _ (by omega)
      simp [this, h]
      intro hk
      by_contra hc
      have hl' : bs.length < 4 := by simpa using hl
      have : bs[(k - 8) / 8]? = none := List.getElem?_eq_none (by omega)
      simp [this] at hk

/-! ## One host access, said once -/

theorem runTurn_host {s : State} {a : Access} (h : s.resetN = true) : runTurn (.host a) s = hostAccess a s := by
  simp [runTurn, h]

/-- An aligned word write at offset 0x000 is an OP write (R76). -/
theorem runTurn_opWrite (v : Word) {s : State} (h : s.resetN = true) :
    runTurn (.host (.write 0x000#12 .b4 v)) s = opWrite v s := by
  have h1 : aligned 0#12 .b4 = true := rfl
  have h2 : regionOf 0#12 = .op := rfl
  simp [runTurn, h, hostAccess, hostWrite, h1, h2]

/-- An aligned write to a buffer stores its bytes (R56). -/
theorem runTurn_bufferWrite {off : Offset} {n : Width} {v : Word} {s : State} (h : s.resetN = true)
    (h1 : 0x400 ≤ off.toNat) (h2 : off.toNat < 0x800 + Config.textBytes) (h3 : off.toNat % n.bytes = 0) :
    runTurn (.host (.write off n v)) s = .next (hostStore off.toNat (bytesOf n v) s) := by
  have : aligned off n = true := by simp [aligned, h3]
  simp only [runTurn, h, if_true, hostAccess, hostWrite, this]
  rcases regionOf_buffer h1 h2 with h | h <;> simp [h]

/-- An OP write raises one error or starts an operation (R76). -/
theorem opWrite_cases {v : Word} {s t : State} (h : opWrite v s = .next t) :
    t = raise .busy s ∨ t = raise .illegal s ∨ t = raise .notcfg s ∨ ∃ i, t = started (encode i) s := by
  unfold opWrite at h
  split at h
  · rcases exec_cases h with ⟨_, rfl⟩ | ⟨_, _, _, rfl⟩ | ⟨_, _, rfl⟩
    · simp
    · simp
    · exact .inr (.inr (.inr ⟨_, rfl⟩))
  · rw [submitIllegal_eq] at h; cases h; split <;> simp

/-- No host access changes a pin, the configuration, the transmitter or the trace. -/
theorem hostAccess_pins {a : Access} {s t : State} (h : hostAccess a s = .next t) :
    t.tc = s.tc ∧ t.initd = s.initd ∧ t.pinDc = s.pinDc ∧ t.pinRst = s.pinRst ∧ t.pinCs = s.pinCs
      ∧ t.pinSck = s.pinSck ∧ t.pinMosi = s.pinMosi ∧ t.cfg = s.cfg ∧ t.dly = s.dly ∧ t.trace = s.trace := by
  cases a with
  | read off n => cases h; simp
  | write off n v =>
    rcases hostWrite_cases h with rfl | h | rfl | ⟨rfl, _⟩
    · simp
    · rcases opWrite_cases h with rfl | rfl | rfl | ⟨i, rfl⟩ <;> simp [started]
    · simp
    · simp

end Sys2Proof.Machine
end

