-- ==== Sys2Proof/Laws/Engine.lean ====
section
/-! SUPPORT. Laws/Engine.lean: what a turn of the sequencer can do, said once. -/

namespace Sys2Proof.Machine

/-- The sequencer at another place with other loop counters, at the start of its micro-op. -/
def movedTo (p : Place) (pg : BitVec 3) (cx : BitVec 7) (ci : BitVec 11) (cc : BitVec 8) (gk : BitVec 3) (ch : Byte)
    (s : State) : State :=
  { s with pos := p, stage := .begin, pg := pg, cx := cx, ci := ci, cc := cc, gk := gk, ch := ch }

theorem nextColumn_cases (s : State) :
    (∃ p pg cx, nextColumn s = movedTo p pg cx s.ci s.cc s.gk s.ch s) ∨ nextColumn s = finish s := by
  unfold nextColumn
  split
  · exact .inl ⟨_, _, _, rfl⟩
  · split
    · exact .inl ⟨_, _, _, rfl⟩
    · split
      · exact .inl ⟨_, _, _, rfl⟩
      · exact .inr rfl

theorem fetchChar_cases {s t : State} (h : fetchChar s = .next t) :
    (∃ c cc, t = movedTo .charLow s.pg s.cx s.ci cc s.gk c s) ∨ t = finish s := by
  unfold fetchChar at h
  split at h
  · split at h
    · cases h
    · split at h <;> cases h
      · exact .inr rfl
      · exact .inl ⟨_, _, rfl⟩
  · cases h; exact .inr rfl

/-- When a micro-op has completed, the sequencer stands at the start of another one or the operation ends. -/
theorem advance_cases {s t : State} (h : advance s = .next t) :
    (∃ p pg cx ci cc gk ch, t = movedTo p pg cx ci cc gk ch s) ∨ ∃ ci, t = finish { s with ci := ci } := by
  have moved : ∀ p pg cx ci cc gk ch, t = movedTo p pg cx ci cc gk ch s →
      (∃ p pg cx ci cc gk ch, t = movedTo p pg cx ci cc gk ch s) ∨ ∃ ci, t = finish { s with ci := ci } :=
    fun _ _ _ _ _ _ _ h => .inl ⟨_, _, _, _, _, _, _, h⟩
  have column : t = nextColumn s →
      (∃ p pg cx ci cc gk ch, t = movedTo p pg cx ci cc gk ch s) ∨ ∃ ci, t = finish { s with ci := ci } := by
    rintro rfl
    rcases nextColumn_cases s with ⟨p, pg, cx, h⟩ | h
    · exact moved _ _ _ _ _ _ _ h
    · exact .inr ⟨s.ci, h⟩
  have char : ∀ ci, fetchChar { s with ci := ci } = .next t →
      (∃ p pg cx ci cc gk ch, t = movedTo p pg cx ci cc gk ch s) ∨ ∃ ci, t = finish { s with ci := ci } := by
    intro ci h
    rcases fetchChar_cases h with ⟨c, cc, h⟩ | h
    · exact moved .charLow s.pg s.cx ci cc s.gk c h
    · exact .inr ⟨ci, h⟩
  unfold advance at h
  split at h
  all_goals first
    | exact char _ h
    | (split at h
       · cases h; exact moved _ _ _ _ _ _ _ rfl
       · exact char _ h)
    | (simp only [Host.Outcome.next.injEq] at h
       first
         | exact column h.symm
         | (split at h <;> first
              | exact column h.symm
              | (subst h; exact moved _ _ _ _ _ _ _ rfl)
              | exact .inr ⟨s.ci, h.symm⟩)
         | (subst h; exact moved _ _ _ _ _ _ _ rfl)
         | exact .inr ⟨s.ci, h.symm⟩)

theorem finish_anyStage (s : State) (x : Stage) : finish { s with stage := x } = finish s := rfl

theorem goTo_anyStage (p : Place) (s : State) (x : Stage) : goTo p { s with stage := x } = goTo p s := rfl

theorem isOp_anyStage (o : BitVec 4) (s : State) (x : Stage) : isOp o { s with stage := x } = isOp o s := rfl

theorem nextColumn_anyStage (s : State) (x : Stage) : nextColumn { s with stage := x } = nextColumn s := by
  simp only [nextColumn, isOp_anyStage]; rfl

theorem fetchChar_anyStage (s : State) (x : Stage) : fetchChar { s with stage := x } = fetchChar s := by
  simp only [fetchChar]; rfl

/-- Where the sequencer goes does not depend on how far the completed micro-op had come. -/
theorem advance_anyStage (s : State) (x : Stage) : advance { s with stage := x } = advance s := by
  simp only [advance, isOp_anyStage, nextColumn_anyStage, finish_anyStage, goTo_anyStage]
  cases s.pos
  case seq e rest => cases rest <;> rfl
  case glyphByte =>
    by_cases h : s.gk.toNat < 4
    · simp only [h, if_true]; rfl
    · simp only [h, if_false]
      exact fetchChar_anyStage { s with ci := s.ci + 1#11, pos := .glyphByte } x
  case printSelect => exact fetchChar_anyStage { s with ci := 0#11, pos := .printSelect } x
  all_goals rfl

/-! ## One turn of the engine -/

/-- What the engine's turn can do: nothing; begin a send; load its byte; begin or count a wait; or complete a micro-op
other than a send's transfer, after which the sequencer advances. -/
theorem engineTurn_cases {s t : State} (h : engineTurn s = .next t) :
    (s.run = false ∧ t = s) ∨
    (s.run = true ∧ (∃ p, s.stage = .shift p) ∧ t = s) ∨
    (s.run = true ∧ s.stage = .begin ∧ sends s.pos = true ∧
      ∃ dc b s', microOpAt s = .ok (.send dc b, s') ∧ t = beginSend dc b s') ∨
    (s.run = true ∧ ∃ b, s.stage = .load b ∧ t = loadByte b s) ∨
    (s.run = true ∧ ∃ d, d.count ≠ 0 ∧ (s.stage = .begin ∧ microOpAt s = .ok (.wait d, s) ∨
        s.stage = .settle ∧ d = .cycles Config.settleCycles) ∧ t = { s with dly := d.count, stage := .count d }) ∨
    (s.run = true ∧ ∃ d, s.stage = .count d ∧ 1 < s.dly ∧ t = { s with dly := s.dly - 1 }) ∨
    (s.run = true ∧ ∃ d, (s.stage = .begin ∧ microOpAt s = .ok (.wait d, s) ∧ d.count = 0 ∨
        s.stage = .settle ∧ d = .cycles Config.settleCycles ∧ d.count = 0 ∨ s.stage = .count d ∧ s.dly ≤ 1) ∧
        endWait d { s with dly := 0 } = .next t) ∨
    (s.run = true ∧ s.stage = .begin ∧ ∃ l, microOpAt s = .ok (.rst l, s) ∧ advance (drivePinRst l s) = .next t) ∨
    (s.run = true ∧ s.stage = .begin ∧ s.pos = .configure ∧ advance (configure s) = .next t) ∨
    (s.run = true ∧ s.stage = .begin ∧ ∃ v, microOpAt s = .ok (.initd v, s) ∧
      advance { s with initd := v } = .next t) := by
  unfold engineTurn at h
  split at h
  case isFalse hr => cases h; exact .inl ⟨by simpa using hr, rfl⟩
  case isTrue hr =>
  split at h
  case h_1 hs =>
    have key : ∀ m s', microOpAt s = .ok (m, s') →
        (sends s.pos = true ∧ ∃ dc b, m = .send dc b) ∨
        (s' = s ∧ ((∃ d, m = .wait d) ∨ (∃ l, m = .rst l) ∨ (m = .configure ∧ s.pos = .configure) ∨
          ∃ v, m = .initd v)) := by
      intro m s' hm
      unfold microOpAt at hm
      split at hm
      all_goals rename_i hp
      all_goals first
        | (split at hm
           · cases hm; exact .inl ⟨by rw [hp]; rfl, _, _, rfl⟩
           · cases hm)
        | (cases hm; first
            | exact .inl ⟨by rw [hp]; rfl, _, _, rfl⟩
            | exact .inr ⟨rfl, .inl ⟨_, rfl⟩⟩
            | exact .inr ⟨rfl, .inr (.inl ⟨_, rfl⟩)⟩
            | exact .inr ⟨rfl, .inr (.inr (.inl ⟨rfl, hp⟩))⟩
            | exact .inr ⟨rfl, .inr (.inr (.inr ⟨_, rfl⟩))⟩)
    unfold beginMicroOp at h
    split at h
    · cases h
    · rename_i dc b s' hm
      rcases key _ _ hm with ⟨hp, _⟩ | ⟨_, h⟩
      · cases h; exact .inr (.inr (.inl ⟨hr, hs, hp, dc, b, s', hm, rfl⟩))
      · simp at h
    · rename_i d s' hm
      rcases key _ _ hm with ⟨_, _, _, h⟩ | ⟨rfl, _⟩
      · cases h
      · unfold startWait at h
        split at h
        · exact .inr (.inr (.inr (.inr (.inr (.inr (.inl ⟨hr, d, .inl ⟨hs, hm, ‹_›⟩, h⟩))))))
        · cases h; exact .inr (.inr (.inr (.inr (.inl ⟨hr, d, ‹_›, .inl ⟨hs, hm⟩, rfl⟩))))
    · rename_i l s' hm
      rcases key _ _ hm with ⟨_, _, _, h⟩ | ⟨rfl, _⟩
      · cases h
      · exact .inr (.inr (.inr (.inr (.inr (.inr (.inr (.inl ⟨hr, hs, l, hm, h⟩)))))))
    · rename_i s' hm
      rcases key _ _ hm with ⟨_, _, _, h⟩ | ⟨rfl, hh⟩
      · cases h
      · have hp : s'.pos = .configure := by simpa using hh
        exact .inr (.inr (.inr (.inr (.inr (.inr (.inr (.inr (.inl ⟨hr, hs, hp, h⟩))))))))
    · rename_i v s' hm
      rcases key _ _ hm with ⟨_, _, _, h⟩ | ⟨rfl, _⟩
      · cases h
      · exact .inr (.inr (.inr (.inr (.inr (.inr (.inr (.inr (.inr ⟨hr, hs, v, hm, h⟩))))))))
  case h_2 b hs => cases h; exact .inr (.inr (.inr (.inl ⟨hr, b, hs, rfl⟩)))
  case h_3 p hs => cases h; exact .inr (.inl ⟨hr, ⟨p, hs⟩, rfl⟩)
  case h_4 hs =>
    unfold startWait at h
    split at h
    · exact .inr (.inr (.inr (.inr (.inr (.inr (.inl ⟨hr, _, .inr (.inl ⟨hs, rfl, ‹_›⟩), h⟩))))))
    · cases h; exact .inr (.inr (.inr (.inr (.inl ⟨hr, _, ‹_›, .inr ⟨hs, rfl⟩, rfl⟩))))
  case h_5 d hs =>
    unfold countDown at h
    split at h
    · exact .inr (.inr (.inr (.inr (.inr (.inr (.inl ⟨hr, d, .inr (.inr ⟨hs, ‹_›⟩), h⟩))))))
    · cases h; exact .inr (.inr (.inr (.inr (.inr (.inl ⟨hr, d, hs, by omega, rfl⟩)))))

/-! ## What the sequencer and the line leave as they are -/

theorem composeFrom_state {n : Nat} {out b : Byte} {s t : State} (h : composeFrom n out s = some (b, t)) :
    ∃ bi, t = { s with bi := bi } := by
  induction n generalizing out s with
  | zero => cases h; exact ⟨_, rfl⟩
  | succ n ih =>
    unfold composeFrom at h
    split at h
    · cases h
    · simp only at h
      split at h
      · cases h; exact ⟨_, rfl⟩
      · obtain ⟨bi, rfl⟩ := ih h; exact ⟨bi, rfl⟩

/-- Evaluating a micro-op changes nothing but BI. -/
theorem microOpAt_state {s t : State} {m : MicroOp} (h : microOpAt s = .ok (m, t)) :
    ∃ bi, t = { s with bi := bi } := by
  unfold microOpAt at h
  split at h
  case h_12 =>
    split at h
    · rename_i hc
      cases h
      unfold columnByte at hc
      split at hc
      · obtain ⟨bi, rfl⟩ := composeFrom_state hc; exact ⟨bi, rfl⟩
      · split at hc <;> cases hc <;> exact ⟨_, rfl⟩
    · cases h
  all_goals (cases h; exact ⟨_, rfl⟩)

theorem microOpAt_rst {s s' : State} {l : Bool} (h : microOpAt s = .ok (.rst l, s')) :
    (s.pos = .rstLow ∧ l = false) ∨ (s.pos = .rstHigh ∧ l = true) := by
  unfold microOpAt at h
  split at h <;> first
    | (simp at h; done)
    | (simp at h; obtain ⟨rfl, rfl⟩ := h; simp_all)
    | (split at h <;> simp at h)

theorem microOpAt_initd {s s' : State} {v : Bool} (h : microOpAt s = .ok (.initd v, s')) :
    (s.pos = .initdClear ∧ v = false) ∨ (s.pos = .initdSet ∧ v = true) := by
  unfold microOpAt at h
  split at h <;> first
    | (simp at h; done)
    | (simp at h; obtain ⟨rfl, rfl⟩ := h; simp_all)
    | (split at h <;> simp at h)

theorem microOpAt_wait {s s' : State} {d : Duration} (h : microOpAt s = .ok (.wait d, s')) :
    s' = s ∧ waits s.pos = true := by
  unfold microOpAt at h
  split at h <;> rename_i hp <;> first
    | (simp at h; done)
    | (simp at h; rw [hp]; exact ⟨h.2.symm, rfl⟩)
    | (split at h <;> simp at h)

/-- What no move of the sequencer or the line changes. -/
structure EngineKept (s t : State) : Prop where
  cur : t.cur = s.cur
  errIllegal : t.errIllegal = s.errIllegal
  errBusy : t.errBusy = s.errBusy
  errNotcfg : t.errNotcfg = s.errNotcfg
  memory : hostMemory t = hostMemory s
  resetN : t.resetN = s.resetN
  turns : t.turns = s.turns
  reads : t.reads = s.reads
  draws : t.draws = s.draws

theorem EngineKept.trans {s t u : State} (h : EngineKept s t) (h' : EngineKept t u) : EngineKept s u :=
  ⟨h'.1.trans h.1, h'.2.trans h.2, h'.3.trans h.3, h'.4.trans h.4, h'.5.trans h.5, h'.6.trans h.6, h'.7.trans h.7,
   h'.8.trans h.8, h'.9.trans h.9⟩

theorem advance_kept {s t : State} (h : advance s = .next t) : EngineKept s t := by
  rcases advance_cases h with ⟨_, _, _, _, _, _, _, rfl⟩ | ⟨_, rfl⟩ <;> constructor <;> rfl

theorem engineTurn_kept {s t : State} (h : engineTurn s = .next t) : EngineKept s t := by
  rcases engineTurn_cases h with ⟨_, rfl⟩ | ⟨_, _, rfl⟩ | ⟨_, _, _, dc, b, s', hm, rfl⟩ | ⟨_, b, _, rfl⟩ |
    ⟨_, d, _, _, rfl⟩ | ⟨_, d, _, _, rfl⟩ | ⟨_, d, _, h⟩ | ⟨_, _, l, _, h⟩ | ⟨_, _, _, h⟩ | ⟨_, _, v, _, h⟩
  · constructor <;> rfl
  · constructor <;> rfl
  · obtain ⟨bi, rfl⟩ := microOpAt_state hm; constructor <;> rfl
  · constructor <;> rfl
  · constructor <;> rfl
  · constructor <;> rfl
  · refine EngineKept.trans ?_ (advance_kept h)
    split <;> constructor <;> rfl
  · exact EngineKept.trans (t := drivePinRst l s) ⟨rfl, rfl, rfl, rfl, rfl, rfl, rfl, rfl, rfl⟩ (advance_kept h)
  · exact EngineKept.trans (t := configure s) ⟨rfl, rfl, rfl, rfl, rfl, rfl, rfl, rfl, rfl⟩ (advance_kept h)
  · exact EngineKept.trans (t := { s with initd := v }) ⟨rfl, rfl, rfl, rfl, rfl, rfl, rfl, rfl, rfl⟩ (advance_kept h)

theorem lineTurn_kept (s : State) : EngineKept s (lineTurn s) := by
  unfold lineTurn
  split
  · split
    case h_3 => unfold bitSecondEdge; split <;> constructor <;> rfl
    all_goals constructor <;> rfl
  · constructor <;> rfl

/-- What moving POS on, or ending the operation, leaves as it is: the pins, the configuration, the transmitter and the
trace. -/
structure MoveKept (s t : State) : Prop where
  tc : t.tc = s.tc
  initd : t.initd = s.initd
  pinDc : t.pinDc = s.pinDc
  pinRst : t.pinRst = s.pinRst
  pinCs : t.pinCs = s.pinCs
  pinSck : t.pinSck = s.pinSck
  pinMosi : t.pinMosi = s.pinMosi
  cfg : t.cfg = s.cfg
  dly : t.dly = s.dly
  dr : t.dr = s.dr
  shift : t.shift = s.shift
  bitcnt : t.bitcnt = s.bitcnt
  trace : t.trace = s.trace
  bi : t.bi = s.bi

theorem advance_move {s t : State} (h : advance s = .next t) : MoveKept s t := by
  rcases advance_cases h with ⟨_, _, _, _, _, _, _, rfl⟩ | ⟨_, rfl⟩ <;> constructor <;> rfl

end Sys2Proof.Machine
end

