-- ==== Sys2Proof/Laws/Frame.lean ====
section
/-! SUPPORT. Laws/Frame.lean: the page byte of R120 bit by bit, and the engine's loop over BI as a fold. -/

namespace Sys2Proof.Machine

/-- addPixel sets one bit and leaves the others. -/
theorem getLsbD_addPixel (out b : Byte) (x : Nat) {n i : Nat} (hn : n < 8) (hi : i < 8) :
    (addPixel out x n b).getLsbD i = (out.getLsbD i || (decide (i = n) && b.getLsbD (7 - x % 8))) := by
  unfold addPixel
  split
  · simp [*]
    by_cases h : i = n
    · subst h; simp
    · have : (decide (i < n) = false → decide (i - n = 0) = false) := by simp; omega
      simp [h]; grind
  · simp_all

/-- Where the bytes are written, the bits below n of the page byte are theirs, and the others 0. -/
theorem packBits_of_written (m : Memory) (y x : Nat) (g : Nat → Byte) {n : Nat} (hn : n ≤ 8)
    (h : ∀ i, i < n → m.read (pixelOffset y x i) = some (g i)) :
    ∃ b, packBits m y x n = some b ∧ ∀ i, i < 8 → b.getLsbD i = (decide (i < n) && (g i).getLsbD (7 - x % 8)) := by
  induction n with
  | zero => exact ⟨0#8, rfl, by simp⟩
  | succ n ih =>
    obtain ⟨b, hb, hbi⟩ := ih (by omega) (fun i hi => h i (by omega))
    refine ⟨addPixel b x n (g n), by simp [packBits, hb, h n (by omega)], ?_⟩
    intro i hi
    rw [getLsbD_addPixel _ _ _ (by omega) hi, hbi i hi]
    by_cases e : i = n
    · subst e; simp
    · have : (decide (i < n)) = decide (i < n + 1) := by simp; omega
      simp [e, this]

/-- One byte never written leaves no page byte (R44). -/
theorem packBits_of_unwritten {m : Memory} {y x n i : Nat} (hi : i < n) (h : m.read (pixelOffset y x i) = none) :
    packBits m y x n = none := by
  induction n with
  | zero => omega
  | succ n ih =>
    unfold packBits
    by_cases e : i = n
    · subst e; rw [h]; split <;> simp_all
    · rw [ih (by omega)]

/-- The bits of a page byte from bit k on, added to out in the engine's order. -/
def packFrom (m : Memory) (y x : Nat) : Nat → Nat → Byte → Option Byte
  | 0, _, out => some out
  | n + 1, k, out =>
    match m.read (pixelOffset y x k) with
    | none => none
    | some b => packFrom m y x n (k + 1) (addPixel out x k b)

theorem packFrom_snoc (m : Memory) (y x n k : Nat) (out : Byte) :
    packFrom m y x (n + 1) k out =
      match packFrom m y x n k out, m.read (pixelOffset y x (k + n)) with
      | some out, some b => some (addPixel out x (k + n) b)
      | _, _ => none := by
  induction n generalizing k out with
  | zero => simp [packFrom]; cases m.read (pixelOffset y x k) <;> rfl
  | succ n ih =>
    rw [packFrom]
    rw [packFrom]
    cases h : m.read (pixelOffset y x k) with
    | none => simp
    | some b => simp only; rw [ih]; rw [show k + 1 + n = k + (n + 1) by omega]

theorem packFrom_zero (m : Memory) (y x n : Nat) : packFrom m y x n 0 0#8 = packBits m y x n := by
  induction n with
  | zero => rfl
  | succ n ih =>
    have h := packFrom_snoc m y x n 0 0#8
    rw [ih, Nat.zero_add] at h
    refine h.trans ?_
    cases e1 : packBits m y x n <;> cases e2 : m.read (pixelOffset y x n) <;> simp [packBits, e1, e2]

/-- The engine's loop over BI, from BI = k on, is the fold over the remaining bits, and leaves BI at 7. -/
theorem composeFrom_eq {n k : Nat} (hk : k + n + 1 = 8) (out : Byte) (s : State) :
    composeFrom (n + 1) out { s with bi := BitVec.ofNat 3 k } =
      (packFrom s.mem s.pg.toNat s.cx.toNat (n + 1) k out).map fun b => (b, { s with bi := 7#3 }) := by
  induction n generalizing k out with
  | zero =>
    have : k = 7 := by omega
    subst this
    simp only [composeFrom, packFrom, show (BitVec.ofNat 3 7).toNat = 7 from rfl]
    cases s.mem.read (pixelOffset s.pg.toNat s.cx.toNat 7) <;> rfl
  | succ n ih =>
    rw [composeFrom, packFrom]
    have e : (BitVec.ofNat 3 k).toNat = k := by simp; omega
    simp only [e]
    cases s.mem.read (pixelOffset s.pg.toNat s.cx.toNat k) with
    | none => rfl
    | some b =>
      simp only [Nat.add_one_ne_zero, if_false]
      have e2 : BitVec.ofNat 3 k + 1#3 = BitVec.ofNat 3 (k + 1) := by
        apply BitVec.eq_of_toNat_eq; simp
      rw [e2]
      exact ih (by omega) _

end Sys2Proof.Machine
end

