-- ==== Sys2Proof/Laws/Line.lean ====
section
/-! SUPPORT. Laws/Line.lean: the eight bits of one byte on the configured line (40_transmitter.md R91, R92). -/

namespace Sys2Proof.Machine

/-- SHIFT after j shifts of b, the trace having n events. -/
def shifted (n : Nat) (b : Byte) : Nat → Byte
  | 0 => b
  | j + 1 => shiftOut n (BitVec.ofNat 4 (8 - j)) (shifted n b j)

theorem getLsbD_shiftOut_succ (n : Nat) (k : BitVec 4) (v : Byte) {i : Nat} (hi : i < 7) :
    (shiftOut n k v).getLsbD (i + 1) = v.getLsbD i := by
  simp [shiftOut]; omega

/-- The bits of b move up one place a shift. -/
theorem getLsbD_shifted (n : Nat) (b : Byte) (j : Nat) {i : Nat} (h : i + j < 8) :
    (shifted n b j).getLsbD (i + j) = b.getLsbD i := by
  induction j with
  | zero => rfl
  | succ j ih => rw [← ih (by omega), ← add_assoc, shifted, getLsbD_shiftOut_succ _ _ _ (by omega)]

/-- Bit 7 of SHIFT is the next bit of b (R36). -/
theorem getLsbD_shifted_top (n : Nat) (b : Byte) {j : Nat} (h : j < 8) :
    (shifted n b j).getLsbD 7 = b.getLsbD (7 - j) := by
  rw [← getLsbD_shifted n b j (i := 7 - j) (by omega)]; congr 1; omega

/-- j bits of b are out, and the line is about to set up the next one. -/
def bitState (b : Byte) (s : State) (j : Nat) (sck mosi : Bool) : State :=
  { loadByte b s with shift := shifted s.trace.length b j, bitcnt := BitVec.ofNat 4 (8 - j), pinSck := sck, pinMosi := mosi }

/-- The byte is out: what step 4 of the send leaves (R91). -/
def lineDone (b : Byte) (s : State) : State :=
  { s with dr := b, shift := shifted s.trace.length b 8, bitcnt := 0#4, tc := true, stage := .settle, pinSck := false,
           pinMosi := b.getLsbD 0, trace := s.trace ++ [.byte s.pinDc b] }

theorem lineTurn_setUp (b : Byte) {s : State} (hr : s.run = true) (hc : s.cfg = configuredCfg) {j : Nat} (hj : j < 8)
    (p m : Bool) :
    lineTurn (bitState b s j p m) = { bitState b s j p (b.getLsbD (7 - j)) with stage := .shift .firstEdge } := by
  have e : configuredCfg.cpha = false := rfl
  have h := getLsbD_shifted_top s.trace.length b hj
  simp [lineTurn, bitState, loadByte, bitSetUp, hr, hc, e]
  interval_cases j <;> simpa using h

theorem lineTurn_firstEdge (b : Byte) {s : State} (hr : s.run = true) (hc : s.cfg = configuredCfg) (j : Nat)
    (p m : Bool) :
    lineTurn { bitState b s j p m with stage := .shift .firstEdge } =
      { bitState b s j true m with stage := .shift .secondEdge } := by
  have e : configuredCfg.cpha = false := rfl
  have e : configuredCfg.cpol = false := rfl
  simp [lineTurn, bitState, loadByte, bitFirstEdge, *]

theorem lineTurn_secondEdge (b : Byte) {s : State} (hr : s.run = true) (hc : s.cfg = configuredCfg) {j : Nat}
    (hj : j < 7) (p m : Bool) :
    lineTurn { bitState b s j p m with stage := .shift .secondEdge } = bitState b s (j + 1) false m := by
  have e : configuredCfg.cpha = false := rfl
  have e : configuredCfg.cpol = false := rfl
  simp [lineTurn, bitState, loadByte, bitSecondEdge, *]
  interval_cases j <;> rfl

theorem lineTurn_lastEdge (b : Byte) {s : State} (hr : s.run = true) (hc : s.cfg = configuredCfg) (p : Bool) :
    lineTurn { bitState b s 7 p (b.getLsbD 0) with stage := .shift .secondEdge } = lineDone b s := by
  have e : configuredCfg.cpha = false := rfl
  have e : configuredCfg.cpol = false := rfl
  simp [lineTurn, bitState, loadByte, bitSecondEdge, emit, lineDone, *]
  rfl

/-- After three turns a bit, j bits of the byte are out. -/
theorem lineTurn_bits (b : Byte) {s : State} (hr : s.run = true) (hc : s.cfg = configuredCfg) {j : Nat} (hj : j < 8) :
    ∃ p m, lineTurn^[3 * j] (loadByte b s) = bitState b s j p m := by
  induction j with
  | zero => exact ⟨s.pinSck, s.pinMosi, by simp [bitState, loadByte, shifted]⟩
  | succ j ih =>
    obtain ⟨p, m, ih⟩ := ih (by omega)
    refine ⟨false, b.getLsbD (7 - j), ?_⟩
    rw [show 3 * (j + 1) = ((3 * j + 1) + 1) + 1 by omega, Function.iterate_succ_apply', Function.iterate_succ_apply',
      Function.iterate_succ_apply', ih, lineTurn_setUp b hr hc (by omega), lineTurn_firstEdge b hr hc,
      lineTurn_secondEdge b hr hc (by omega)]

end Sys2Proof.Machine
end

