-- ==== Sys2Proof/Laws/PerInstr.lean ====
section
/-! SUPPORT. Laws/PerInstr.lean: statements made for every instruction, one lemma per constructor. -/

namespace Sys2Proof.Laws

open Sys2Proof

/-- The operand fields an instruction carries: ARG, X and Y (R71, R75). -/
def fieldsOf : Instr → BitVec 8 × BitVec 7 × BitVec 3
  | .config arg x y => (arg, x, y)
  | .reset arg x y => (arg, x, y)
  | .cmd arg x y => (arg, x, y)
  | .data arg x y => (arg, x, y)
  | .init arg x y => (arg, x, y)
  | .clear arg x y => (arg, x, y)
  | .draw arg x y => (arg, x, y)
  | .print arg x y => (arg, x, y)
  | .testfill arg x y => (arg, x, y)

/-- The encoded word holds each field of the instruction at its place, OPC the row's code, and 0 in every reserved bit
(R70, R71, R74). -/
def EncodedFields.Statement (i : Instr) : Prop :=
  opcField (encode i) = i.opc ∧ argField (encode i) = (fieldsOf i).1 ∧ xField (encode i) = (fieldsOf i).2.1 ∧
    yField (encode i) = (fieldsOf i).2.2 ∧ reservedClear (encode i) = true

theorem encodedFields_packed (o : BitVec 4) (a : BitVec 8) (x : BitVec 7) (y : BitVec 3) :
    opcField (packFields o a x y) = o ∧ argField (packFields o a x y) = a ∧ xField (packFields o a x y) = x ∧
      yField (packFields o a x y) = y ∧ reservedClear (packFields o a x y) = true :=
  ⟨opcField_packFields o a x y, argField_packFields o a x y, xField_packFields o a x y, yField_packFields o a x y,
   reservedClear_packFields o a x y⟩

theorem EncodedFields.config (arg : BitVec 8) (x : BitVec 7) (y : BitVec 3) :
    EncodedFields.Statement (.config arg x y) := encodedFields_packed _ arg x y

theorem EncodedFields.reset (arg : BitVec 8) (x : BitVec 7) (y : BitVec 3) :
    EncodedFields.Statement (.reset arg x y) := encodedFields_packed _ arg x y

theorem EncodedFields.cmd (arg : BitVec 8) (x : BitVec 7) (y : BitVec 3) :
    EncodedFields.Statement (.cmd arg x y) := encodedFields_packed _ arg x y

theorem EncodedFields.data (arg : BitVec 8) (x : BitVec 7) (y : BitVec 3) :
    EncodedFields.Statement (.data arg x y) := encodedFields_packed _ arg x y

theorem EncodedFields.init (arg : BitVec 8) (x : BitVec 7) (y : BitVec 3) :
    EncodedFields.Statement (.init arg x y) := encodedFields_packed _ arg x y

theorem EncodedFields.clear (arg : BitVec 8) (x : BitVec 7) (y : BitVec 3) :
    EncodedFields.Statement (.clear arg x y) := encodedFields_packed _ arg x y

theorem EncodedFields.draw (arg : BitVec 8) (x : BitVec 7) (y : BitVec 3) :
    EncodedFields.Statement (.draw arg x y) := encodedFields_packed _ arg x y

theorem EncodedFields.print (arg : BitVec 8) (x : BitVec 7) (y : BitVec 3) :
    EncodedFields.Statement (.print arg x y) := encodedFields_packed _ arg x y

theorem EncodedFields.testfill (arg : BitVec 8) (x : BitVec 7) (y : BitVec 3) :
    EncodedFields.Statement (.testfill arg x y) := encodedFields_packed _ arg x y

end Sys2Proof.Laws
end

