-- ==== Sys2Proof/Laws/Run.lean ====
section
/-! SUPPORT. Laws/Run.lean: a micro-op run to its end by fair turns (70_reset_and_hazards.md R192), said once for each
kind of micro-op (40_transmitter.md R90 to R96). -/

namespace Sys2Proof.Machine

/-- The first of k + 1 steps of the machine. -/
theorem core_run_succ {s t : State} (h : step s = .next t) (k : Nat) :
    Host.Core.run Sys2Proof.core (k + 1) s = Host.Core.run Sys2Proof.core k t := by
  have e : Sys2Proof.core.step s = .next t := h
  simp only [Host.Core.run]
  rw [e]

/-- Some number of fair turns leads from s to t. -/
def Reaches (s t : State) : Prop := ∃ n, fairRun n s = .next t

theorem Reaches.refl (s : State) : Reaches s s := ⟨0, rfl⟩

theorem fairRun_succ (n : Nat) (s : State) :
    fairRun (n + 1) s =
      match runTurn (fairTurn s) s with
      | .next t => fairRun n t
      | .fault f => .fault f
      | .refused r => .refused r := rfl

theorem fairRun_add {n m : Nat} {s t : State} (h : fairRun n s = .next t) : fairRun (n + m) s = fairRun m t := by
  induction n generalizing s with
  | zero => cases h; simp
  | succ n ih =>
    rw [show n + 1 + m = (n + m) + 1 by omega]
    rw [fairRun_succ] at h ⊢
    cases hh : runTurn (fairTurn s) s with
    | next w => rw [hh] at h; simp only at h ⊢; exact ih h
    | fault f => rw [hh] at h; cases h
    | refused r => rw [hh] at h; cases h

theorem Reaches.trans {s t u : State} (h : Reaches s t) (h' : Reaches t u) : Reaches s u := by
  obtain ⟨n, h⟩ := h
  obtain ⟨m, h'⟩ := h'
  exact ⟨n + m, by rw [fairRun_add h, h']⟩

theorem Reaches.engine {s t : State} (hN : s.resetN = true) (hs : shifting s = false) (h : engineTurn s = .next t) :
    Reaches s t := by
  refine ⟨1, ?_⟩
  have : runTurn (fairTurn s) s = .next t := by simp [fairTurn, hs, runTurn, hN, h]
  simp [fairRun, this]

theorem Reaches.line {s : State} (hN : s.resetN = true) (hs : shifting s = true) : Reaches s (lineTurn s) := by
  refine ⟨1, ?_⟩
  have : runTurn (fairTurn s) s = .next (lineTurn s) := by simp [fairTurn, hs, runTurn, hN]
  simp [fairRun, this]

/-- Three turns of the line put out one bit. -/
theorem reaches_bit (b : Byte) {s : State} (hN : s.resetN = true) (hr : s.run = true) (hc : s.cfg = configuredCfg)
    {j : Nat} (hj : j < 8) (p m : Bool) :
    Reaches (bitState b s j p m) { bitState b s j true (b.getLsbD (7 - j)) with stage := .shift .secondEdge } := by
  have h1 : Reaches (bitState b s j p m) (lineTurn (bitState b s j p m)) := Reaches.line (by exact hN) rfl
  rw [lineTurn_setUp b hr hc hj] at h1
  have h2 := Reaches.line (s := { bitState b s j p (b.getLsbD (7 - j)) with stage := .shift .firstEdge })
    (by exact hN) rfl
  rw [lineTurn_firstEdge b hr hc] at h2
  exact h1.trans h2

/-- A byte loaded on a configured line is put out (R91 steps 3 and 4). -/
theorem reaches_lineDone (b : Byte) {s : State} (hN : s.resetN = true) (hr : s.run = true)
    (hc : s.cfg = configuredCfg) : Reaches (loadByte b s) (lineDone b s) := by
  have bits : ∀ j, j < 8 → ∃ p m, Reaches (loadByte b s) (bitState b s j p m) := by
    intro j
    induction j with
    | zero => exact fun _ => ⟨s.pinSck, s.pinMosi, by simpa [bitState, loadByte, shifted] using Reaches.refl (loadByte b s)⟩
    | succ j ih =>
      intro hj
      obtain ⟨p, m, h⟩ := ih (by omega)
      have h2 := Reaches.line
        (s := { bitState b s j true (b.getLsbD (7 - j)) with stage := .shift .secondEdge }) (by exact hN) rfl
      rw [lineTurn_secondEdge b hr hc (by omega)] at h2
      exact ⟨_, _, (h.trans (reaches_bit b hN hr hc (by omega) p m)).trans h2⟩
  obtain ⟨p, m, h⟩ := bits 7 (by omega)
  have h2 := Reaches.line (s := { bitState b s 7 true (b.getLsbD 0) with stage := .shift .secondEdge })
    (by exact hN) rfl
  rw [lineTurn_lastEdge b hr hc] at h2
  exact (h.trans (reaches_bit b hN hr hc (by omega) p m)).trans h2

/-- DLY counts down to the end of the wait (R93). -/
theorem reaches_countDown (d : Duration) (n : Nat) {s t : State} (hN : s.resetN = true) (hr : s.run = true)
    (hs : s.stage = .count d) (hd : s.dly = n + 1) (ht : endWait d { s with dly := 0 } = .next t) : Reaches s t := by
  induction n generalizing s with
  | zero =>
    apply Reaches.engine hN (by simp [shifting, hs])
    rw [← ht]; simp [engineTurn, hr, hs, countDown, hd]
  | succ n ih =>
    have h1 : engineTurn s = .next { s with dly := n + 1 } := by simp [engineTurn, hr, hs, countDown, hd]
    refine (Reaches.engine hN (by simp [shifting, hs]) h1).trans ?_
    exact ih (s := { s with dly := n + 1 }) hN hr hs rfl ht

/-- What a wait of d leaves. -/
def waited (d : Duration) (s : State) : State :=
  { s with dly := 0, stage := .begin, trace := s.trace ++ waitEvents d }

theorem endWait_eq (d : Duration) {s : State} (hd : s.dly = 0) : endWait d s = advance (waited d s) := by
  unfold endWait
  have : (if d.positive = true then emit (.wait d) s else s) = { waited d s with stage := s.stage } := by
    unfold waited waitEvents; split <;> simp [emit, ← hd]
  rw [this, advance_anyStage]

theorem reaches_waited (d : Duration) {s t : State} (hN : s.resetN = true) (hr : s.run = true)
    (hs : shifting s = false) (he : engineTurn s = startWait d s) (ht : advance (waited d s) = .next t) :
    Reaches s t := by
  unfold startWait at he
  split at he
  · apply Reaches.engine hN hs
    rw [he, endWait_eq _ rfl]; exact ht
  · refine (Reaches.engine hN hs he).trans ?_
    refine reaches_countDown d (d.count - 1) (s := { s with dly := d.count, stage := .count d }) hN hr rfl
      (by simp only; omega) ?_
    rw [endWait_eq _ rfl]; exact ht

/-- What a micro-op leaves when it has completed on a configured line, before POS moves on (R91 to R96). -/
def effect (m : MicroOp) (s : State) : State :=
  match m with
  | .send dc b =>
    { s with pinDc := dc, dr := b, shift := shifted s.trace.length b 8, bitcnt := 0#4, tc := true, stage := .begin,
             pinSck := false, pinMosi := b.getLsbD 0, dly := 0, trace := s.trace ++ sendEvents dc b }
  | .wait d => waited d s
  | .rst l => drivePinRst l s
  | .configure => configure s
  | .initd v => { s with initd := v }

/-- A micro-op that has not begun runs to its end, and POS moves on. -/
theorem reaches_microOp {s s' t : State} {m : MicroOp} (hN : s.resetN = true) (hr : s.run = true)
    (hs : s.stage = .begin) (hm : microOpAt s = .ok (m, s')) (hc : ∀ dc b, m = .send dc b → s.cfg = configuredCfg)
    (ht : advance (effect m s') = .next t) : Reaches s t := by
  have hsh : shifting s = false := by simp [shifting, hs]
  obtain ⟨bi, hs'⟩ := microOpAt_state hm
  have e : engineTurn s = beginMicroOp s := by simp [engineTurn, hr, hs]
  cases m with
  | send dc b =>
    have h1 : engineTurn s = .next (beginSend dc b s') := by rw [e]; simp [beginMicroOp, hm]
    refine (Reaches.engine hN hsh h1).trans ?_
    have h2 : engineTurn (beginSend dc b s') = .next (loadByte b (beginSend dc b s')) := by
      rw [hs']; simp [engineTurn, hr, beginSend]
    refine (Reaches.engine (by rw [hs']; exact hN) rfl h2).trans ?_
    have hc' := hc dc b rfl
    refine (reaches_lineDone b (by rw [hs']; exact hN) (by rw [hs']; exact hr) (by rw [hs']; exact hc')).trans ?_
    refine reaches_waited (.cycles Config.settleCycles) (by rw [hs']; exact hN) (by rw [hs']; exact hr) rfl ?_ ?_
    · unfold engineTurn; rw [if_pos (by rw [hs']; exact hr)]; rfl
    · rw [← ht]; congr 1
      simp [waited, lineDone, effect, beginSend, sendEvents]
  | wait d =>
    obtain ⟨rfl, _⟩ := microOpAt_wait hm
    exact reaches_waited d hN hr hsh (by rw [e]; simp [beginMicroOp, hm]) ht
  | rst l => exact Reaches.engine hN hsh (by rw [e]; simp [beginMicroOp, hm]; exact ht)
  | configure => exact Reaches.engine hN hsh (by rw [e]; simp [beginMicroOp, hm]; exact ht)
  | initd v => exact Reaches.engine hN hsh (by rw [e]; simp [beginMicroOp, hm]; exact ht)

end Sys2Proof.Machine
end

