-- ==== Sys2Proof/Laws/Program.lean ====
section
/-! SUPPORT. Laws/Program.lean: a host program beside the block (30_encoding.md R85): what one poll does, and programs
run one after the other. -/

namespace Sys2Proof.Machine

@[simp] theorem leaving_next (left : State → List HostStep) (t : State) :
    Result.leaving left (.next t) = .next (left t, t) := rfl

/-- Bit 0 of STATUS is BUSY (R24). -/
theorem getLsbD_statusWord_zero (s : State) : (statusWord s).getLsbD 0 = s.run := by
  simp only [statusWord, BitVec.getLsbD_or, getLsbD_flagBit]; simp

/-- The block after a read of STATUS: nothing but the model's records moves on. -/
def polled (s : State) : State := { s with reads := s.reads ++ [statusWord s], draws := s.draws + 4 }

theorem runTurn_readStatus {s : State} (hN : s.resetN = true) : runTurn (.host readStatus) s = .next (polled s) := by
  rw [runTurn_host hN]; rfl

/-- One poll of a wait: it answers STATUS, and the wait is over exactly if the block is idle (R85). -/
theorem hostMove_wait (rest : List HostStep) {s : State} (hN : s.resetN = true) :
    hostMove (.waitIdle :: rest) s = .next (if s.run then .waitIdle :: rest else rest, polled s) := by
  have e : idleSeen (polled s) = !s.run := by
    simp only [idleSeen, polled, List.getLast?_concat, Option.getD_some, getLsbD_statusWord_zero]
  simp only [hostMove, runTurn_readStatus hN, leaving_next, e]
  cases s.run <;> rfl

theorem runProgram_append {ks : List Pick} {p q : List HostStep} {s t : State}
    (h : runProgram ks p s = .next (q, t)) (ks' : List Pick) : runProgram (ks ++ ks') p s = runProgram ks' q t := by
  induction ks generalizing p s with
  | nil => cases h; rfl
  | cons k ks ih =>
    simp only [List.cons_append, runProgram] at h ⊢
    split at h
    · exact ih h
    · cases h
    · cases h

/-- The block's fair move leaves the program as it is. -/
theorem programMove_fair (p : List HostStep) (s : State) :
    programMove (if shifting s then .line else .engine) p s = (runTurn (fairTurn s) s).leaving fun _ => p := by
  unfold fairTurn; split <;> rfl

/-- Fair moves of the block are moves beside any program. -/
theorem Reaches.beside {s t : State} (h : Reaches s t) (p : List HostStep) :
    ∃ ks, runProgram ks p s = .next (p, t) := by
  obtain ⟨n, h⟩ := h
  induction n generalizing s with
  | zero => cases h; exact ⟨[], rfl⟩
  | succ n ih =>
    rw [fairRun_succ] at h
    split at h
    · rename_i w hw
      obtain ⟨ks, hk⟩ := ih h
      exact ⟨_ :: ks, by rw [runProgram, programMove_fair, hw]; exact hk⟩
    · cases h
    · cases h

/-- The host program p can be run to its end from s, leaving the block at t, whatever program follows. -/
def Runs (p : List HostStep) (s t : State) : Prop := ∀ q, ∃ ks, runProgram ks (p ++ q) s = .next (q, t)

theorem Runs.nil (s : State) : Runs [] s s := fun _ => ⟨[], rfl⟩

theorem Runs.append {p q : List HostStep} {s t u : State} (h : Runs p s t) (h' : Runs q t u) : Runs (p ++ q) s u := by
  intro r
  obtain ⟨ks, h⟩ := h (q ++ r)
  obtain ⟨ks', h'⟩ := h' r
  exact ⟨ks ++ ks', by rw [List.append_assoc, runProgram_append h, h']⟩

theorem Runs.toEnd {p : List HostStep} {s t : State} (h : Runs p s t) : ∃ ks, runProgram ks p s = .next ([], t) := by
  simpa using h []

/-- An access is one move of the host. -/
theorem runs_access {a : Access} {s t : State} (h : runTurn (.host a) s = .next t) : Runs [.access a] s t :=
  fun q => ⟨[.host], by simp [runProgram, programMove, hostMove, h]⟩

/-- A wait ends with the poll after the operation has ended (R85). -/
theorem runs_wait {s u : State} (h : Reaches s u) (hN : u.resetN = true) (hr : u.run = false) :
    Runs [.waitIdle] s (polled u) := by
  intro q
  obtain ⟨ks, h⟩ := h.beside ([.waitIdle] ++ q)
  exact ⟨ks ++ [.host], by rw [runProgram_append h]; simp [runProgram, programMove, hostMove_wait q hN, hr]⟩

end Sys2Proof.Machine
end

