-- ==== Sys2Proof/Laws/Trace.lean ====
section
/-! SUPPORT. Laws/Trace.lean: the bytes and the cycles of the traces the operations' rules give, and the loops of the
rules one pass at a time. -/

namespace Sys2Proof.Machine

/-! ## The bytes of a trace (R9) -/

@[simp] theorem bytesSent_nil : bytesSent [] = [] := rfl

@[simp] theorem bytesSent_append (a b : List Event) : bytesSent (a ++ b) = bytesSent a ++ bytesSent b := by
  simp [bytesSent]

@[simp] theorem bytesSent_byte (dc : Bool) (b : Byte) (t : List Event) :
    bytesSent (.byte dc b :: t) = (dc, b) :: bytesSent t := rfl

@[simp] theorem bytesSent_rst (l : Bool) (t : List Event) : bytesSent (.rst l :: t) = bytesSent t := rfl

@[simp] theorem bytesSent_cfg (t : List Event) : bytesSent (.cfg :: t) = bytesSent t := rfl

@[simp] theorem bytesSent_waitEvents (d : Duration) : bytesSent (waitEvents d) = [] := by
  unfold waitEvents; split <;> rfl

@[simp] theorem bytesSent_sendEvents (dc : Bool) (b : Byte) : bytesSent (sendEvents dc b) = [(dc, b)] := by
  simp [sendEvents]

@[simp] theorem bytesSent_delayEvents (d : Bool) : bytesSent (delayEvents d) = [] := by
  cases d <;> simp [delayEvents]

theorem bytesSent_flatMap {α : Type} (l : List α) (f : α → List Event) :
    bytesSent (l.flatMap f) = l.flatMap fun a => bytesSent (f a) := by
  induction l with
  | nil => rfl
  | cons a l ih => simp [ih]

@[simp] theorem bytesSent_seqEvents (es : List DcByte) : bytesSent (seqEvents es) = es := by
  simp [seqEvents, bytesSent_flatMap]

/-- A frame's bytes: eight pages of three address bytes and 128 data bytes (R121, R122, R150). -/
theorem bytesSent_frameEvents (d : Bool) (f : Nat → Nat → Byte) :
    bytesSent (frameEvents d f) = (List.range' 0 8).flatMap fun p =>
      [(false, pageSelectByte (BitVec.ofNat 3 p)), (false, columnLowByte 0#8), (false, columnHighByte 0#8)]
        ++ (List.range' 0 128).map fun c => (true, f p c) := by
  simp [frameEvents, pageEvents, headerEvents, columnEvents, bytesSent_flatMap, Config.pages, Config.cols,
    ← List.map_eq_flatMap]

/-- The element of a concatenation of blocks of one length. -/
theorem getElem?_flatMap_blocks {α β : Type} {n : Nat} (hn : 0 < n) {g : α → List β} (hg : ∀ a, (g a).length = n)
    (l : List α) (k : Nat) : (l.flatMap g)[k]? = (l[k / n]?).bind fun a => (g a)[k % n]? := by
  induction l generalizing k with
  | nil => simp
  | cons a l ih =>
    rw [List.flatMap_cons]
    by_cases h : k < n
    · rw [List.getElem?_append_left (by rw [hg]; exact h)]
      simp [Nat.div_eq_of_lt h, Nat.mod_eq_of_lt h]
    · rw [List.getElem?_append_right (by rw [hg]; omega), hg, ih]
      obtain ⟨j, rfl⟩ : ∃ j, k = j + n := ⟨k - n, by omega⟩
      simp [Nat.add_div_right j hn]

/-! ## The loops, one pass at a time -/

theorem columnEvents_step (d : Bool) (f : Nat → Nat → Byte) (y : Nat) {x : Nat} (hx : x < 128) :
    columnEvents d f y x = sendEvents true (f y x) ++ delayEvents d ++ columnEvents d f y (x + 1) := by
  unfold columnEvents
  rw [show Config.cols - x = (Config.cols - (x + 1)) + 1 by simp [Config.cols]; omega, List.range'_succ,
    List.flatMap_cons]

theorem columnEvents_end (d : Bool) (f : Nat → Nat → Byte) (y : Nat) : columnEvents d f y 128 = [] := rfl

theorem pageEvents_step (d : Bool) (f : Nat → Nat → Byte) {y : Nat} (hy : y < 8) :
    pageEvents d f y = headerEvents y ++ columnEvents d f y 0 ++ pageEvents d f (y + 1) := by
  unfold pageEvents
  rw [show Config.pages - y = (Config.pages - (y + 1)) + 1 by simp [Config.pages]; omega, List.range'_succ,
    List.flatMap_cons]

theorem pageEvents_end (d : Bool) (f : Nat → Nat → Byte) : pageEvents d f 8 = [] := rfl

theorem glyphEvents_step (c : Byte) {k : Nat} (hk : k < 5) :
    glyphEvents c k = sendEvents true (glyph (glyphClass c) (Fin.ofNat 5 k)) ++ glyphEvents c (k + 1) := by
  unfold glyphEvents
  rw [show Config.charWidth - k = (Config.charWidth - (k + 1)) + 1 by simp [Config.charWidth]; omega,
    List.range'_succ, List.flatMap_cons]

theorem seqEvents_cons (e : DcByte) (r : List DcByte) : seqEvents (e :: r) = sendEvents e.1 e.2 ++ seqEvents r := rfl

/-! ## Minimum cycles (R191) -/

@[simp] theorem traceCycles_append (a b : List Event) : traceCycles (a ++ b) = traceCycles a + traceCycles b := by
  induction a with
  | nil => simp [traceCycles]
  | cons e a ih => cases e <;> simp [traceCycles, ih, Nat.add_assoc]

theorem traceCycles_flatMap {α : Type} (l : List α) {f : α → List Event} {c : Nat} (h : ∀ a, traceCycles (f a) = c) :
    traceCycles (l.flatMap f) = l.length * c := by
  induction l with
  | nil => simp [traceCycles]
  | cons a l ih => simp [ih, h]; ring

theorem traceCycles_waitEvents (d : Duration) : traceCycles (waitEvents d) = d.count := by
  unfold waitEvents
  split
  · simp [traceCycles]
  · rename_i h
    cases d <;> simp [Duration.positive] at h <;> subst h <;> simp [traceCycles, Duration.count]

theorem traceCycles_sendEvents (dc : Bool) (b : Byte) :
    traceCycles (sendEvents dc b) = 8 * Config.prescaler + Config.settleCycles := by
  simp [sendEvents, traceCycles, traceCycles_waitEvents, Duration.count]

end Sys2Proof.Machine
end

