-- ==== Sys2Proof/Tests/Slice0.lean ====
section
/-! SUPPORT. Tests/Slice0.lean: small tests of single moves, with expected values from spec/95_test_vectors.md and the
rules, and a witness for the hypotheses of each statement of Certificates/Slice0/Obligations.lean. -/

namespace Sys2Proof.Tests

open Sys2Proof Sys2Proof.Machine

/-! ## WellFormed: an ill-formed term for each check, refused -/

/-- 95 DE2 to DE4: OPC 0x0, 0xA and 0xF are reserved (R73). -/
theorem test_opcAssigned_refuses : opcAssigned 0x00000000#32 = false ∧ opcAssigned 0x0000000A#32 = false ∧
    opcAssigned 0x0000000F#32 = false := by decide

/-- 95 DE5 to DE8 and DE12: bits 4, 23, 27 and 31 are reserved (R74). -/
theorem test_reservedClear_refuses : reservedClear 0x00000016#32 = false ∧ reservedClear 0x00800008#32 = false ∧
    reservedClear 0x08000008#32 = false ∧ reservedClear 0x80000001#32 = false ∧
    reservedClear 0x00FF0006#32 = false := by decide

/-- A word is legal only if both hold (R161). -/
theorem test_wordLegal_refuses : wordLegal 0x0000000A#32 = false ∧ wordLegal 0x00000016#32 = false := by decide

/-- The assembler writes 0 in every field an operation does not use (R84). -/
theorem test_assembled_refuses : Instr.assembled (.config 1#8 0#7 0#3) = false ∧
    Instr.assembled (.reset 0#8 1#7 0#3) = false ∧ Instr.assembled (.cmd 0xAF#8 0#7 1#3) = false ∧
    Instr.assembled (.data 0x55#8 1#7 0#3) = false ∧ Instr.assembled (.init 0#8 0#7 7#3) = false ∧
    Instr.assembled (.clear 0xFF#8 127#7 7#3) = false ∧ Instr.assembled (.draw 1#8 0#7 0#3) = false ∧
    Instr.assembled (.print 1#8 10#7 2#3) = false ∧ Instr.assembled (.testfill 0#8 0#7 1#3) = false := by decide

/-- A TEXT size of 0, 6 or 1028 bytes is not legal; 64 is (R55). -/
theorem test_textSizeOk : textSizeOk 0 = false ∧ textSizeOk 6 = false ∧ textSizeOk 1028 = false ∧
    textSizeOk Config.textBytes = true := by decide

/-- A prescaler of 1, 3 or 512 is not legal (R6). -/
theorem test_prescalerOk : prescalerOk 1 = false ∧ prescalerOk 3 = false ∧ prescalerOk 512 = false := by decide

/-! ## Decoding: one word per constructor, its bits written out from the encoding of R70 and R84 -/

theorem test_decode_config : decode 0b00000000000000000000000000000001#32 = .ok (.config 0#8 0#7 0#3) := by decide
theorem test_decode_reset : decode 0b00000000000000000000000000000010#32 = .ok (.reset 0#8 0#7 0#3) := by decide
theorem test_decode_cmd : decode 0b00000000000000001010111100000011#32 = .ok (.cmd 0xAF#8 0#7 0#3) := by decide
theorem test_decode_data : decode 0b00000000000000000101010100000100#32 = .ok (.data 0x55#8 0#7 0#3) := by decide
theorem test_decode_init : decode 0b00000000000000000000000000000101#32 = .ok (.init 0#8 0#7 0#3) := by decide
theorem test_decode_clear : decode 0b00000111011111111111111100000110#32 = .ok (.clear 0xFF#8 127#7 7#3) := by decide
theorem test_decode_draw : decode 0b00000000000000000000000000000111#32 = .ok (.draw 0#8 0#7 0#3) := by decide
theorem test_decode_print : decode 0b00000010000010100000000000001000#32 = .ok (.print 0#8 10#7 2#3) := by decide
theorem test_decode_testfill : decode 0b00000000000000000000000000001001#32 = .ok (.testfill 0#8 0#7 0#3) := by decide

/-- A word with a reserved bit, and one with a reserved OPC, are refused by name (R73, R74). -/
theorem test_decode_refuses : decode 0x00800008#32 = .error .reservedBits ∧
    decode 0x0000000A#32 = .error .reservedOpc := by decide

/-- The encoder writes the assembler's words (R84). -/
theorem test_encode : encode (.print 0#8 127#7 7#3) = 0x077F0008#32 ∧ encode (.cmd 0xAF#8 0#7 0#3) = 0x0000AF03#32 := by
  decide

theorem test_decodeTableWord : decodeTableWord 32 0x0000AF03 = some (.cmd 0xAF#8 0#7 0#3) ∧
    decodeTableWord 8 0x0000AF03 = some (.cmd 0#8 0#7 0#3) ∧ decodeTableWord 32 0x16 = none := by decide

/-! ## States -/

/-- The idle block after CONFIG. -/
def configured : State := { State.reset with cfg := configuredCfg, pinCs := false }

/-- The block right after an accepted OP write. -/
def running (i : Instr) : State := started (encode i) configured

/-- What a test looks at in the next state. -/
def seen {α : Type} (r : Result) (f : State → α) : Option α :=
  match r with
  | .next s => some (f s)
  | .fault _ => none
  | .refused _ => none

/-- STATUS after a result. -/
def statusOf (s : State) : Bool × Bool × Bool × Bool :=
  (s.run, s.errIllegal, s.errBusy, s.errNotcfg)

/-! ## One OP write -/

/-- The word placed at the fetch is what the next step runs, from reset (R76; 95 DE14). -/
theorem test_step_withFetchWord :
    seen (step (State.reset.withFetchWord 32 0x00000002)) (fun s => (s.run, s.cur, s.pos)) =
      some (true, 0x00000002#32, .initdClear) := by decide

/-- 95 T1: CONFIG needs no configuration. -/
theorem test_config_starts : seen (exec (.config 0#8 0#7 0#3) State.reset) (fun s => (s.run, s.cur, s.pos)) =
    some (true, 0x00000001#32, .configure) := by decide

/-- 95 T1: its micro-op emits Cfg, asserts CS and ends the operation. -/
theorem test_config_runs :
    seen (engineTurn (started 0x00000001#32 State.reset))
      (fun s => (s.run, s.cfg.spe, s.pinCs, s.pinSck, s.trace)) = some (false, true, false, false, [.cfg]) := by decide

/-- 95 DE14: RESET needs no configuration; its first micro-op clears INITD (R99). -/
theorem test_reset_first :
    seen (engineTurn (started 0x00000002#32 { State.reset with initd := true })) (fun s => (s.initd, s.pos, s.trace)) =
      some (false, .rstLow, []) := by decide

/-- 95 T3: its second drives RST low. -/
theorem test_reset_second :
    seen (engineTurn { started 0x00000002#32 State.reset with pos := .rstLow }) (fun s => (s.pinRst, s.pos, s.trace)) =
      some (false, .lowWait, [.rst false]) := by decide

/-- 95 DE1: CMD on the unconfigured block raises ERR_NOTCFG, and OP stays 0. -/
theorem test_cmd_unconfigured : seen (opWrite 0x0000AF03#32 State.reset) (fun s => (statusOf s, s.cur)) =
    some ((false, false, false, true), 0x00000000#32) := by decide

/-- 95 T4, R91 step 1: CMD drives DC low before its byte. -/
theorem test_cmd_send : seen (engineTurn { running (.cmd 0xAF#8 0#7 0#3) with pinDc := true })
    (fun s => (s.pinDc, s.stage)) = some (false, .load 0xAF#8) := by decide

/-- 95 T5: DATA drives DC high before its byte. -/
theorem test_data_send : seen (engineTurn (running (.data 0x55#8 0#7 0#3))) (fun s => (s.pinDc, s.stage)) =
    some (true, .load 0x55#8) := by decide

/-- R91 step 2: the byte is loaded and TC falls. -/
theorem test_data_load : seen (engineTurn { running (.data 0x55#8 0#7 0#3) with stage := .load 0x55#8 })
    (fun s => (s.tc, s.bitcnt, s.dr, s.stage)) = some (false, 8#4, 0x55#8, .shift .setUp) := by decide

/-- 95 DE15: INIT needs no configuration. -/
theorem test_init_starts : seen (opWrite 0x00000005#32 State.reset) (fun s => (s.run, s.pos)) =
    some (true, .initdClear) := by decide

/-- R110: INIT's last micro-op sets INITD and ends the operation. -/
theorem test_init_last : seen (engineTurn { running (.init 0#8 0#7 0#3) with pos := .initdSet })
    (fun s => (s.initd, s.run)) = some (true, false) := by decide

/-- 95 DE13: CLEAR ignores ARG, X and Y, and OP reads back the word. -/
theorem test_clear_starts : seen (opWrite 0x077FFF06#32 configured) (fun s => (s.run, s.cur, s.pos, s.pg)) =
    some (true, 0x077FFF06#32, .pageSelect, 0#3) := by decide

/-- 95 X2: page 7 begins with 0xB7. -/
theorem test_clear_page : seen (engineTurn { running (.clear 0#8 0#7 0#3) with pg := 7#3 })
    (fun s => (s.pinDc, s.stage)) = some (false, .load 0xB7#8) := by decide

/-- 95 DR3: with BMP[0x070] = 0x01 column 7 of page 0 is 0x80. -/
theorem test_draw_column :
    seen (engineTurn { running (.draw 0#8 0#7 0#3) with
      pos := .column, cx := 7#7
      mem := [(0x400, 0#8), (0x410, 0#8), (0x420, 0#8), (0x430, 0#8), (0x440, 0#8), (0x450, 0#8), (0x460, 0#8),
              (0x470, 0x01#8)] }) (fun s => (s.pinDc, s.stage, s.bi)) = some (true, .load 0x80#8, 7#3) := by decide

/-- 95 DR8: a BMP byte never written makes the model fault. -/
theorem test_draw_unwritten : runTurn .engine { running (.draw 0#8 0#7 0#3) with pos := .column, cx := 40#7 } =
    .fault .bmpUnwritten := by rfl

/-- 95 P4: the second character at X = 127 is at column 133: pair 05 18. -/
theorem test_print_pair : charColumn 127#7 1 = 133#8 ∧ columnLowByte 133#8 = 0x05#8 ∧ columnHighByte 133#8 = 0x18#8 ∧
    charColumn 127#7 22 = 3#8 := by decide

/-- 95 P11: PRINT faults when it reads a TEXT byte never written. -/
theorem test_print_unwritten :
    runTurn .engine { running (.print 0#8 0#7 0#3) with
      pos := .glyphByte, gk := 4#3, mem := [(0x800, 0x41#8)], stage := .count (.cycles 5), dly := 1 } =
      .fault .textUnwritten := by rfl

/-- 95 TF1, TF3: TESTFILL sends 0xFF, and needs the configuration. -/
theorem test_testfill_column : seen (engineTurn { running (.testfill 0#8 0#7 0#3) with pos := .column })
    (fun s => (s.pinDc, s.stage)) = some (true, .load 0xFF#8) := by decide

theorem test_testfill_unconfigured : seen (opWrite 0x00000009#32 State.reset) statusOf =
    some (false, false, false, true) := by decide

/-- 95 DE9 and DE10: illegal is tested before not configured, busy before illegal (R164). -/
theorem test_error_order : seen (opWrite 0x00000013#32 State.reset) statusOf = some (false, true, false, false) ∧
    seen (opWrite 0x0000000A#32 (running (.clear 0#8 0#7 0#3))) statusOf = some (true, false, true, false) := by decide

/-! ## The window, the line and the glyphs -/

/-- 95 M2, M4: little-endian words, and a half-word over the upper bytes. -/
theorem test_window_bytes :
    readValue 0x400#12 .b4 (hostStore 0x402 (bytesOf .b2 0xBEEF#32)
      (hostStore 0x400 (bytesOf .b4 0x04030201#32) State.reset)) = 0xBEEF0201#32 := by decide

/-- 95 M7: a byte write to OP is ignored. -/
theorem test_window_byteToOp : hostWrite 0x000#12 .b1 0x01#32 State.reset = .next State.reset := by rfl

/-- 95 M10, M12: write-1-to-clear of STATUS. -/
theorem test_status_clear :
    statusOf (clearErrors 0x00000200#32 { State.reset with errIllegal := true, errBusy := true, errNotcfg := true }) =
      (false, true, false, true) := by decide

/-- 95 T8: bit 7 of 0xA5, a 1, is on MOSI first, and SCK is high then. -/
theorem test_line_bit :
    (fun t : State => (t.pinMosi, t.pinSck)) (lineTurn^[2] (loadByte 0xA5#8 (running (.cmd 0xA5#8 0#7 0#3)))) =
    (true, true) := by decide

/-- 95 T8: the second bit of 0xA5 is 0, whatever fills SHIFT. -/
theorem test_line_secondBit :
    (lineTurn^[5] (loadByte 0xA5#8 (running (.cmd 0xA5#8 0#7 0#3)))).pinMosi = false := by
  obtain ⟨p, m, h⟩ := lineTurn_bits 0xA5#8 (s := running (.cmd 0xA5#8 0#7 0#3)) rfl rfl (j := 1) (by decide)
  rw [show (5 : Nat) = (3 * 1 + 1) + 1 from rfl, Function.iterate_succ_apply', Function.iterate_succ_apply', h,
    lineTurn_setUp _ rfl rfl (by decide), lineTurn_firstEdge _ rfl rfl]
  rfl

/-- 95 X1: '!' and '@' are blank, and 'a' is 'A'. -/
theorem test_glyphs : glyphClass 0x21#8 = .blank ∧ glyphClass 0x40#8 = .blank ∧ glyphClass 0x61#8 = glyphClass 0x41#8 ∧
    glyph (glyphClass 0x61#8) 2 = 0x05#8 := by decide

/-- 95 RH1: block reset cuts the byte in flight. -/
theorem test_reset_cuts :
    seen (runTurn (.resetPin false) (loadByte 0x12#8 (running (.clear 0#8 0#7 0#3))))
      (fun s => (s.run, s.tc, s.pinCs, s.trace)) = some (false, true, true, []) := by decide

/-! ## Witnesses: a state and operands that meet the hypotheses of each statement -/

/-- A memory with the byte f a at each of n offsets from a on. -/
def filled (f : Nat → Byte) (a n : Nat) : Memory := (List.range' a n).map fun k => (k, f k)

theorem read_filled (f : Nat → Byte) {a n k : Nat} (h1 : a ≤ k) (h2 : k < a + n) :
    (filled f a n).read k = some (f k) := by
  induction n generalizing a with
  | zero => omega
  | succ n ih =>
    simp only [filled, List.range'_succ, List.map_cons, Memory.read]
    split
    · subst_vars; rfl
    · exact ih (a := a + 1) (by omega) (by omega)

/-- The configured block with a bitmap and with the string "A" in TEXT. -/
def ready : State := { configured with mem := filled (fun _ => 0xAA#8) 0x400 1024 ++ [(0x800, 0x41#8), (0x801, 0x00#8)] }

/-- The configured block with the string "A" in TEXT. -/
def texted : State := { configured with mem := [(0x800, 0x41#8), (0x801, 0x00#8)] }

theorem read_append {m m' : Memory} {k : Nat} {b : Byte} (h : m.read k = some b) : Memory.read (m ++ m') k = some b := by
  induction m with
  | nil => simp [Memory.read] at h
  | cons c m ih =>
    obtain ⟨j, d⟩ := c
    simp only [List.cons_append, Memory.read] at h ⊢
    split
    · simp_all
    · simp_all

theorem configured_inv : Inv configured := by
  constructor <;> simp [configured, State.reset, shifting, configuredCfg, Memory.wf, Config.spiMode]

theorem texted_inv : Inv texted := by
  constructor <;> simp [texted, configured, State.reset, shifting, configuredCfg, Memory.wf, Config.spiMode, bmpBase,
    textBase, Config.textBytes]

theorem ready_wf : ready.mem.wf := by
  unfold ready filled Memory.wf
  simp only
  rw [List.pairwise_append, List.pairwise_map]
  refine ⟨List.pairwise_lt_range', by simp, ?_⟩
  intro a ha b hb
  simp only [List.mem_map, List.mem_range'_1] at ha
  obtain ⟨k, hk, rfl⟩ := ha
  simp at hb
  rcases hb with rfl | rfl <;> simp only <;> omega

theorem ready_inBuffers : ∀ p ∈ ready.mem, bmpBase ≤ p.1 ∧ p.1 < textBase + Config.textBytes := by
  intro p hp
  simp only [ready, filled, List.mem_append, List.mem_map, List.mem_range'_1] at hp
  rcases hp with ⟨k, hk, rfl⟩ | hp
  · simp only [bmpBase, textBase, Config.textBytes]; omega
  · simp at hp
    rcases hp with rfl | rfl <;> decide

theorem ready_inv : Inv ready := by
  refine ⟨ready_wf, ready_inBuffers, ?_, ?_, .inr rfl, rfl, rfl, rfl, ?_, ?_, .inr rfl, ?_, ?_, ?_, ?_, ?_, by decide,
    rfl, ?_⟩ <;> simp [ready, configured, State.reset, shifting, configuredCfg, Config.spiMode]

theorem running_inv {i : Instr} (h : placeOf i.opc (firstPlace i.opc) = true)
    (hp : firstPlace i.opc ≠ .lowWait ∧ firstPlace i.opc ≠ .rstHigh) (hc : inChar (firstPlace i.opc) = false) :
    Inv (running i) := by
  constructor <;>
    simp_all [running, started, configured, State.reset, shifting, configuredCfg, Memory.wf, Config.spiMode]

/-- A byte of a running CMD on the line. -/
def onTheLine : State := loadByte 0xA5#8 (running (.cmd 0xA5#8 0#7 0#3))

theorem test_witness_EncodeOfDecode : decode 0x020A0008#32 = .ok (.print 0#8 10#7 2#3) := by decide

theorem test_witness_MaskSelectsOperation : 0x00800008#32 &&& 0xF88000F0#32 ≠ 0#32 ∧
    0x8000001F#32 &&& 0xF88000F0#32 ≠ 0#32 := by decide

theorem test_witness_StepRunsTheDecodedInstruction :
    (State.reset.withFetchWord 32 5).resetN = true ∧
    (State.reset.withFetchWord 32 5).turns = .host (.write 0x000#12 .b4 0x00000005#32) :: [] ∧
    decode 0x00000005#32 = .ok (.init 0#8 0#7 0#3) ∧ State.reset.turns = [] := by decide

theorem test_witness_OpWriteOutcomes :
    ((running (.clear 0#8 0#7 0#3)).resetN = true ∧ (running (.clear 0#8 0#7 0#3)).run = true) ∧
    (State.reset.run = false ∧ illegalWord 0x00000000#32 ∧ illegalWord 0x0000000A#32 ∧ illegalWord 0x00800008#32 ∧
      illegalWord 0x08000008#32 ∧ illegalWord 0x00000016#32) ∧
    (¬ illegalWord 0x00000009#32 ∧ transferOpc ((0x00000009#32).extractLsb' 0 4) = true ∧
      State.reset.cfg.spe = false) ∧
    (¬ illegalWord 0x00000001#32 ∧ transferOpc ((0x00000001#32).extractLsb' 0 4) = false ∧
      configured.cfg.spe = true ∧ configured.run = false) := by
  refine ⟨⟨rfl, rfl⟩, ⟨rfl, ?_⟩, ?_, ?_⟩ <;> unfold illegalWord <;> decide

theorem test_witness_UnconfiguredTransferRaisesErrNotcfg : State.reset.run = false ∧ State.reset.cfg.spe = false ∧
    seen (exec (.init 0#8 0#7 0#3) State.reset) (fun s => s.errNotcfg) = some false := by decide

theorem test_witness_ConfigResetInitStart : State.reset.run = false ∧ configured.run = false := by decide

theorem test_witness_TransferOperationsStart : configured.run = false ∧ configured.cfg.spe = true := by decide

theorem test_witness_ExecFrame :
    exec (.cmd 1#8 2#7 3#3) State.reset = .next { State.reset with errNotcfg := true } ∧
    (∃ t, exec (.draw 0#8 0#7 0#3) configured = .next t) ∧
    (∃ t, exec (.draw 0#8 0#7 0#3) (running (.clear 0#8 0#7 0#3)) = .next t) :=
  ⟨rfl, ⟨_, rfl⟩, ⟨_, rfl⟩⟩

theorem test_witness_OpReadsLastAcceptedDescriptor :
    seen (runTurn (.host (.write 0x000#12 .b4 0x077FFF06#32)) configured) (fun t => (configured.run, t.run, t.cur)) =
      some (false, true, 0x077FFF06#32) ∧
    seen (runTurn (.host (.write 0x000#12 .b4 0x00000016#32)) configured) (fun t => t.cur) = some 0#32 ∧
    illegalWord 0x00000016#32 := by
  refine ⟨?_, ?_, ?_⟩
  · decide
  · decide
  · unfold illegalWord; decide

/-- Every statement about one host access: RESET_N is released. -/
theorem test_witness_StatusWriteClearsFlags : State.reset.resetN = true := by decide

theorem test_witness_RegistersTakeAlignedWordsOnly : State.reset.resetN = true ∧
    ((0x00F#12).toNat < 0x010 ∧ Width.b1 ≠ .b4) ∧ ((0x000#12).toNat < 0x010 ∧ Width.b2 ≠ .b4) ∧
    ((0x00D#12).toNat < 0x010 ∧ (0x00D#12).toNat % 4 ≠ 0) := by decide

/-- Both branches at their boundaries: the first and the last buffer byte, and below, above and misaligned. -/
theorem test_witness_OnlyOpAndStatusWritesHaveSideEffects : State.reset.resetN = true ∧
    ¬ (Width.b4 = .b4 ∧ (0x008#12 = 0x000#12 ∨ 0x008#12 = 0x004#12)) ∧
    ¬ (Width.b2 = .b4 ∧ (0x000#12 = 0x000#12 ∨ 0x000#12 = 0x004#12)) ∧
    (0x400 ≤ (0x400#12).toNat ∧ (0x400#12).toNat < 0x800 + Config.textBytes ∧
      (0x400#12).toNat % Width.bytes .b4 = 0) ∧
    (0x400 ≤ (0x83F#12).toNat ∧ (0x83F#12).toNat < 0x800 + Config.textBytes ∧
      (0x83F#12).toNat % Width.bytes .b1 = 0) ∧
    (0x3FF#12).toNat < 0x400 ∧ 0x800 + Config.textBytes ≤ (0x840#12).toNat ∧
    (0x401#12).toNat % Width.bytes .b2 ≠ 0 := by decide

theorem test_witness_ReservedOffsetsAreInert : State.reset.resetN = true ∧
    (0x010 ≤ (0x010#12).toNat ∧ (0x010#12).toNat ≤ 0x3FF) ∧ (0x010 ≤ (0x3FF#12).toNat ∧ (0x3FF#12).toNat ≤ 0x3FF) ∧
    0x800 + Config.textBytes ≤ (0x840#12).toNat ∧ 0x800 + Config.textBytes ≤ (0xFFF#12).toNat := by decide

theorem test_witness_MisalignedBufferAccessIsInert : State.reset.resetN = true ∧
    (0x400 ≤ (0x402#12).toNat ∧ (0x402#12).toNat < 0x800 + Config.textBytes ∧ (0x402#12).toNat % Width.bytes .b4 ≠ 0) ∧
    (0x400 ≤ (0x83F#12).toNat ∧ (0x83F#12).toNat < 0x800 + Config.textBytes ∧ (0x83F#12).toNat % Width.bytes .b2 ≠ 0) ∧
    ((0x83C#12).toNat < 0x800 + Config.textBytes ∧ (0x83C#12).toNat % Width.bytes .b4 = 0) := by decide

theorem test_witness_BufferWriteStoresItsBytes : configured.resetN = true ∧
    (0x400 ≤ (0x400#12).toNat ∧ (0x400#12).toNat < 0x800 + Config.textBytes ∧ (0x400#12).toNat % Width.bytes .b4 = 0) ∧
    (0x400 ≤ (0x83F#12).toNat ∧ (0x83F#12).toNat < 0x800 + Config.textBytes ∧
      (0x83F#12).toNat % Width.bytes .b1 = 0) := by decide

theorem test_witness_BufferReadIsLittleEndian : texted.resetN = true ∧ 0x400 ≤ (0x800#12).toNat ∧
    (0x800#12).toNat < 0x800 + Config.textBytes ∧ (0x800#12).toNat % Width.bytes .b2 = 0 ∧
    (∀ j, j < Width.bytes .b2 → hostByte texted ((0x800#12).toNat + j) = some (if j = 0 then 0x41#8 else 0x00#8)) := by
  decide

/-- A running DRAW beside which one write already races. -/
def raced : State := hostStore 0x400 [0x55#8] (running (.draw 0#8 0#7 0#3))

/-- With no write racing before, and with one. -/
theorem test_witness_RacingWriteShowsOldOrNew :
    ((running (.draw 0#8 0#7 0#3)).resetN = true ∧ (running (.draw 0#8 0#7 0#3)).run = true ∧
      opcField (running (.draw 0#8 0#7 0#3)).cur = 0x7#4 ∧ (running (.draw 0#8 0#7 0#3)).posted = []) ∧
    (raced.resetN = true ∧ raced.run = true ∧ opcField raced.cur = 0x7#4 ∧ raced.posted.length = 1) ∧
    (opcField (running (.print 0#8 10#7 2#3)).cur = 0x8#4 ∧ (running (.print 0#8 10#7 2#3)).run = true) ∧
    0x400 ≤ (0x400#12).toNat ∧ (0x400#12).toNat % Width.bytes .b4 = 0 ∧ (0x83F#12).toNat % Width.bytes .b1 = 0 := by
  decide

/-- R64, R66: two racing writes to one byte reach the engine in the host's order. -/
theorem test_race_order :
    (drainOne (hostStore 0x400 [0xAA#8] raced)).mem.read 0x400 = some 0x55#8 ∧
    (drainOne (drainOne (hostStore 0x400 [0xAA#8] raced))).mem.read 0x400 = some 0xAA#8 := by decide

theorem test_witness_OnlyHostWritesChangeBuffers : texted.resetN = true ∧ runTurn .engine texted = .next texted ∧
    Turn.engine ≠ .resetPin false ∧ ∀ off n v, Turn.engine = .host (.write off n v) →
      off.toNat < 0x400 ∨ 0x800 + Config.textBytes ≤ off.toNat :=
  ⟨rfl, rfl, by simp, by simp⟩

theorem test_witness_ByteGoesOutMsbFirst : (running (.cmd 0xA5#8 0#7 0#3)).run = true ∧
    (running (.cmd 0xA5#8 0#7 0#3)).cfg = configuredCfg := ⟨rfl, rfl⟩

theorem test_witness_StuckLineHangs : onTheLine.resetN = true ∧ onTheLine.run = true ∧ onTheLine.tc = false ∧
    shifting onTheLine = true ∧
    ∀ t ∈ [Turn.engine, .drain, .resetPin true, .host (.write 0x000#12 .b4 0x00000006#32)],
      t ≠ .line ∧ t ≠ .resetPin false := by decide

theorem test_witness_DcChangesOnlyAtSend :
    seen (runTurn .engine (running (.data 0x55#8 0#7 0#3))) (fun u => u.pinDc) = some true ∧
    (running (.data 0x55#8 0#7 0#3)).pinDc = false ∧ (running (.data 0x55#8 0#7 0#3)).resetN = true ∧
    seen (runTurn (.resetPin false) { configured with pinDc := true }) (fun u => u.pinDc) = some false := by decide

theorem test_witness_CfgChangesOnlyByConfigure :
    seen (runTurn .engine (started 0x00000001#32 State.reset)) (fun u => u.cfg.spe) = some true ∧
    (started 0x00000001#32 State.reset).cfg.spe = false ∧
    seen (runTurn (.resetPin false) configured) (fun u => u.cfg.spe) = some false ∧ configured.cfg.spe = true ∧
    0x00C ≤ (0x00C#12).toNat ∧ (0x00F#12).toNat < 0x010 := by decide

theorem test_witness_RstChangesOnlyInPulse :
    seen (runTurn .engine { running (.reset 0#8 0#7 0#3) with pos := .rstLow }) (fun u => u.pinRst) = some false ∧
    seen (runTurn .engine { running (.reset 0#8 0#7 0#3) with pos := .rstHigh, pinRst := false })
      (fun u => u.pinRst) = some true ∧
    seen (runTurn (.resetPin false) { running (.reset 0#8 0#7 0#3) with pinRst := false }) (fun u => u.pinRst) =
      some true := by decide

theorem test_witness_InitdChangesOnlyInResetAndInit :
    seen (runTurn .engine { running (.reset 0#8 0#7 0#3) with initd := true }) (fun u => u.initd) = some false ∧
    seen (runTurn .engine { running (.init 0#8 0#7 0#3) with pos := .initdSet }) (fun u => u.initd) = some true ∧
    seen (runTurn (.resetPin false) { configured with initd := true }) (fun u => u.initd) = some false := by decide

theorem test_witness_ConfigCompletes : Inv State.reset ∧ State.reset.resetN = true ∧ State.reset.run = false := by
  refine ⟨?_, rfl, rfl⟩
  constructor <;> simp [State.reset, shifting, CfgReg.atReset, Memory.wf]

theorem test_witness_ResetCompletes : Inv configured ∧ configured.resetN = true ∧ configured.run = false :=
  ⟨configured_inv, rfl, rfl⟩

theorem test_witness_InitCompletes : Inv ready ∧ ready.resetN = true ∧ ready.run = false := ⟨ready_inv, rfl, rfl⟩

/-- CMD and DATA, CLEAR and TESTFILL. -/
theorem test_witness_CmdAndDataComplete :
    Inv configured ∧ configured.resetN = true ∧ configured.run = false ∧ configured.cfg.spe = true :=
  ⟨configured_inv, rfl, rfl, rfl⟩

theorem test_witness_ClearCompletes :
    Inv configured ∧ configured.resetN = true ∧ configured.run = false ∧ configured.cfg.spe = true :=
  ⟨configured_inv, rfl, rfl, rfl⟩

theorem test_witness_DrawCompletes : Inv ready ∧ ready.resetN = true ∧ ready.run = false ∧ ready.cfg.spe = true ∧
    bmpWritten ready.mem := by
  refine ⟨ready_inv, rfl, rfl, rfl, fun a h1 h2 => ?_⟩
  have h : (filled (fun _ => 0xAA#8) 0x400 1024).read a = some 0xAA#8 :=
    read_filled (fun _ => 0xAA#8) h1 (by unfold textBase at h2; omega)
  have h' : ready.mem.read a = some 0xAA#8 := read_append h
  rw [h']; rfl

theorem test_witness_PrintCompletes : Inv texted ∧ texted.resetN = true ∧ texted.run = false ∧ texted.cfg.spe = true ∧
    textWritten texted.mem Config.textBytes 0 = true := ⟨texted_inv, rfl, rfl, rfl, rfl⟩

theorem test_witness_TestfillCompletes :
    Inv configured ∧ configured.resetN = true ∧ configured.run = false ∧ configured.cfg.spe = true :=
  ⟨configured_inv, rfl, rfl, rfl⟩

/-- The settle delay of PRINT's page select, with nothing in TEXT. -/
def selected : State := { running (.print 0#8 0#7 0#3) with stage := .settle }

/-- The settle delay of the last glyph byte of character 0, with TEXT[1] never written (95 P11). -/
def glyphDone : State :=
  { running (.print 0#8 0#7 0#3) with
    pos := .glyphByte, gk := 4#3, stage := .count (.cycles 3), dly := 1, mem := [(0x800, 0x41#8)] }

/-- The first clause; the second at printSelect from .settle, and at the last glyph byte from .count, where DLY is 1
and k is 0. -/
theorem test_witness_UnwrittenBytesFault :
    (opcField (running (.draw 0#8 0#7 0#3)).cur = 0x7#4 ∧
      ∃ i, i < 8 ∧ (running (.draw 0#8 0#7 0#3)).mem.read (0x400 + (16 * (8 * 0 + i) + 40 / 8)) = none) ∧
    (selected.resetN = true ∧ selected.run = true ∧ selected.pos = .printSelect ∧ selected.stage = .settle ∧
      0 < Config.textBytes ∧ selected.mem.read (0x800 + 0) = none) ∧
    (glyphDone.resetN = true ∧ glyphDone.run = true ∧ glyphDone.pos = .glyphByte ∧ glyphDone.gk = 4#3 ∧
      1 = glyphDone.ci.toNat + 1 ∧ (∃ d, glyphDone.stage = .count d) ∧ 0 = glyphDone.dly - 1 ∧
      1 < Config.textBytes ∧ glyphDone.mem.read (0x800 + 1) = none) :=
  ⟨⟨by decide, 0, by decide, rfl⟩, by decide, rfl, rfl, rfl, rfl, rfl, ⟨_, rfl⟩, rfl, by decide, rfl⟩

theorem test_witness_PageByteClosedForm : ∀ a, a < 1024 →
    (filled (fun k => BitVec.ofNat 8 (k - 0x400)) 0x400 1024).read (0x400 + a) = some (BitVec.ofNat 8 a) := by
  intro a h
  rw [read_filled _ (by omega) (by omega)]; simp

theorem test_witness_FrameByteSequence :
    (Instr.clear 0#8 0#7 0#3 = .clear 0#8 0#7 0#3 ∧ (fun _ _ => 0x00#8 : Nat → Nat → Byte) = fun _ _ => 0x00#8) :=
  ⟨rfl, rfl⟩

theorem test_witness_DrawOfZeroBitmapIsClear : ∀ a, bmpBase ≤ a → a < textBase →
    (filled (fun _ => 0x00#8) 0x400 1024).read a = some 0x00#8 := by
  intro a h1 h2
  exact read_filled (fun _ => 0x00#8) h1 (by unfold textBase at h2; omega)

/-- 95 DR4: r = 29, c = 15, b = 0. -/
theorem test_witness_SingleBitDraw : (29 < 64 ∧ 15 < 16 ∧ 0 < 8) ∧ ∀ a, bmpBase ≤ a → a < textBase →
    (filled (fun k => if k = bmpBase + (16 * 29 + 15) then 1#8 <<< 0 else 0x00#8) 0x400 1024).read a =
      some (if a = bmpBase + (16 * 29 + 15) then 1#8 <<< 0 else 0x00#8) := by
  refine ⟨by decide, fun a h1 h2 => ?_⟩
  exact read_filled (fun k => if k = bmpBase + (16 * 29 + 15) then 1#8 <<< 0 else 0x00#8) h1
    (by unfold textBase at h2; omega)

theorem test_witness_GlyphsFoldCaseAndBlank : (0x41 ≤ (0x5A#8).toNat ∧ (0x5A#8).toNat ≤ 0x5A) ∧
    (0x30 ≤ (0x39#8).toNat ∧ (0x39#8).toNat ≤ 0x39) ∧
    (¬ (0x30 ≤ (0x3A#8).toNat ∧ (0x3A#8).toNat ≤ 0x39) ∧ ¬ (0x41 ≤ (0x3A#8).toNat ∧ (0x3A#8).toNat ≤ 0x5A) ∧
      ¬ (0x61 ≤ (0x3A#8).toNat ∧ (0x3A#8).toNat ≤ 0x7A) ∧ 0x3A#8 ≠ 0x3C#8 ∧ 0x3A#8 ≠ 0x3E#8) := by decide

theorem test_witness_MinimumTimes : ∃ c, c = 8 * Config.prescaler + Config.settleCycles := ⟨_, rfl⟩

theorem test_witness_ManualInitGivesInitTrace : Inv ready ∧ ready.resetN = true ∧ ready.run = false :=
  ⟨ready_inv, rfl, rfl⟩

/-- R85, R103: two polls of a wait on a stuck line both answer BUSY = 1 and CFGD = 1, and the wait goes on. -/
theorem test_wait_stuck : runProgram [.host, .engine, .host] [.waitIdle] onTheLine =
    .next ([.waitIdle], { onTheLine with reads := [0x00000005#32, 0x00000005#32], draws := 8 }) := by rfl

/-- R85: a wait on an idle block is over at the first poll. -/
theorem test_wait_idle : runProgram [.host] [.waitIdle] State.reset =
    .next ([], { State.reset with reads := [0x00000002#32], draws := 4 }) := by rfl

theorem test_witness_WaitPollsStatus : onTheLine.resetN = true ∧ onTheLine.run = true ∧ shifting onTheLine = true ∧
    ∀ k ∈ [Pick.host, .engine, .drain, .resetPin true, .host], k ≠ .line ∧ k ≠ .resetPin false := by decide

/-- CONFIG: the OP write, one turn of the engine, and the poll that sees BUSY = 0. -/
theorem test_witness_OpWaitEndsWithTheOperation : Inv State.reset ∧ State.reset.resetN = true ∧
    State.reset.run = false ∧ transferOpc (Instr.opc (.config 0#8 0#7 0#3)) = false ∧
    (∀ k ∈ [Pick.host, .host, .engine, .host], k ≠ .resetPin false) ∧
    ∃ u, runProgram [.host, .host, .engine, .host] (opWait (.config 0#8 0#7 0#3)) State.reset = .next ([], u) :=
  ⟨test_witness_ConfigCompletes.1, rfl, rfl, rfl, by decide, _, rfl⟩

theorem test_witness_ErrorFlagsAreSticky :
    seen (runTurn (.host (.write 0x000#12 .b4 0x0#32)) State.reset) (fun u => u.errIllegal) = some true ∧
    seen (runTurn (.host (.write 0x000#12 .b4 0x6#32)) (running (.clear 0#8 0#7 0#3))) (fun u => u.errBusy) =
      some true ∧
    seen (runTurn (.host (.write 0x000#12 .b4 0x6#32)) State.reset) (fun u => u.errNotcfg) = some true ∧
    seen (runTurn (.host (.write 0x004#12 .b4 0x700#32))
      { State.reset with errIllegal := true, errBusy := true, errNotcfg := true })
      (fun u => (u.errIllegal, u.errBusy, u.errNotcfg)) = some (false, false, false) := by decide

theorem test_witness_BlockResetAbandonsOperation : onTheLine.resetN = true := by decide

theorem test_witness_HeldResetIgnoresTheHost : (blockReset onTheLine).resetN = false := by decide

theorem test_witness_IdleBlockStartsNothing : configured.resetN = true ∧ configured.run = false := by decide

/-- A step that starts INIT from a state with the invariant. -/
theorem test_witness_StepKeepsInv : Inv (ready.withFetchWord 32 5) ∧
    ∃ u, step (ready.withFetchWord 32 5) = .next u := by
  refine ⟨⟨ready_wf, ready_inBuffers, ?_, ?_, .inr rfl, rfl, rfl, rfl, ?_, ?_, .inr rfl, ?_, ?_, ?_, ?_, ?_, by decide,
    rfl, ?_⟩, ⟨_, rfl⟩⟩ <;>
    simp [ready, configured, State.reset, State.withFetchWord, shifting, configuredCfg, Config.spiMode]

theorem test_witness_OwedTraceIsConserved :
    Inv (running (.cmd 0xAF#8 0#7 0#3)) ∧ (running (.cmd 0xAF#8 0#7 0#3)).resetN = true ∧
    (running (.cmd 0xAF#8 0#7 0#3)).run = true ∧ Turn.engine ≠ .resetPin false ∧
    (Turn.drain = .drain → (running (.cmd 0xAF#8 0#7 0#3)).posted = []) ∧
    ∃ u, runTurn .engine (running (.cmd 0xAF#8 0#7 0#3)) = .next u :=
  ⟨running_inv (by decide) (by decide) (by decide), rfl, rfl, by decide, fun _ => rfl, _, rfl⟩

theorem test_witness_BusyFallsAtTheEnd :
    Inv (running (.config 0#8 0#7 0#3)) ∧ (running (.config 0#8 0#7 0#3)).resetN = true ∧
    (running (.config 0#8 0#7 0#3)).run = true ∧ Turn.engine ≠ .resetPin false ∧
    ∃ u, runTurn .engine (running (.config 0#8 0#7 0#3)) = .next u ∧ u.run = false :=
  ⟨running_inv (by decide) (by decide) (by decide), rfl, rfl, by decide, _, rfl, rfl⟩

end Sys2Proof.Tests
end

section
/-! PROOFS. What one write to OP does, as one equation over the written word (30_encoding.md R73 to R76). -/

namespace Sys2Proof

theorem opc_cases (o : BitVec 4) :
    o ∈ [0x1#4, 0x2#4, 0x3#4, 0x4#4, 0x5#4, 0x6#4, 0x7#4, 0x8#4, 0x9#4] ∨
      o ∈ [0x0#4, 0xA#4, 0xB#4, 0xC#4, 0xD#4, 0xE#4, 0xF#4] := by
  revert o; decide

/-- The instruction an OPC selects is packed with that OPC and the given fields (R72). -/
theorem encode_of_ofOpc {o : BitVec 4} {a : BitVec 8} {x : BitVec 7} {y : BitVec 3} {i : Instr}
    (h : ofOpc o a x y = some i) : encode i = packFields o a x y := by
  rcases opc_cases o with ho | ho
  · fin_cases ho <;> cases h <;> rfl
  · fin_cases ho <;> cases h

/-- Only a reserved OPC selects nothing (R73). -/
theorem ofOpc_eq_none {o : BitVec 4} {a : BitVec 8} {x : BitVec 7} {y : BitVec 3} (h : ofOpc o a x y = none) :
    (decide (1#4 ≤ o) && decide (o ≤ 9#4)) = false := by
  rcases opc_cases o with ho | ho
  · fin_cases ho <;> cases h
  · fin_cases ho <;> rfl

/-- A word that decodes is legal, and is the encoding of what it decodes to (R70, R74). -/
theorem encode_of_decode {v : Word} {i : Instr} (h : decode v = .ok i) : encode i = v := by
  unfold decode at h
  split at h
  · next hres =>
    split at h <;> cases h
    next ho => rw [encode_of_ofOpc ho, packFields_fields hres]
  · cases h

/-- A word that does not decode is not legal (R161). -/
theorem wordLegal_of_decode_error {v : Word} {e : DecodeError} (h : decode v = .error e) : wordLegal v = false := by
  unfold decode at h
  split at h
  · split at h
    · cases h
    · next ho =>
      have : opcAssigned v = false := ofOpc_eq_none ho
      simp [wordLegal, this]
  · next hres => simp [wordLegal, hres]

namespace Machine

/-- Bit n of a word, as the field of that one bit. -/
theorem extractLsb'_one_ne_zero (v : Word) (n : Nat) : v.extractLsb' n 1 ≠ 0#1 ↔ v.getLsbD n = true := by
  constructor
  · intro h
    by_contra hb
    apply h
    apply BitVec.eq_of_getLsbD_eq
    intro i hi
    obtain rfl : i = 0 := by omega
    simpa using hb
  · intro h e
    have := congrArg (fun w => w.getLsbD 0) e
    simp [h] at this

/-- The two cases of R161 are the words that are not legal. -/
theorem illegalWord_iff (v : Word) : illegalWord v ↔ wordLegal v = false := by
  have key : ∀ o : BitVec 4, (o = 0x0#4 ∨ 0xA#4 ≤ o) ↔ ¬ ((decide (1#4 ≤ o) && decide (o ≤ 9#4)) = true) := by decide
  unfold illegalWord
  rw [key, ← extractLsb'_one_ne_zero, ← Bool.not_eq_true]
  simp only [wordLegal, opcAssigned, reservedClear, Bool.and_eq_true, beq_iff_eq]
  tauto

/-- The four outcomes of an OP write of v, tested in the order of R76. -/
def opOutcome (v : Word) (s : State) : State :=
  if s.run then raise .busy s
  else if wordLegal v = false then raise .illegal s
  else if transferOpc (opcField v) && !s.cfg.spe then raise .notcfg s
  else started v s

theorem opOutcome_of_busy {v : Word} {s : State} (hr : s.run = true) : opOutcome v s = raise .busy s := by
  simp [opOutcome, hr]

theorem opWrite_eq (v : Word) (s : State) : opWrite v s = .next (opOutcome v s) := by
  unfold opWrite opOutcome
  split
  · next i hi =>
    obtain rfl := encode_of_decode hi
    rw [exec_eq_submit, opcField_encode, wordLegal_encode]
    unfold submit
    split
    · rfl
    · split <;> rfl
  · next e he =>
    rw [submitIllegal_eq, wordLegal_of_decode_error he]
    rfl

end Machine
end Sys2Proof
end

section
/-! PROOFS. The invariant through every step: host moves, block reset, the line, and the engine, which either stays
inside a micro-op or completes it and moves POS on. -/

namespace Sys2Proof.Machine

/-! ## The invariant at reset, and through the moves of the host and of the reset pin -/

/-- Everything at its reset values, whatever the level of RESET_N and the record of reads. -/
theorem inv_blockReset (s : State) (level : Bool) (rs : List Word) :
    Inv { blockReset s with resetN := level, reads := rs } where
  memWf := List.Pairwise.nil
  memInBuffers := by simp
  postedInBuffers := by simp
  postedRacing := by simp
  cfgFixed := .inl rfl
  csFollowsCfg := rfl
  tcShift := rfl
  bitsLeft := rfl
  sckRests := fun _ => rfl
  idleStage := fun _ => rfl
  dlyCounts := .inr rfl
  placeFits := by simp
  sendFits := by simp [shifting]
  waitFits := by simp
  sendsConfigured := by simp
  charIndex := by simp
  glyphIndex := by simp
  rstLevel := rfl
  heldReset := by rintro ⟨⟩; rfl

/-- A move made while RESET_N is 0 leaves the reset values (R180). -/
theorem turnInReset_eq (t : Turn) (s : State) :
    ∃ level rs, turnInReset t s = { blockReset s with resetN := level, reads := rs } := by
  cases t with
  | host a => cases a <;> exact ⟨_, _, rfl⟩
  | resetPin level => exact ⟨_, _, rfl⟩
  | engine | line | drain => exact ⟨_, _, rfl⟩

/-- The moves still to come are no concern of the invariant. -/
theorem Inv.withTurns {s : State} (h : Inv s) (ts : List Turn) : Inv { s with turns := ts } :=
  { h with heldReset := fun hN => congrArg (fun u : State => { u with turns := ts }) (h.heldReset hN) }

/-- Neither are the error flags and the records of host reads while RESET_N is 1. -/
theorem Inv.withRecords {s : State} (h : Inv s) (hN : s.resetN = true) (il bu nc : Bool) (rs : List Word) (d : Nat) :
    Inv { s with errIllegal := il, errBusy := bu, errNotcfg := nc, reads := rs, draws := d } :=
  { h with heldReset := by simp [hN] }

theorem Inv.raise {s : State} (h : Inv s) (hN : s.resetN = true) (e : ErrorFlag) : Inv (raise e s) := by
  cases e <;> exact h.withRecords hN _ _ _ _ _

/-- A legal operation begins at one of its places, and at a place that needs the line only if it transfers bytes. -/
theorem firstPlace_of_legal {v : Word} (h : wordLegal v = true) :
    placeOf (opcField v) (firstPlace (opcField v)) = true ∧
      (needsLine (firstPlace (opcField v)) = true → transferOpc (opcField v) = true) := by
  have key : ∀ o : BitVec 4, 1#4 ≤ o → o ≤ 9#4 →
      placeOf o (firstPlace o) = true ∧ (needsLine (firstPlace o) = true → transferOpc o = true) := by decide
  simp only [wordLegal, opcAssigned, Bool.and_eq_true, decide_eq_true_eq] at h
  obtain ⟨⟨h1, h9⟩, _⟩ := h
  exact key _ h1 h9

/-- No operation begins inside PRINT's character loop or inside the reset pulse. -/
theorem firstPlace_outside (o : BitVec 4) :
    inChar (firstPlace o) = false ∧ firstPlace o ≠ .glyphByte ∧ firstPlace o ≠ .lowWait ∧ firstPlace o ≠ .rstHigh := by
  revert o; decide

/-- Nothing races with an idle block. -/
theorem Inv.posted_of_not_racing {s : State} (h : Inv s) (hr : racing s = false) : s.posted = [] := by
  by_contra hne
  exact absurd (h.postedRacing hne) (by simp [hr])

theorem racing_of_idle {s : State} (hr : s.run = false) : racing s = false := by simp [racing, hr]

/-! ## A block with no byte in flight and no delay under way -/

/-- What the invariant says of such a block about memory, the configuration and the transmitter. -/
structure Settled (s : State) : Prop where
  memWf : s.mem.wf
  memInBuffers : ∀ p ∈ s.mem, bmpBase ≤ p.1 ∧ p.1 < textBase + Config.textBytes
  postedInBuffers : ∀ w ∈ s.posted, bmpBase ≤ w.off ∧ w.off + w.bytes.length ≤ textBase + Config.textBytes
  postedRacing : s.posted ≠ [] → racing s
  cfgFixed : s.cfg = CfgReg.atReset ∨ s.cfg = configuredCfg
  csFollowsCfg : s.pinCs = !s.cfg.spe
  tcHigh : s.tc = true
  noBitsLeft : s.bitcnt = 0#4
  sckRests : s.pinSck = s.cfg.cpol
  dlyZero : s.dly = 0
  released : s.resetN = true

theorem Inv.settled {s : State} (h : Inv s) (hN : s.resetN = true) (hsh : shifting s = false) :
    Settled { s with dly := 0 } :=
  { h with
    tcHigh := by simpa [hsh] using h.tcShift
    noBitsLeft := by simpa [hsh] using h.bitsLeft
    sckRests := h.sckRests (by rintro hst; simp [shifting, hst] at hsh)
    dlyZero := rfl
    released := hN }

/-- Where no micro-op has begun DLY is 0 already. -/
theorem Inv.settled_of_begin {s : State} (h : Inv s) (hN : s.resetN = true) (hst : s.stage = .begin) : Settled s := by
  have S := h.settled hN (by simp [shifting, hst])
  have hdly : s.dly = 0 := by simpa [hst] using h.dlyCounts
  exact { S with dlyZero := hdly }

/-- POS and the loop counters of a running operation where the invariant wants them, RST at the level of the pulse. -/
structure PlaceOk (s : State) : Prop where
  legal : wordLegal s.cur = true
  fits : placeOf (opcField s.cur) s.pos = true
  line : needsLine s.pos = true → s.cfg.spe = true
  charIndex : inChar s.pos = true → s.ci.toNat < Config.textBytes
  glyphIndex : s.pos = .glyphByte → s.gk.toNat ≤ 4
  rstLevel : s.pinRst = !(s.pos == .lowWait || s.pos == .rstHigh)

/-- A settled block at the start of a micro-op, or idle, has the invariant. -/
theorem Settled.inv {s : State} (S : Settled s) (hst : s.stage = .begin) (hrun : s.run = true → PlaceOk s)
    (hidle : s.run = false → s.pinRst = true) : Inv s :=
  { S with
    tcShift := by simp [S.tcHigh, shifting, hst]
    bitsLeft := by simp [S.noBitsLeft, shifting, hst]
    sckRests := fun _ => S.sckRests
    idleStage := fun _ => hst
    dlyCounts := .inr S.dlyZero
    placeFits := fun hr => ⟨(hrun hr).legal, (hrun hr).fits⟩
    sendFits := by simp [shifting, hst]
    waitFits := by simp [hst]
    sendsConfigured := fun hr => (hrun hr).line
    charIndex := fun hr => (hrun hr).charIndex
    glyphIndex := fun hr => (hrun hr).glyphIndex
    rstLevel := by
      cases hr : s.run with
      | true => exact (hrun hr).rstLevel
      | false => exact hidle hr
    heldReset := by simp [S.released] }

theorem Inv.started {s : State} (h : Inv s) (hN : s.resetN = true) (hr : s.run = false) {v : Word}
    (hv : wordLegal v = true) (hc : transferOpc (opcField v) = true → s.cfg.spe = true) : Inv (started v s) := by
  obtain ⟨hfits, hline⟩ := firstPlace_of_legal hv
  obtain ⟨hchar, hglyph, hlow, hhigh⟩ := firstPlace_outside (opcField v)
  have S := h.settled_of_begin hN (h.idleStage hr)
  have hnone := h.posted_of_not_racing (racing_of_idle hr)
  have hrst : s.pinRst = true := by simpa [hr] using h.rstLevel
  refine Settled.inv { S with postedRacing := fun hne => absurd hnone hne } rfl (fun _ => ?_) nofun
  exact
    { legal := hv
      fits := hfits
      line := fun hp => hc (hline hp)
      charIndex := by simp [Machine.started, hchar]
      glyphIndex := by simp [Machine.started, hglyph]
      rstLevel := by simp [Machine.started, hlow, hhigh, hrst] }

/-- An OP write raises an error or starts a legal operation the line is ready for (R76). -/
theorem Inv.opOutcome {s : State} (h : Inv s) (hN : s.resetN = true) (v : Word) : Inv (opOutcome v s) := by
  unfold Machine.opOutcome
  split
  · exact h.raise hN _
  · next hr =>
    split
    · exact h.raise hN _
    · next hv =>
      split
      · exact h.raise hN _
      · next hc => exact h.started hN (by simpa using hr) (by simpa using hv) (by simpa using hc)

/-- Every byte the host sees lies in the buffers. -/
theorem hostMemory_inBuffers {s : State}
    (hm : ∀ p ∈ s.mem, bmpBase ≤ p.1 ∧ p.1 < textBase + Config.textBytes)
    (hp : ∀ w ∈ s.posted, bmpBase ≤ w.off ∧ w.off + w.bytes.length ≤ textBase + Config.textBytes) :
    ∀ p ∈ hostMemory s, bmpBase ≤ p.1 ∧ p.1 < textBase + Config.textBytes := by
  intro p h
  rcases foldl_mem h with ⟨w, hw, hlo, hhi⟩ | h
  · have := hp w hw; omega
  · exact hm p h

theorem Inv.hostStore {s : State} (h : Inv s) (hN : s.resetN = true) {a : Nat} {bs : List Byte}
    (hlo : bmpBase ≤ a) (hhi : a + bs.length ≤ textBase + Config.textBytes) : Inv (hostStore a bs s) := by
  unfold Machine.hostStore
  split
  · next hrace =>
    exact
      { h with
        postedInBuffers := by
          intro w hw
          rcases List.mem_append.1 hw with hw | hw
          · exact h.postedInBuffers w hw
          · obtain rfl := List.mem_singleton.1 hw; exact ⟨hlo, hhi⟩
        postedRacing := fun _ => hrace
        heldReset := by simp [hN] }
  · exact
      { h with
        memWf := Memory.wf_writeBytes (hostMemory_wf h.memWf) _ _
        memInBuffers := by
          intro p hp
          rcases Memory.mem_writeBytes hp with ⟨h1, h2⟩ | hp
          · omega
          · exact hostMemory_inBuffers h.memInBuffers h.postedInBuffers p hp
        postedInBuffers := by simp
        postedRacing := by simp
        heldReset := by simp [hN] }

theorem Inv.drainOne {s : State} (h : Inv s) (hN : s.resetN = true) : Inv (drainOne s) := by
  unfold Machine.drainOne
  split
  · exact h
  · next w ws hw =>
    have hp := h.postedInBuffers
    have hrace := h.postedRacing
    rw [hw] at hp hrace
    exact
      { h with
        memWf := Memory.wf_writeBytes h.memWf _ _
        memInBuffers := by
          intro p hmem
          rcases Memory.mem_writeBytes hmem with ⟨h1, h2⟩ | hmem
          · have := hp w (by simp); omega
          · exact h.memInBuffers p hmem
        postedInBuffers := fun x hx => hp x (List.mem_cons_of_mem _ hx)
        postedRacing := fun _ => hrace (by simp)
        heldReset := by simp [hN] }

theorem Inv.hostAccess {s t : State} (h : Inv s) (hN : s.resetN = true) {a : Access}
    (ht : hostAccess a s = .next t) : Inv t := by
  cases a with
  | read off n => cases ht; exact h.withRecords hN _ _ _ _ _
  | write off n v =>
    rcases hostWrite_cases ht with rfl | ht | rfl | ⟨rfl, hal, hreg⟩
    · exact h
    · rw [opWrite_eq] at ht; cases ht; exact h.opOutcome hN v
    · exact h.withRecords hN _ _ _ _ _
    · obtain ⟨hlo, hhi⟩ := buffer_bounds hal hreg
      exact h.hostStore hN hlo (by rw [bytesOf_length]; exact hhi)

/-! ## The invariant through the moves of the line -/

theorem Inv.bitSetUp {s : State} (h : Inv s) (hN : s.resetN = true) (hr : s.run = true)
    (hst : s.stage = .shift .setUp) : Inv (bitSetUp s) :=
  { h with
    tcShift := by simpa [hst, shifting] using h.tcShift
    bitsLeft := by simpa [hst, shifting] using h.bitsLeft
    sckRests := fun _ => h.sckRests (by simp [hst])
    idleStage := by simp [hr]
    dlyCounts := by simpa [hst] using h.dlyCounts
    sendFits := fun _ => h.sendFits (by simp [hst, shifting])
    waitFits := by simp
    heldReset := by simp [hN] }

theorem Inv.bitFirstEdge {s : State} (h : Inv s) (hN : s.resetN = true) (hr : s.run = true)
    (hst : s.stage = .shift .firstEdge) : Inv (bitFirstEdge s) :=
  { h with
    tcShift := by simpa [hst, shifting] using h.tcShift
    bitsLeft := by simpa [hst, shifting] using h.bitsLeft
    sckRests := by simp
    idleStage := by simp [hr]
    dlyCounts := by simpa [hst] using h.dlyCounts
    sendFits := fun _ => h.sendFits (by simp [hst, shifting])
    waitFits := by simp
    heldReset := by simp [hN] }

/-- The second edge takes one of the bits left; after the last of them the byte is out (R91, R92). -/
theorem Inv.bitSecondEdge {s : State} (h : Inv s) (hN : s.resetN = true) (hr : s.run = true)
    (hst : s.stage = .shift .secondEdge) : Inv (bitSecondEdge s) := by
  have hsend : sends s.pos = true := h.sendFits (by simp [hst, shifting])
  have hdly : s.dly = 0 := by simpa [hst] using h.dlyCounts
  have hbits : 1 ≤ s.bitcnt.toNat ∧ s.bitcnt.toNat ≤ 8 := by simpa [hst, shifting] using h.bitsLeft
  unfold Machine.bitSecondEdge
  split
  · exact
      { h with
        tcShift := rfl
        bitsLeft := rfl
        sckRests := fun _ => rfl
        idleStage := by simp [hr]
        dlyCounts := .inr hdly
        sendFits := fun _ => hsend
        waitFits := by simp
        heldReset := by simp [hN] }
  · next hmore =>
    exact
      { h with
        tcShift := by simpa [hst, shifting] using h.tcShift
        bitsLeft := by
          show 1 ≤ (s.bitcnt - 1#4).toNat ∧ (s.bitcnt - 1#4).toNat ≤ 8
          bv_omega
        sckRests := fun _ => rfl
        idleStage := by simp [hr]
        dlyCounts := .inr hdly
        sendFits := fun _ => hsend
        waitFits := by simp
        heldReset := by simp [hN] }

theorem Inv.lineTurn {s : State} (h : Inv s) (hN : s.resetN = true) : Inv (lineTurn s) := by
  unfold Machine.lineTurn
  split
  · next hr =>
    split
    · exact h.bitSetUp hN hr ‹_›
    · exact h.bitFirstEdge hN hr ‹_›
    · exact h.bitSecondEdge hN hr ‹_›
    all_goals exact h
  · exact h

/-! ## The invariant while the engine is inside a micro-op -/

/-- DC is driven and the byte waits to be loaded; the evaluation of the byte has moved BI only. -/
theorem Inv.beginSend {s : State} (h : Inv s) (hN : s.resetN = true) (hr : s.run = true) (hst : s.stage = .begin)
    (hp : sends s.pos = true) (dc : Bool) (b : Byte) (bi : BitVec 3) : Inv (beginSend dc b { s with bi := bi }) :=
  { h with
    tcShift := by simpa [hst, shifting] using h.tcShift
    bitsLeft := by simpa [hst, shifting] using h.bitsLeft
    sckRests := fun _ => h.sckRests (by simp [hst])
    idleStage := by simp [hr]
    dlyCounts := by simpa [hst] using h.dlyCounts
    sendFits := fun _ => hp
    waitFits := by simp
    heldReset := by simp [hN] }

theorem Inv.loadByte {s : State} (h : Inv s) (hN : s.resetN = true) (hr : s.run = true) {b : Byte}
    (hst : s.stage = .load b) : Inv (loadByte b s) :=
  { h with
    tcShift := rfl
    bitsLeft := by simp [shifting]
    sckRests := fun _ => h.sckRests (by simp [hst])
    idleStage := by simp [hr]
    dlyCounts := by simpa [hst] using h.dlyCounts
    sendFits := fun _ => h.sendFits (.inl ⟨b, hst⟩)
    waitFits := by simp
    heldReset := by simp [hN] }

/-- A delay is counted, in a wait or after a byte. -/
theorem Inv.counting {s : State} (h : Inv s) (hN : s.resetN = true) (hr : s.run = true) (hsh : shifting s = false)
    (hp : sends s.pos = true ∨ waits s.pos = true) (n : Nat) (d : Duration) :
    Inv { s with dly := n, stage := .count d } :=
  { h with
    tcShift := (h.settled hN hsh).tcHigh
    bitsLeft := (h.settled hN hsh).noBitsLeft
    sckRests := fun _ => (h.settled hN hsh).sckRests
    idleStage := by simp [hr]
    dlyCounts := .inl ⟨d, rfl⟩
    sendFits := by simp [shifting]
    waitFits := fun _ => by simpa using hp
    heldReset := by simp [hN] }

/-! ## The invariant where a micro-op has completed -/

/-- What is known of a running block whose micro-op at POS has just completed: it is settled, POS is a place of its
operation, and RST has the level of what comes next. -/
structure Completed (s : State) : Prop extends Settled s where
  running : s.run = true
  legal : wordLegal s.cur = true
  fits : placeOf (opcField s.cur) s.pos = true
  line : needsLine s.pos = true ∨ s.pos = .configure → s.cfg.spe = true
  charIndex : inChar s.pos = true → s.ci.toNat < Config.textBytes
  glyphIndex : s.pos = .glyphByte → s.gk.toNat ≤ 4
  rstLevel : s.pinRst = !(s.pos == .rstLow || s.pos == .lowWait)

/-- The sequencer goes to the start of another micro-op. -/
theorem Completed.movedTo {s : State} (C : Completed s) {p : Place} {pg : BitVec 3} {cx : BitVec 7} {ci : BitVec 11}
    {cc : BitVec 8} {gk : BitVec 3} {ch : Byte} (P : PlaceOk (movedTo p pg cx ci cc gk ch s)) :
    Inv (movedTo p pg cx ci cc gk ch s) :=
  Settled.inv { C with } rfl (fun _ => P) fun hr => absurd C.running (by simp [show s.run = false from hr])

/-- The operation ends, and every racing write becomes visible (R65, R97). -/
theorem Settled.finish {s : State} (S : Settled s) (hrst : s.pinRst = true) : Inv (finish s) := by
  refine Settled.inv ?_ rfl nofun fun _ => hrst
  exact
    { S with
      memWf := finish_wf S.memWf
      memInBuffers := hostMemory_inBuffers S.memInBuffers S.postedInBuffers
      postedInBuffers := by simp
      postedRacing := by simp }

/-- RST is released everywhere outside the pulse. -/
theorem Completed.rst_released {s : State} (C : Completed s) (hlow : s.pos ≠ .rstLow) (hwait : s.pos ≠ .lowWait) :
    s.pinRst = true := by
  rw [C.rstLevel, beq_false_of_ne hlow, beq_false_of_ne hwait]; rfl

/-- Place p may come after place q without touching the reset pulse or the character loop, and needs the line only if q
has it. -/
def plainStep (q p : Place) : Bool :=
  q != .rstLow && q != .lowWait && p != .lowWait && p != .rstHigh && !inChar p
    && (!needsLine p || needsLine q || q == .configure)

/-- Going on outside the reset pulse and the character loop. -/
theorem Completed.plainMove {s : State} (C : Completed s) {q p : Place} {pg : BitVec 3} {cx : BitVec 7}
    (hq : s.pos = q) (hstep : plainStep q p = true) (hfits : placeOf (opcField s.cur) p = true) :
    Inv (Machine.movedTo p pg cx s.ci s.cc s.gk s.ch s) := by
  subst hq
  simp only [plainStep, Bool.and_eq_true, Bool.or_eq_true, bne_iff_ne, Bool.not_eq_true', beq_iff_eq] at hstep
  obtain ⟨⟨⟨⟨⟨hlow, hwait⟩, hl⟩, hh⟩, hchar⟩, hline⟩ := hstep
  exact C.movedTo
    { legal := C.legal
      fits := hfits
      line := fun hp => C.line (by
        rcases hline with (hn | hn) | hn
        · exact absurd hp (by simp [Machine.movedTo, hn])
        · exact .inl hn
        · exact .inr hn)
      charIndex := fun hp => absurd hp (by simp [Machine.movedTo, hchar])
      glyphIndex := by rintro ⟨⟩; cases hchar
      rstLevel := by simp [Machine.movedTo, hl, hh, C.rst_released hlow hwait] }

/-- PRINT's places are no other operation's; they need the line and lie outside the reset pulse. -/
theorem printPlace_facts {q : Place} (h : placeOf 0x8#4 q = true) :
    (∀ o, placeOf o q = true → o = 0x8#4) ∧ needsLine q = true ∧ q ≠ .rstLow ∧ q ≠ .lowWait ∧ q ≠ .rstHigh := by
  cases q <;> simp [placeOf, needsLine, sends] at h ⊢

theorem placeOf_of_inChar {p : Place} (h : inChar p = true) : placeOf 0x8#4 p = true := by
  cases p <;> simp [inChar, placeOf] at h ⊢

/-- Going on to a place of PRINT's character loop from a place of PRINT. -/
theorem Completed.charMove {s : State} (C : Completed s) {p : Place} {ci : BitVec 11} {cc : BitVec 8} {gk : BitVec 3}
    {ch : Byte} (hq : placeOf 0x8#4 s.pos = true) (hp : inChar p = true) (hci : ci.toNat < Config.textBytes)
    (hgk : p = .glyphByte → gk.toNat ≤ 4) : Inv (Machine.movedTo p s.pg s.cx ci cc gk ch s) := by
  obtain ⟨hop, hline, hlow, hwait, _⟩ := printPlace_facts hq
  obtain ⟨_, _, _, hl, hh⟩ := printPlace_facts (placeOf_of_inChar hp)
  have e : opcField s.cur = 0x8#4 := hop _ C.fits
  exact C.movedTo
    { legal := C.legal
      fits := by simpa [Machine.movedTo, e] using placeOf_of_inChar hp
      line := fun _ => C.line (.inl hline)
      charIndex := fun _ => hci
      glyphIndex := hgk
      rstLevel := by simp [Machine.movedTo, hl, hh, C.rst_released hlow hwait] }

theorem Completed.nextColumn {s : State} (C : Completed s) (hp : s.pos = .column ∨ s.pos = .columnDelay) :
    Inv (nextColumn s) := by
  have hfits := C.fits
  have hlow : s.pos ≠ .rstLow := by rcases hp with hp | hp <;> simp [hp]
  have hwait : s.pos ≠ .lowWait := by rcases hp with hp | hp <;> simp [hp]
  have hpages : placeOf (opcField s.cur) .column = true := by
    rcases hp with hp | hp <;> rw [hp] at hfits
    · exact hfits
    · simp only [placeOf] at hfits ⊢; simp [hfits]
  have hstep : ∀ p, p = .column ∨ p = .pageSelect ∨ p = .initdSet → plainStep s.pos p = true := by
    rcases hp with hp | hp <;> rw [hp] <;> rintro p (rfl | rfl | rfl) <;> rfl
  unfold Machine.nextColumn
  split
  · exact C.plainMove rfl (hstep _ (by simp)) hpages
  · split
    · exact C.plainMove rfl (hstep _ (by simp)) hpages
    · split
      · next hop => exact C.plainMove rfl (hstep _ (by simp)) hop
      · exact C.finish (C.rst_released hlow hwait)

/-- What the head of PRINT's loop does (R138, R139): it goes on with the character it reads, or the operation ends at
the end of TEXT or at the terminator. -/
theorem fetchChar_next {s t : State} (h : fetchChar s = .next t) :
    (s.ci.toNat < Config.textBytes ∧ ∃ c, s.mem.read (textOffset s.ci.toNat) = some c ∧ c ≠ 0x00#8 ∧
        t = movedTo .charLow s.pg s.cx s.ci (charColumn (xField s.cur) s.ci.toNat) s.gk c s) ∨
      ((Config.textBytes ≤ s.ci.toNat ∨ s.mem.read (textOffset s.ci.toNat) = some 0x00#8) ∧ t = finish s) := by
  unfold fetchChar at h
  split at h
  · next hlt =>
    split at h
    · cases h
    · next c hc =>
      split at h <;> cases h
      · next h0 => exact .inr ⟨.inr (h0 ▸ hc), rfl⟩
      · next h0 => exact .inl ⟨hlt, c, hc, h0, rfl⟩
  · next hge => cases h; exact .inr ⟨.inl (by omega), rfl⟩

/-- PRINT reads its next character, at any index. -/
theorem Completed.fetchChar {s t : State} (C : Completed s) (hq : placeOf 0x8#4 s.pos = true)
    (ci : BitVec 11) (h : fetchChar { s with ci := ci } = .next t) : Inv t := by
  obtain ⟨_, _, hlow, hwait, _⟩ := printPlace_facts hq
  rcases fetchChar_next h with ⟨hlt, c, _, _, rfl⟩ | ⟨_, rfl⟩
  · exact C.charMove hq rfl hlt (by simp)
  · exact Settled.finish (s := { s with ci := ci }) { C with } (C.rst_released hlow hwait)

/-- Going on inside RESET's micro-ops, RST having the level of the next place (R94, R99). -/
theorem Completed.pulseMove {s : State} (C : Completed s) {p : Place} (hfits : placeOf (opcField s.cur) p = true)
    (hline : needsLine p = false) (hchar : inChar p = false)
    (hrst : (s.pos == .rstLow || s.pos == .lowWait) = (p == .lowWait || p == .rstHigh)) :
    Inv (Machine.movedTo p s.pg s.cx s.ci s.cc s.gk s.ch s) :=
  C.movedTo
    { legal := C.legal
      fits := hfits
      line := by simp [Machine.movedTo, hline]
      charIndex := by simp [Machine.movedTo, hchar]
      glyphIndex := by rintro ⟨⟩; cases hchar
      rstLevel := C.rstLevel.trans (congrArg (! ·) hrst) }

theorem Completed.advance {s t : State} (C : Completed s) (h : advance s = .next t) : Inv t := by
  have hfits := C.fits
  have hend : s.pos ≠ .rstLow → s.pos ≠ .lowWait → Inv (Machine.finish s) :=
    fun hlow hwait => C.finish (C.rst_released hlow hwait)
  unfold Machine.advance at h
  cases hp : s.pos
  all_goals simp only [hp] at h hfits
  case initdClear | rstLow | lowWait | rstHigh => cases h; exact C.pulseMove hfits rfl rfl (by rw [hp]; rfl)
  case highWait =>
    cases h
    split
    · next hop => exact C.plainMove hp rfl (by simp only [isOp] at hop; simp [placeOf, hop])
    · exact hend (by simp [hp]) (by simp [hp])
  case configure =>
    cases h
    split
    · next hop => exact C.plainMove hp rfl hop
    · exact hend (by simp [hp]) (by simp [hp])
  case single | initdSet => cases h; exact hend (by simp [hp]) (by simp [hp])
  case seq e rest =>
    cases rest with
    | cons e' rest => cases h; exact C.plainMove hp rfl hfits
    | nil => cases h; exact C.plainMove hp rfl (by simp only [placeOf] at hfits ⊢; simp [hfits])
  case pageSelect | columnLow | columnHigh => cases h; exact C.plainMove hp rfl hfits
  case column =>
    cases h
    split
    · next hop => exact C.plainMove hp rfl hop
    · exact C.nextColumn (.inl hp)
  case columnDelay => cases h; exact C.nextColumn (.inr hp)
  case printSelect => rw [← hp] at h; exact C.fetchChar (by rw [hp]; rfl) _ h
  case charLow | charHigh =>
    cases h; exact C.charMove (by rw [hp]; rfl) rfl (C.charIndex (by rw [hp]; rfl)) (by simp)
  case glyphByte =>
    split at h
    · next hlt =>
      cases h
      exact C.charMove (by rw [hp]; rfl) rfl (C.charIndex (by rw [hp]; rfl)) fun _ => by bv_omega
    · rw [← hp] at h; exact C.fetchChar (by rw [hp]; rfl) _ h

/-! ## The invariant through a turn of the engine -/

/-- A micro-op other than configure and the two levels of RST is over. -/
theorem Inv.completed {s : State} (h : Inv s) (hN : s.resetN = true) (hr : s.run = true) (hsh : shifting s = false)
    (hc : s.pos ≠ .configure) (hlow : s.pos ≠ .rstLow) (hhigh : s.pos ≠ .rstHigh) : Completed { s with dly := 0 } :=
  { h.settled hN hsh with
    running := hr
    legal := (h.placeFits hr).1
    fits := (h.placeFits hr).2
    line := fun hp => h.sendsConfigured hr (hp.resolve_right hc)
    charIndex := h.charIndex hr
    glyphIndex := h.glyphIndex hr
    rstLevel := h.rstLevel.trans (by simp [hr, beq_false_of_ne hlow, beq_false_of_ne hhigh]) }

theorem Inv.completed_waited {s : State} (h : Inv s) (hN : s.resetN = true) (hr : s.run = true)
    (hsh : shifting s = false) (hp : sends s.pos = true ∨ waits s.pos = true) (d : Duration) :
    Completed (waited d s) := by
  have other : ∀ p, sends p = false → waits p = false → s.pos ≠ p := by
    rintro p hs hw rfl; simp [hs, hw] at hp
  exact { h.completed hN hr hsh (other _ rfl rfl) (other _ rfl rfl) (other _ rfl rfl) with }

theorem Inv.completed_initd {s : State} (h : Inv s) (hN : s.resetN = true) (hr : s.run = true)
    (hst : s.stage = .begin) {v : Bool} (hp : s.pos = .initdClear ∧ v = false ∨ s.pos = .initdSet ∧ v = true) :
    Completed { s with initd := v } := by
  obtain ⟨hc, hlow, hhigh⟩ : s.pos ≠ .configure ∧ s.pos ≠ .rstLow ∧ s.pos ≠ .rstHigh := by
    rcases hp with ⟨hp, _⟩ | ⟨hp, _⟩ <;> simp [hp]
  have C := h.completed hN hr (by simp [shifting, hst]) hc hlow hhigh
  exact { C with dlyZero := (h.settled_of_begin hN hst).dlyZero }

theorem Inv.completed_drivePinRst {s : State} (h : Inv s) (hN : s.resetN = true) (hr : s.run = true)
    (hst : s.stage = .begin) {l : Bool} (hp : s.pos = .rstLow ∧ l = false ∨ s.pos = .rstHigh ∧ l = true) :
    Completed (drivePinRst l s) :=
  { h.settled_of_begin hN hst with
    running := hr
    legal := (h.placeFits hr).1
    fits := (h.placeFits hr).2
    line := fun hl => by
      rcases hp with ⟨hp, _⟩ | ⟨hp, _⟩ <;> simp [hp, needsLine, sends] at hl
    charIndex := h.charIndex hr
    glyphIndex := h.glyphIndex hr
    rstLevel := by rcases hp with ⟨hp, rfl⟩ | ⟨hp, rfl⟩ <;> simp [hp] }

theorem Inv.completed_configure {s : State} (h : Inv s) (hN : s.resetN = true) (hr : s.run = true)
    (hst : s.stage = .begin) (hp : s.pos = .configure) : Completed (configure s) :=
  { h.settled_of_begin hN hst with
    cfgFixed := .inr rfl
    csFollowsCfg := rfl
    sckRests := rfl
    running := hr
    legal := (h.placeFits hr).1
    fits := (h.placeFits hr).2
    line := fun _ => rfl
    charIndex := h.charIndex hr
    glyphIndex := h.glyphIndex hr
    rstLevel := h.rstLevel.trans (by rw [hr, configure_pos, hp]; rfl) }

/-- A wait stands at a place that waits, or follows a byte. -/
theorem Inv.wait_place {s : State} (h : Inv s) {d : Duration}
    (hd : s.stage = .begin ∧ microOpAt s = .ok (.wait d, s) ∨ s.stage = .settle ∨ s.stage = .count d) :
    shifting s = false ∧ (sends s.pos = true ∨ waits s.pos = true) := by
  rcases hd with ⟨hst, hm⟩ | hst | hst
  · exact ⟨by simp [shifting, hst], .inr (microOpAt_wait hm).2⟩
  · exact ⟨by simp [shifting, hst], .inl (h.sendFits (.inr (.inr hst)))⟩
  · exact ⟨by simp [shifting, hst], by simpa using h.waitFits ⟨d, hst⟩⟩

theorem Inv.engineTurn {s t : State} (h : Inv s) (hN : s.resetN = true) (ht : engineTurn s = .next t) : Inv t := by
  rcases engineTurn_cases ht with ⟨_, rfl⟩ | ⟨_, _, rfl⟩ | ⟨hr, hst, hp, dc, b, s', hm, rfl⟩ | ⟨hr, b, hst, rfl⟩ |
    ⟨hr, d, _, hd, rfl⟩ | ⟨hr, d, hst, _, rfl⟩ | ⟨hr, d, hd, ht⟩ | ⟨hr, hst, l, hm, ht⟩ | ⟨hr, hst, hp, ht⟩ |
    ⟨hr, hst, v, hm, ht⟩
  · exact h
  · exact h
  · obtain ⟨bi, rfl⟩ := microOpAt_state hm
    exact h.beginSend hN hr hst hp dc b bi
  · exact h.loadByte hN hr hst
  · obtain ⟨hsh, hp⟩ := h.wait_place (d := d) (by tauto)
    exact h.counting hN hr hsh hp _ d
  · obtain ⟨hsh, hp⟩ := h.wait_place (.inr (.inr hst))
    have := h.counting hN hr hsh hp (s.dly - 1) d
    rwa [← hst] at this
  · obtain ⟨hsh, hp⟩ := h.wait_place (d := d) (by tauto)
    rw [endWait_eq d rfl] at ht
    exact Completed.advance { h.completed_waited hN hr hsh hp d with } ht
  · exact (h.completed_drivePinRst hN hr hst (microOpAt_rst hm)).advance ht
  · exact (h.completed_configure hN hr hst hp).advance ht
  · exact (h.completed_initd hN hr hst (microOpAt_initd hm)).advance ht

/-! ## Every step -/

theorem Inv.runTurn {s u : State} (h : Inv s) {t : Turn} (hu : runTurn t s = .next u) : Inv u := by
  unfold Machine.runTurn at hu
  split at hu
  · next hN =>
    cases t with
    | host a => exact h.hostAccess hN hu
    | engine => exact h.engineTurn hN hu
    | line => cases hu; exact h.lineTurn hN
    | drain => cases hu; exact h.drainOne hN
    | resetPin level =>
      cases hu
      split
      · exact h
      · exact inv_blockReset s false s.reads
  · cases hu
    obtain ⟨level, rs, e⟩ := turnInReset_eq t s
    rw [e]
    exact inv_blockReset s level rs

/-- Settles O56: the reset state is the block after block reset, with RESET_N released. -/
theorem invHoldsAtReset : Obligations.InvHoldsAtReset := inv_blockReset State.reset true []

/-- Settles O57: every move of every agent keeps the invariant. -/
theorem stepKeepsInv : Obligations.StepKeepsInv := by
  intro s u h hu
  unfold step at hu
  split at hu
  · cases hu; exact h
  · exact (h.withTurns _).runTurn hu

end Sys2Proof.Machine
end

section
/-! PROOFS. What a running operation has emitted and what it still owes: each move keeps the two together. -/

namespace Sys2Proof.Machine

/-! ## The page byte the engine computes -/

/-- The engine's loop over BI computes pack(PG, CX) and leaves BI at its last position (R120). -/
theorem composePage_eq (s : State) :
    composePage s = (pageByte s.mem s.pg.toNat s.cx.toNat).map fun b => (b, { s with bi := 7#3 }) := by
  have h := composeFrom_eq (n := 7) (k := 0) rfl 0x00#8 s
  rwa [packFrom_zero] at h

/-- The byte of a column is the frame's, where it has a value. -/
theorem columnByte_frameData {s s' : State} {b : Byte} (h : columnByte s = some (b, s')) :
    b = frameData s s.pg.toNat s.cx.toNat := by
  unfold columnByte at h
  unfold frameData
  split at h
  · next hop =>
    rw [composePage_eq] at h
    obtain ⟨b', hb, e⟩ := Option.map_eq_some_iff.1 h
    simp only [Prod.mk.injEq] at e
    simp [hop, drawData, hb, e.1]
  · next hop =>
    split at h
    · next hop' => cases h; simp [hop, hop']
    · next hop' => cases h; simp [hop, hop']

/-- Where it has none, the operation is DRAW and the frame's byte counts as 0. -/
theorem columnByte_none_frameData {s : State} (h : columnByte s = none) :
    frameData s s.pg.toNat s.cx.toNat = 0x00#8 := by
  unfold columnByte at h
  split at h
  · next hop =>
    rw [composePage_eq, Option.map_eq_none_iff] at h
    simp [frameData, hop, drawData, h]
  · split at h <;> cases h

/-! ## What a micro-op that has not begun owes -/

/-- A micro-op that has not begun owes its events. -/
theorem owedNow_of_microOp {s s' : State} {m : MicroOp} (hst : s.stage = .begin) (hm : microOpAt s = .ok (m, s')) :
    owedNow s = m.events := by
  simp [owedNow, hst, hm]

theorem owedNow_column {s : State} (hst : s.stage = .begin) (hp : s.pos = .column) :
    owedNow s = sendEvents true (frameData s s.pg.toNat s.cx.toNat) := by
  cases hc : columnByte s with
  | none => simp [owedNow, hst, microOpAt, hp, hc, columnByte_none_frameData hc]
  | some r =>
    obtain ⟨b, s'⟩ := r
    rw [owedNow_of_microOp (m := .send true b) (s' := s') hst (by simp [microOpAt, hp, hc]), ← columnByte_frameData hc]
    rfl

theorem owed_of_run {s : State} (hr : s.run = true) : owed s = owedNow s ++ owedLater s := by simp [owed, hr]

@[simp] theorem owed_finish (s : State) : owed (finish s) = [] := rfl

/-- A running operation at the start of a column owes the frame from that column on. -/
theorem owed_column {s : State} (hr : s.run = true) (hst : s.stage = .begin) (hp : s.pos = .column) :
    owed s = owedColumns s s.cx.toNat := by
  rw [owed_of_run hr, owedNow_column hst hp]
  simp only [owedLater, hp, owedColumns]
  rw [columnEvents_step _ _ _ s.cx.isLt]
  simp only [List.append_assoc]

/-- At the start of a page it owes the frame from that page on. -/
theorem owed_pageSelect {s : State} (hr : s.run = true) (hst : s.stage = .begin) (hp : s.pos = .pageSelect) :
    owed s = owedPages s s.pg.toNat := by
  have hm : microOpAt s = .ok (.send false (pageSelectByte s.pg), s) := by simp [microOpAt, hp]
  rw [owed_of_run hr, owedNow_of_microOp hst hm]
  simp only [owedLater, hp, owedColumns, owedPages]
  rw [pageEvents_step _ _ s.pg.isLt]
  simp [MicroOp.events, headerEvents]

/-- After a column the operation owes the frame from the next one on, past the ends of page and frame (R121, R122). -/
theorem owed_nextColumn {s : State} (hr : s.run = true) : owed (nextColumn s) = owedColumns s (s.cx.toNat + 1) := by
  unfold nextColumn
  split
  · next hx =>
    rw [owed_column (by exact hr) rfl rfl]
    have e : (s.cx + 1#7).toNat = s.cx.toNat + 1 := by bv_omega
    show owedColumns s (s.cx + 1#7).toNat = _
    rw [e]
  · next hx =>
    have hx : s.cx = 127#7 := by simpa using hx
    have hcols : owedColumns s (s.cx.toNat + 1) = owedPages s (s.pg.toNat + 1) := by
      rw [hx]; rfl
    rw [hcols]
    split
    · next hy =>
      rw [owed_pageSelect (by exact hr) rfl rfl]
      have e : (s.pg + 1#3).toNat = s.pg.toNat + 1 := by bv_omega
      show owedPages s (s.pg + 1#3).toNat = _
      rw [e]
    · next hy =>
      have hy : s.pg = 7#3 := by simpa using hy
      have hpages : owedPages s (s.pg.toNat + 1) = [] := by rw [hy]; rfl
      rw [hpages]
      split
      · rw [owed_of_run (by exact hr)]; rfl
      · rfl

/-- After PRINT's read of a character the operation owes the string from that character on (R138, R139). -/
theorem owed_fetchChar {s t : State} (hr : s.run = true) (h : fetchChar s = .next t) :
    owed t = owedChars s s.ci.toNat := by
  rcases fetchChar_next h with ⟨hlt, c, hc, h0, rfl⟩ | ⟨hend, rfl⟩
  · have hn : Config.textBytes - s.ci.toNat = (Config.textBytes - (s.ci.toNat + 1)) + 1 := by omega
    have htext : textFrom s.mem (Config.textBytes - s.ci.toNat) s.ci.toNat =
        c :: textFrom s.mem (Config.textBytes - (s.ci.toNat + 1)) (s.ci.toNat + 1) := by
      rw [hn, textFrom, hc]; simp [h0]
    rw [owed_of_run (by exact hr), owedChars, htext, stringEvents, charEvents]
    show sendEvents false _ ++ (sendEvents false _ ++ glyphEvents c 0 ++ owedChars s (s.ci.toNat + 1)) = _
    simp only [List.append_assoc]
    rfl
  · have htext : textFrom s.mem (Config.textBytes - s.ci.toNat) s.ci.toNat = [] := by
      rcases Nat.lt_or_ge s.ci.toNat Config.textBytes with hlt | hge
      · rw [show Config.textBytes - s.ci.toNat = (Config.textBytes - (s.ci.toNat + 1)) + 1 by omega, textFrom,
          hend.resolve_left (by omega)]
        rfl
      · rw [Nat.sub_eq_zero_of_le hge]; rfl
    rw [owedChars, htext]
    rfl

/-! ## Moving POS on -/

/-- At the start of the micro-op at p the operation owes its events, and then what stands after p. -/
theorem owed_goTo {s s' : State} {p : Place} {m : MicroOp} (hr : s.run = true)
    (hm : microOpAt (goTo p s) = .ok (m, s')) : owed (goTo p s) = m.events ++ owedLater { s with pos := p } := by
  rw [owed_of_run (by exact hr), owedNow_of_microOp rfl hm]; rfl

/-- When the micro-op at POS has completed, what the operation owes is what stood after it. -/
theorem Completed.owed_advance {s t : State} (C : Completed s) (h : Machine.advance s = .next t) :
    owed t = owedLater s := by
  have hr := C.running
  unfold Machine.advance at h
  unfold owedLater
  cases hp : s.pos
  all_goals simp only [hp] at h ⊢
  case initdClear => cases h; rw [owed_goTo hr rfl]; simp [MicroOp.events, owedLater, pulseEvents]; rfl
  case rstLow | lowWait | rstHigh => cases h; rw [owed_goTo hr rfl]; simp [MicroOp.events, owedLater]; rfl
  case highWait =>
    cases h
    split
    · next hop => rw [owed_goTo hr rfl]; simp only [owedAfterPulse, hop]; rfl
    · next hop => simp [owedAfterPulse, hop]
  case configure =>
    cases h
    split
    · next hop =>
      rw [initSeqStart, owed_goTo hr rfl]
      simp only [owedAfterConfigure, hop, if_true, seqEvents_cons, List.append_assoc]
      rfl
    · next hop => simp [owedAfterConfigure, hop]
  case single | initdSet => cases h; rfl
  case seq e rest =>
    cases rest with
    | cons e' rest => cases h; rw [owed_goTo hr rfl, seqEvents_cons, List.append_assoc]; rfl
    | nil => cases h; exact owed_pageSelect (by exact hr) rfl rfl
  case pageSelect => cases h; rw [owed_goTo hr rfl, List.append_assoc]; rfl
  case columnLow => cases h; rw [owed_goTo hr rfl]; rfl
  case columnHigh => cases h; exact owed_column (by exact hr) rfl rfl
  case column =>
    cases h
    split
    · next hop => rw [owed_goTo hr rfl]; simp only [delayEvents, hop]; rfl
    · next hop => rw [owed_nextColumn hr]; simp [delayEvents, hop]
  case columnDelay => cases h; exact owed_nextColumn hr
  case printSelect => exact owed_fetchChar (by exact hr) h
  case charLow => cases h; rw [owed_goTo hr rfl, List.append_assoc]; rfl
  case charHigh =>
    cases h
    rw [owed_goTo (by exact hr) rfl, glyphEvents_step _ (by omega), List.append_assoc]
    rfl
  case glyphByte =>
    split at h
    · next hlt =>
      cases h
      have e : (s.gk + 1#3).toNat = s.gk.toNat + 1 := by bv_omega
      rw [owed_goTo (by exact hr) rfl, glyphEvents_step _ (by omega), List.append_assoc, ← e]
      rfl
    · next hge =>
      have hk : s.gk.toNat = 4 := by have := C.glyphIndex hp; omega
      have hci := C.charIndex (by rw [hp]; rfl)
      have e : (s.ci + 1#11).toNat = s.ci.toNat + 1 := by
        simp only [Config.textBytes] at hci; bv_omega
      rw [owed_fetchChar (by exact hr) h, hk]
      show owedChars s (s.ci + 1#11).toNat = _
      rw [e]
      rfl

/-! ## The moves of the engine and of the line -/

/-- What a wait still owes, before it begins and while it is counted. -/
theorem owedNow_wait {s : State} {d : Duration}
    (hd : s.stage = .begin ∧ microOpAt s = .ok (.wait d, s) ∨ s.stage = .settle ∧ d = .cycles Config.settleCycles ∨
      s.stage = .count d) : owedNow s = waitEvents d := by
  rcases hd with ⟨hst, hm⟩ | ⟨hst, rfl⟩ | hst
  · exact owedNow_of_microOp hst hm
  · simp [owedNow, hst]
  · simp [owedNow, hst]

/-- The micro-op has emitted what it owed, and POS moves on. -/
theorem Completed.trace_owed_advance {s t : State} (C : Completed s) (h : Machine.advance s = .next t) :
    t.trace ++ owed t = s.trace ++ owedLater s := by
  rw [C.owed_advance h, (advance_move h).trace]

theorem Inv.trace_owed_engineTurn {s t : State} (h : Inv s) (hN : s.resetN = true)
    (ht : Machine.engineTurn s = .next t) : t.trace ++ owed t = s.trace ++ owed s := by
  rcases engineTurn_cases ht with ⟨_, rfl⟩ | ⟨_, _, rfl⟩ | ⟨hr, hst, hp, dc, b, s', hm, rfl⟩ | ⟨hr, b, hst, rfl⟩ |
    ⟨hr, d, _, hd, rfl⟩ | ⟨hr, d, hst, _, rfl⟩ | ⟨hr, d, hd, ht⟩ | ⟨hr, hst, l, hm, ht⟩ | ⟨hr, hst, hp, ht⟩ |
    ⟨hr, hst, v, hm, ht⟩
  · rfl
  · rfl
  · obtain ⟨bi, rfl⟩ := microOpAt_state hm
    rw [owed_of_run hr, owedNow_of_microOp hst hm, owed_of_run (by exact hr)]
    rfl
  · have e : owedNow s = sendEvents s.pinDc b := by simp [owedNow, hst]
    rw [owed_of_run hr, e, owed_of_run (by exact hr)]
    rfl
  · rw [owed_of_run hr, owedNow_wait (d := d) (by tauto), owed_of_run (by exact hr)]
    rfl
  · have e : owedNow s = waitEvents d := owedNow_wait (.inr (.inr hst))
    rw [owed_of_run hr, e, owed_of_run (by exact hr), owedNow_wait (s := { s with dly := s.dly - 1 }) (.inr (.inr hst))]
    rfl
  · obtain ⟨hsh, hp⟩ := h.wait_place (d := d) (by tauto)
    rw [endWait_eq d rfl] at ht
    have C := h.completed_waited hN hr hsh hp d
    rw [Completed.trace_owed_advance { C with } ht, owed_of_run hr, owedNow_wait (d := d) (by tauto),
      ← List.append_assoc]
    rfl
  · rw [(h.completed_drivePinRst hN hr hst (microOpAt_rst hm)).trace_owed_advance ht, owed_of_run hr,
      owedNow_of_microOp hst hm, ← List.append_assoc]
    rfl
  · have hm : microOpAt s = .ok (.configure, s) := by simp [microOpAt, hp]
    rw [(h.completed_configure hN hr hst hp).trace_owed_advance ht, owed_of_run hr, owedNow_of_microOp hst hm,
      ← List.append_assoc]
    rfl
  · rw [(h.completed_initd hN hr hst (microOpAt_initd hm)).trace_owed_advance ht, owed_of_run hr,
      owedNow_of_microOp hst hm]
    rfl

theorem trace_owed_bitSecondEdge {s : State} (hr : s.run = true) (hst : s.stage = .shift .secondEdge) :
    (bitSecondEdge s).trace ++ owed (bitSecondEdge s) = s.trace ++ owed s := by
  have e : owedNow s = sendEvents s.pinDc s.dr := by simp [owedNow, hst]
  rw [owed_of_run hr, e, owed_of_run (by simpa using hr)]
  unfold bitSecondEdge
  split
  · show (s.trace ++ [.byte s.pinDc s.dr]) ++ (waitEvents _ ++ owedLater s) = _
    simp [sendEvents]
  · rfl

/-- The line emits the byte with its last edge, and nothing before (R91). -/
theorem trace_owed_lineTurn (s : State) : (lineTurn s).trace ++ owed (lineTurn s) = s.trace ++ owed s := by
  have shifts : ∀ {part}, s.stage = .shift part → owedNow s = sendEvents s.pinDc s.dr := by
    intro part hst; simp [owedNow, hst]
  unfold lineTurn
  split
  · next hr =>
    split
    · next hst => rw [owed_of_run hr, shifts hst, owed_of_run (by exact hr)]; rfl
    · next hst => rw [owed_of_run hr, shifts hst, owed_of_run (by exact hr)]; rfl
    · next hst => exact trace_owed_bitSecondEdge hr hst
    all_goals rfl
  · rfl

/-! ## The moves of the host -/

/-- The same operation stands at the same place with the same loop counters, the same DC and the same byte. -/
structure SameWork (s t : State) : Prop where
  cur : t.cur = s.cur
  run : t.run = s.run
  pos : t.pos = s.pos
  stage : t.stage = s.stage
  pinDc : t.pinDc = s.pinDc
  dr : t.dr = s.dr
  pg : t.pg = s.pg
  cx : t.cx = s.cx
  ci : t.ci = s.ci
  cc : t.cc = s.cc
  gk : t.gk = s.gk
  ch : t.ch = s.ch

/-- Memory is the same, or the operation reads none of it. -/
def SameData (s t : State) : Prop := t.mem = s.mem ∨ racing s = false

theorem SameWork.isOp_eq {s t : State} (W : SameWork s t) (o : BitVec 4) : isOp o t = isOp o s := by
  simp only [isOp, W.cur]

theorem SameWork.frameData_eq {s t : State} (W : SameWork s t) (hr : s.run = true) (D : SameData s t) :
    frameData t = frameData s := by
  unfold frameData
  rw [W.isOp_eq, W.isOp_eq]
  rcases D with e | hrace
  · rw [e]
  · have hop : (opcField s.cur == 0x7#4) = false := by
      simp only [racing, hr, Bool.true_and, Bool.or_eq_false_iff] at hrace; exact hrace.1
    simp [isOp, hop]

theorem SameWork.owedChars_eq {s t : State} (W : SameWork s t) (e : t.mem = s.mem) (i : Nat) :
    owedChars t i = owedChars s i := by
  simp only [owedChars, W.cur, e]

theorem SameWork.owedNow_eq {s t : State} (W : SameWork s t) (hf : frameData t = frameData s) :
    owedNow t = owedNow s := by
  cases hst : s.stage with
  | begin =>
    have hst' : t.stage = .begin := W.stage.trans hst
    cases hp : s.pos with
    | column => rw [owedNow_column hst hp, owedNow_column hst' (W.pos.trans hp), hf, W.pg, W.cx]
    | _ => simp [owedNow, hst, hst', microOpAt, W.pos, hp, W.isOp_eq, W.cur, W.pg, W.cc, W.gk, W.ch]
  | _ => simp [owedNow, W.stage, hst, W.pinDc, W.dr]

theorem SameWork.owedLater_eq {s t : State} (W : SameWork s t) (hf : frameData t = frameData s)
    (hc : placeOf 0x8#4 s.pos = true → t.mem = s.mem) : owedLater t = owedLater s := by
  have hpages : ∀ y, owedPages t y = owedPages s y := fun y => by simp only [owedPages, W.isOp_eq, hf]
  have hcols : ∀ x, owedColumns t x = owedColumns s x := fun x => by
    simp only [owedColumns, W.isOp_eq, hf, W.pg, hpages]
  have hconf : owedAfterConfigure t = owedAfterConfigure s := by simp only [owedAfterConfigure, W.isOp_eq, hpages]
  have hpulse : owedAfterPulse t = owedAfterPulse s := by simp only [owedAfterPulse, W.isOp_eq, hconf]
  unfold owedLater
  rw [W.pos]
  cases hp : s.pos with
  | printSelect | charLow | charHigh | glyphByte =>
    have hm := hc (by rw [hp]; rfl)
    simp only [W.owedChars_eq hm, W.cc, W.ch, W.ci, W.gk]
  | _ => simp only [hpages, hcols, hconf, hpulse, W.isOp_eq, W.cx]

/-- The same work over the same data owes the same. -/
theorem SameWork.owed_eq {s t : State} (W : SameWork s t) (h : Inv s) (D : SameData s t) : owed t = owed s := by
  cases hr : s.run with
  | false => simp [owed, W.run, hr]
  | true =>
    have hf := W.frameData_eq hr D
    rw [owed_of_run hr, owed_of_run (W.run.trans hr), W.owedNow_eq hf, W.owedLater_eq hf]
    intro hp
    rcases D with e | hrace
    · exact e
    · have hop := (printPlace_facts hp).1 _ (h.placeFits hr).2
      simp [racing, hr, hop] at hrace

/-- What the host does to a running operation: it is the same work over the same data. -/
theorem sameWork_hostAccess {a : Access} {s t : State} (hr : s.run = true) (h : hostAccess a s = .next t) :
    SameWork s t ∧ SameData s t := by
  cases a with
  | read off n => cases h; exact ⟨by constructor <;> rfl, .inl rfl⟩
  | write off n v =>
    rcases hostWrite_cases h with rfl | h | rfl | ⟨rfl, _, _⟩
    · exact ⟨by constructor <;> rfl, .inl rfl⟩
    · rw [opWrite_eq, opOutcome_of_busy hr] at h; cases h; exact ⟨by constructor <;> rfl, .inl rfl⟩
    · exact ⟨by constructor <;> rfl, .inl rfl⟩
    · refine ⟨by constructor <;> simp, ?_⟩
      cases hrace : racing s with
      | true => exact .inl (by simp [hostStore, hrace])
      | false => exact .inr hrace

/-- Settles O58: a micro-op that completes has emitted what it owed, and what stood after it is owed then; every other
move leaves both alone. -/
theorem owedTraceIsConserved : Obligations.OwedTraceIsConserved := by
  intro t s u h hN hr hreset hdrain hu
  cases t with
  | host a =>
    rw [runTurn_host hN] at hu
    obtain ⟨W, D⟩ := sameWork_hostAccess hr hu
    obtain ⟨_, _, _, _, _, _, _, _, _, htrace⟩ := hostAccess_pins hu
    rw [W.owed_eq h D, htrace]
  | engine => exact h.trace_owed_engineTurn hN (by simpa [runTurn, hN] using hu)
  | line =>
    obtain rfl : lineTurn s = u := by simpa [runTurn, hN] using hu
    exact trace_owed_lineTurn s
  | drain =>
    obtain rfl : drainOne s = u := by simpa [runTurn, hN] using hu
    simp [drainOne, hdrain rfl]
  | resetPin level =>
    obtain rfl : level = true := by simpa using hreset
    obtain rfl : s = u := by simpa [runTurn, hN] using hu
    rfl

end Sys2Proof.Machine
end

section
/-! PROOFS. The registers of 10_state.md: what they read, and which moves change them. -/

namespace Sys2Proof.Machine

/-! ## What the registers read (R24, R33, R34, R42) -/

/-- Bit i of a flag's word, spelled as the layouts are. -/
theorem getLsbD_flagBit_eq (b : Bool) {k : Nat} (hk : k < 32) (i : Nat) :
    (flagBit b k).getLsbD i = (i == k && b) := by
  rw [getLsbD_flagBit]
  by_cases h : i = k
  · subst h; simp [hk]
  · simp [h, Ne.symm h]

/-- Bit i of the field BR at bits 5:3 of CFG. -/
theorem getLsbD_brField (br : BitVec 3) (i : Nat) :
    ((br.setWidth 32 : Word) <<< 3).getLsbD i = (decide (3 ≤ i ∧ i ≤ 5) && br.getLsbD (i - 3)) := by
  rw [BitVec.getLsbD_shiftLeft, BitVec.getLsbD_setWidth]
  by_cases h : 3 ≤ i ∧ i ≤ 5
  · obtain ⟨h3, h5⟩ := h
    simp [h3, h5, show i < 32 by omega, show i - 3 < 32 by omega, show ¬ i < 3 by omega]
  · by_cases h3 : i < 3
    · simp [h3, h]
    · have hge : br.getLsbD (i - 3) = false := BitVec.getLsbD_of_ge _ _ (by omega)
      simp [hge]

/-- Every code of BR gives a legal prescaler (R6). -/
theorem prescalerOk_code (br : BitVec 3) : prescalerOk (2 ^ (br.toNat + 1)) = true := by
  revert br; decide

/-- Settles O14: each word is the disjunction of its flags' words. -/
theorem registerWordLayouts : Obligations.RegisterWordLayouts := by
  refine ⟨?_, prescalerOk_code _, rfl, fun s i => ⟨?_, ?_, ?_⟩⟩
  · have key : ∀ br : BitVec 3, cfgWord { configuredCfg with br := br } = 0x207#32 ||| (br.setWidth 32 <<< 3) := by
      decide
    exact key Config.prescalerCode
  · show (statusWord s).getLsbD i = _
    simp [statusWord, getLsbD_flagBit_eq]
  · show (pinsWord s).getLsbD i = _
    simp [pinsWord, getLsbD_flagBit_eq]
  · show (cfgWord s.cfg).getLsbD i = _
    simp only [cfgWord, BitVec.getLsbD_or, getLsbD_brField]
    simp [getLsbD_flagBit_eq]

/-- Settles O52: each value is computed from the reset state. -/
theorem resetValues : Obligations.ResetValues :=
  ⟨by decide, by decide, by decide, by decide, rfl, rfl, rfl, rfl, rfl, fun _ => rfl⟩

/-! ## Which host write does what -/

theorem toNat_lt_of_regionOf_op {off : Offset} (h : regionOf off = .op) : off.toNat < 4 := by
  unfold regionOf at h; grind

theorem toNat_of_regionOf_status {off : Offset} (h : regionOf off = .status) : 4 ≤ off.toNat ∧ off.toNat < 8 := by
  unfold regionOf at h; grind

theorem regionOf_cfg {off : Offset} (h1 : 0x00C ≤ off.toNat) (h2 : off.toNat < 0x010) : regionOf off = .cfg := by
  unfold regionOf; grind

/-- An aligned word access to OP is at 0x000 (R52, R53). -/
theorem offset_of_op {off : Offset} (hal : aligned off .b4 = true) (h : regionOf off = .op) : off = 0x000#12 := by
  have hal : off.toNat % 4 = 0 := by simpa [aligned, Width.bytes] using hal
  have := toNat_lt_of_regionOf_op h
  apply BitVec.eq_of_toNat_eq; simp; omega

/-- An aligned word access to STATUS is at 0x004 (R52, R53). -/
theorem offset_of_status {off : Offset} (hal : aligned off .b4 = true) (h : regionOf off = .status) :
    off = 0x004#12 := by
  have hal : off.toNat % 4 = 0 := by simpa [aligned, Width.bytes] using hal
  have := toNat_of_regionOf_status h
  apply BitVec.eq_of_toNat_eq; simp; omega

/-- A host write is an OP write, clears error flags, stores bytes in a buffer, or is ignored (R53, R56 to R59). -/
theorem hostWrite_outcome {off : Offset} {n : Width} {v : Word} {s t : State} (h : hostWrite off n v s = .next t) :
    (off = 0x000#12 ∧ n = .b4 ∧ t = opOutcome v s) ∨ (off = 0x004#12 ∧ n = .b4 ∧ t = clearErrors v s) ∨
      t = hostStore off.toNat (bytesOf n v) s ∨ t = s := by
  unfold hostWrite at h
  split at h
  case isFalse => cases h; simp
  case isTrue hal =>
    split at h
    case h_1 hreg =>
      split at h
      · next hn =>
        subst hn
        rw [opWrite_eq] at h
        cases h
        exact .inl ⟨offset_of_op hal hreg, rfl, rfl⟩
      · cases h; simp
    case h_2 hreg =>
      cases h
      split
      · next hn => subst hn; exact .inr (.inl ⟨offset_of_status hal hreg, rfl, rfl⟩)
      · simp
    all_goals cases h; simp

/-- Settles O15: the write reaches clearErrors, whose bits are these. -/
theorem statusWriteClearsFlags : Obligations.StatusWriteClearsFlags := by
  intro v s hN
  have hclear : hostWrite 0x004#12 .b4 v s = .next (clearErrors v s) := rfl
  have keep : ∀ a b : Bool, (a && !b) = if b then false else a := by decide
  rw [runTurn_host hN]
  simp only [hostAccess, hclear, clearErrors, keep]

/-! ## OP (R23) -/

/-- An OP write changes OP only by starting the operation it spells. -/
theorem opOutcome_cur (v : Word) (s : State) :
    (opOutcome v s).cur = s.cur ∨ s.run = false ∧ (opOutcome v s).run = true ∧ (opOutcome v s).cur = v := by
  unfold opOutcome
  split
  · simp
  · next hr =>
    split
    · simp
    · split
      · simp
      · exact .inr ⟨by simpa using hr, rfl, rfl⟩

/-- A write to a running block, of an illegal word, or of a transfer to an unconfigured block is rejected (R76). -/
theorem opOutcome_cur_of_rejected {v : Word} {s : State}
    (h : s.run = true ∨ illegalWord v ∨ transferOpc (opcField v) = true ∧ s.cfg.spe = false) :
    (opOutcome v s).cur = s.cur := by
  rw [illegalWord_iff] at h
  unfold opOutcome
  split
  · simp
  · next hr =>
    split
    · simp
    · next hv =>
      obtain ⟨ho, hspe⟩ := (h.resolve_left hr).resolve_left hv
      simp [ho, hspe]

/-- What starts on an idle block is the operation the word spells. -/
theorem opOutcome_cur_of_started {v : Word} {s : State} (hr : s.run = false) (ht : (opOutcome v s).run = true) :
    (opOutcome v s).cur = v := by
  revert ht
  unfold opOutcome
  rw [if_neg (by simp [hr])]
  split
  · simp [hr]
  · split
    · simp [hr]
    · exact fun _ => rfl

/-- Settles O13: only an OP write on an idle block moves OP. -/
theorem opReadsLastAcceptedDescriptor : Obligations.OpReadsLastAcceptedDescriptor := by
  refine ⟨fun s => rfl, ?_, ?_, rfl⟩
  · intro v s t hN ht
    rw [runTurn_opWrite v hN, opWrite_eq] at ht
    cases ht
    exact ⟨fun ⟨hr, ht⟩ => opOutcome_cur_of_started hr ht, opOutcome_cur_of_rejected⟩
  · intro t s u hN hu hreset hne
    simp only [runTurn, hN, if_true] at hu
    cases t with
    | host a =>
      cases a with
      | read off n => cases hu; exact absurd rfl hne
      | write off n v =>
        rcases hostWrite_outcome hu with ⟨rfl, rfl, rfl⟩ | ⟨_, _, rfl⟩ | rfl | rfl
        · exact ⟨v, rfl, (opOutcome_cur v s).resolve_left hne⟩
        · exact absurd rfl hne
        · exact absurd (hostStore_cur _ _ s) hne
        · exact absurd rfl hne
    | engine => exact absurd (engineTurn_kept hu).cur hne
    | line => cases hu; exact absurd (lineTurn_kept s).cur hne
    | drain => cases hu; exact absurd (drainOne_cur s) hne
    | resetPin level =>
      obtain rfl : level = true := by simpa using hreset
      cases hu
      exact absurd rfl hne

/-! ## CFG and INITD (R28, R35) -/

/-- An engine turn leaves CFG and INITD as they are, or performs configure, or performs one of initd's two micro-ops. -/
theorem engineTurn_cfg_initd {s t : State} (h : engineTurn s = .next t) :
    (t.cfg = s.cfg ∧ t.initd = s.initd) ∨
    (s.run = true ∧ s.pos = .configure ∧ advance (configure s) = .next t) ∨
    (s.run = true ∧ ∃ v, (s.pos = .initdClear ∧ v = false ∨ s.pos = .initdSet ∧ v = true) ∧
      advance { s with initd := v } = .next t) := by
  rcases engineTurn_cases h with ⟨_, rfl⟩ | ⟨_, _, rfl⟩ | ⟨_, _, _, dc, b, s', hm, rfl⟩ | ⟨_, b, _, rfl⟩ |
    ⟨_, d, _, _, rfl⟩ | ⟨_, d, _, _, rfl⟩ | ⟨_, d, _, ht⟩ | ⟨_, _, l, _, ht⟩ | ⟨hr, _, hp, ht⟩ | ⟨hr, _, v, hm, ht⟩
  · exact .inl ⟨rfl, rfl⟩
  · exact .inl ⟨rfl, rfl⟩
  · obtain ⟨bi, rfl⟩ := microOpAt_state hm; exact .inl ⟨rfl, rfl⟩
  · exact .inl ⟨rfl, rfl⟩
  · exact .inl ⟨rfl, rfl⟩
  · exact .inl ⟨rfl, rfl⟩
  · rw [endWait_eq d rfl] at ht
    exact .inl ⟨(advance_move ht).cfg, (advance_move ht).initd⟩
  · exact .inl ⟨(advance_move ht).cfg, (advance_move ht).initd⟩
  · exact .inr (.inl ⟨hr, hp, ht⟩)
  · exact .inr (.inr ⟨hr, v, microOpAt_initd hm, ht⟩)

/-- No part of a bit changes CFG or INITD. -/
theorem lineTurn_cfg_initd (s : State) : (lineTurn s).cfg = s.cfg ∧ (lineTurn s).initd = s.initd := by
  unfold lineTurn
  split
  · split <;> simp
  · simp

/-- Outside block reset, CFG and INITD change only by an engine turn. -/
theorem runTurn_cfg_initd {t : Turn} {s u : State} (hN : s.resetN = true) (hu : runTurn t s = .next u) :
    (u.cfg = s.cfg ∧ u.initd = s.initd) ∨ (t = .resetPin false ∧ u = blockReset s) ∨
      (t = .engine ∧ engineTurn s = .next u) := by
  simp only [runTurn, hN, if_true] at hu
  cases t with
  | host a =>
    obtain ⟨_, hinitd, _, _, _, _, _, hcfg, _⟩ := hostAccess_pins hu
    exact .inl ⟨hcfg, hinitd⟩
  | engine => exact .inr (.inr ⟨rfl, hu⟩)
  | line => cases hu; exact .inl (lineTurn_cfg_initd s)
  | drain => cases hu; simp
  | resetPin level =>
    cases hu
    cases level with
    | true => exact .inl ⟨rfl, rfl⟩
    | false => exact .inr (.inl ⟨rfl, rfl⟩)

/-- Settles O27: of the engine's micro-ops only configure writes CFG, and offset 0x00C ignores the host. -/
theorem cfgChangesOnlyByConfigure : Obligations.CfgChangesOnlyByConfigure := by
  refine ⟨fun t s u hN hu hne => ?_, fun off n v s hN h1 h2 => ?_⟩
  · rcases runTurn_cfg_initd hN hu with ⟨hcfg, _⟩ | ⟨rfl, rfl⟩ | ⟨rfl, he⟩
    · exact absurd hcfg hne
    · exact .inl ⟨rfl, rfl⟩
    · rcases engineTurn_cfg_initd he with ⟨hcfg, _⟩ | ⟨hr, hp, hu⟩ | ⟨_, v, _, hu⟩
      · exact absurd hcfg hne
      · have M := advance_move hu
        exact .inr ⟨rfl, hr, hp, M.cfg, M.pinCs, M.pinSck, M.trace⟩
      · exact absurd (advance_move hu).cfg hne
  · rw [runTurn_host hN]
    simp only [hostAccess, hostWrite, regionOf_cfg h1 h2, ite_self]

/-- Settles O29: of the engine's micro-ops only initd writes INITD, and INIT's last one ends the operation. -/
theorem initdChangesOnlyInResetAndInit : Obligations.InitdChangesOnlyInResetAndInit := by
  intro t s u hN hu hne
  rcases runTurn_cfg_initd hN hu with ⟨_, hinitd⟩ | ⟨rfl, rfl⟩ | ⟨rfl, he⟩
  · exact absurd hinitd hne
  · exact .inl ⟨rfl, rfl⟩
  · rcases engineTurn_cfg_initd he with ⟨_, hinitd⟩ | ⟨_, _, hu⟩ | ⟨hr, v, ⟨hp, rfl⟩ | ⟨hp, rfl⟩, hu⟩
    · exact absurd hinitd hne
    · exact absurd (advance_move hu).initd hne
    · exact .inr (.inl ⟨rfl, hr, hp, (advance_move hu).initd⟩)
    · have hfin : advance { s with initd := true } = .next (finish { s with initd := true }) := by
        simp only [advance, hp]
      rw [hfin] at hu
      cases hu
      exact .inr (.inr ⟨rfl, hr, hp, rfl, rfl⟩)

end Sys2Proof.Machine
end

section
/-! PROOFS. The two faults: a DRAW or PRINT that reads a buffer byte never written (10_state.md R44). -/

namespace Sys2Proof.Machine

/-- One BMP byte of the column never written leaves it no byte, and the engine's turn faults (R121 corner case c). -/
theorem engineTurn_bmpUnwritten {s : State} {i : Nat} (hr : s.run = true) (hop : opcField s.cur = 0x7#4)
    (hp : s.pos = .column) (hst : s.stage = .begin) (hi : i < 8)
    (hm : s.mem.read (pixelOffset s.pg.toNat s.cx.toNat i) = none) : engineTurn s = .fault .bmpUnwritten := by
  have hpage : pageByte s.mem s.pg.toNat s.cx.toNat = none := packBits_of_unwritten hi hm
  have hcol : columnByte s = none := by simp [columnByte, isOp, hop, composePage_eq, hpage]
  simp [engineTurn, hr, hst, beginMicroOp, microOpAt, hp, hcol]

/-- A TEXT byte never written faults at the head of PRINT's loop (R138 corner case f). -/
theorem fetchChar_textUnwritten {s : State} (hlt : s.ci.toNat < Config.textBytes)
    (hm : s.mem.read (textOffset s.ci.toNat) = none) : fetchChar s = .fault .textUnwritten := by
  simp [fetchChar, hlt, hm]

/-- PRINT reads character i when the micro-op before it completes, log entry 9. -/
theorem advance_textUnwritten {s : State} {i : Nat}
    (hp : s.pos = .printSelect ∧ i = 0 ∨ s.pos = .glyphByte ∧ s.gk = 4#3 ∧ i = s.ci.toNat + 1)
    (hlt : i < Config.textBytes) (hm : s.mem.read (textOffset i) = none) : advance s = .fault .textUnwritten := by
  rcases hp with ⟨hp, rfl⟩ | ⟨hp, hgk, rfl⟩
  · simp only [advance, hp]
    exact fetchChar_textUnwritten hlt hm
  · have e : (s.ci + 1#11).toNat = s.ci.toNat + 1 := by
      simp only [Config.textBytes] at hlt; bv_omega
    simp only [advance, hp, hgk]
    exact fetchChar_textUnwritten (by rw [e]; exact hlt) (by rw [e]; exact hm)

/-- A wait that leads to a fault counts the rest of its delay without an event, and the engine's next turn faults. -/
theorem fairRun_countDown_fault {s : State} {d : Duration} {f : Fault} (k : Nat) (hN : s.resetN = true)
    (hr : s.run = true) (hst : s.stage = .count d) (hk : k = s.dly - 1) (hf : advance (waited d s) = .fault f) :
    ∃ u, fairRun k s = .next u ∧ u.trace = s.trace ∧ runTurn .engine u = .fault f := by
  induction k generalizing s with
  | zero =>
    have hturn : runTurn .engine s = endWait d { s with dly := 0 } := by
      simp [runTurn, hN, engineTurn, hr, hst, countDown, show s.dly ≤ 1 by omega]
    exact ⟨s, rfl, rfl, hturn.trans ((endWait_eq d rfl).trans hf)⟩
  | succ k ih =>
    have hturn : runTurn (fairTurn s) s = .next { s with dly := s.dly - 1 } := by
      simp [fairTurn, shifting, hst, runTurn, hN, engineTurn, hr, countDown, show ¬ s.dly ≤ 1 by omega]
    rw [fairRun_succ, hturn]
    exact ih (s := { s with dly := s.dly - 1 }) hN hr hst (by simp only; omega) hf

/-- The same where the settle delay has not begun: SETTLE_CYCLES turns stand before the fault. -/
theorem fairRun_settle_fault {s : State} {f : Fault} (hN : s.resetN = true) (hr : s.run = true)
    (hst : s.stage = .settle) (hf : advance (waited (.cycles Config.settleCycles) s) = .fault f) :
    ∃ u, fairRun Config.settleCycles s = .next u ∧ u.trace = s.trace ∧ runTurn .engine u = .fault f := by
  have hturn : runTurn .engine s = startWait (.cycles Config.settleCycles) s := by
    simp [runTurn, hN, engineTurn, hr, hst]
  have hfair : fairTurn s = .engine := by simp [fairTurn, shifting, hst]
  generalize Config.settleCycles = n at hf hturn ⊢
  cases n with
  | zero => exact ⟨s, rfl, rfl, hturn.trans ((endWait_eq _ rfl).trans hf)⟩
  | succ n =>
    rw [fairRun_succ, hfair, hturn]
    exact fairRun_countDown_fault (s := { s with dly := n + 1, stage := .count (.cycles (n + 1)) }) n hN hr rfl rfl hf

/-- Settles O38: DRAW's column has no byte, and PRINT's read of the character stands at the end of the delay. -/
theorem unwrittenBytesFault : Obligations.UnwrittenBytesFault := by
  refine ⟨fun s hN hr hop hp hst ⟨i, hi, hm⟩ => ?_, fun s i k hN hr hp hdelay hlt hm => ?_⟩
  · simpa [runTurn, hN] using engineTurn_bmpUnwritten hr hop hp hst hi hm
  · have hf : ∀ d, advance (waited d s) = .fault .textUnwritten := fun d => advance_textUnwritten hp hlt hm
    rcases hdelay with ⟨hst, rfl⟩ | ⟨⟨d, hst⟩, hk⟩
    · exact fairRun_settle_fault hN hr hst (hf _)
    · exact fairRun_countDown_fault k hN hr hst hk (hf d)

end Sys2Proof.Machine
end

section
/-! PROOFS. The register window (20_memory.md R52 to R61): which accesses are defined, and what a defined one does. -/

namespace Sys2Proof.Machine

/-! ## Which accesses are defined -/

/-- An aligned access to BMP or TEXT (R52, R56). -/
def BufferAccess (off : Offset) (n : Width) : Prop :=
  0x400 ≤ off.toNat ∧ off.toNat < 0x800 + Config.textBytes ∧ off.toNat % n.bytes = 0

/-- An aligned word access to OP, STATUS, PINS or CFG (R53). -/
def RegisterAccess (off : Offset) (n : Width) : Prop :=
  n = .b4 ∧ off.toNat < 0x010 ∧ off.toNat % 4 = 0

theorem aligned_iff {off : Offset} {n : Width} : aligned off n = true ↔ off.toNat % n.bytes = 0 := by
  simp [aligned]

theorem bufferAccess_iff {off : Offset} {n : Width} :
    BufferAccess off n ↔ aligned off n = true ∧ (regionOf off = .bmp ∨ regionOf off = .text) := by
  constructor
  · rintro ⟨hlo, hhi, hal⟩
    exact ⟨aligned_iff.2 hal, regionOf_buffer hlo hhi⟩
  · rintro ⟨hal, hreg⟩
    obtain ⟨hlo, hhi⟩ := buffer_bounds hal hreg
    have hpos : 0 < n.bytes := by cases n <;> decide
    exact ⟨hlo, (Nat.lt_add_of_pos_right hpos).trans_le hhi, aligned_iff.1 hal⟩

theorem toNat_lt_of_regionOf_register {off : Offset}
    (h : regionOf off = .op ∨ regionOf off = .status ∨ regionOf off = .pins ∨ regionOf off = .cfg) :
    off.toNat < 0x010 := by
  unfold regionOf at h; grind

/-- A write that is neither an aligned word write to OP or STATUS nor an aligned one to a buffer is ignored
(R53, R57, R58). -/
theorem hostWrite_ignored {off : Offset} {n : Width} {s : State} (v : Word)
    (hword : ¬ (n = .b4 ∧ (off = 0x000#12 ∨ off = 0x004#12))) (hbuf : ¬ BufferAccess off n) :
    hostWrite off n v s = .next s := by
  rw [bufferAccess_iff] at hbuf
  unfold hostWrite
  split
  · next hal =>
    cases hreg : regionOf off with
    | op =>
      have hn : n ≠ .b4 := by rintro rfl; exact hword ⟨rfl, .inl (offset_of_op hal hreg)⟩
      simp [hn]
    | status =>
      have hn : n ≠ .b4 := by rintro rfl; exact hword ⟨rfl, .inr (offset_of_status hal hreg)⟩
      simp [hn]
    | pins | cfg | reserved => rfl
    | bmp => exact absurd ⟨hal, .inl hreg⟩ hbuf
    | text => exact absurd ⟨hal, .inr hreg⟩ hbuf
  · rfl

/-- A read that is neither an aligned word read of a register nor an aligned one of a buffer answers 0
(R53, R57, R58). -/
theorem readValue_undefined {off : Offset} {n : Width} (s : State) (hword : ¬ RegisterAccess off n)
    (hbuf : ¬ BufferAccess off n) : readValue off n s = 0#32 := by
  rw [bufferAccess_iff] at hbuf
  unfold readValue
  split
  · next hal =>
    have hn : off.toNat < 0x010 → n ≠ .b4 := by
      rintro hlt rfl; exact hword ⟨rfl, hlt, aligned_iff.1 hal⟩
    cases hreg : regionOf off with
    | op | status | pins | cfg => simp [hn (toNat_lt_of_regionOf_register (by simp [hreg]))]
    | bmp => exact absurd ⟨hal, .inl hreg⟩ hbuf
    | text => exact absurd ⟨hal, .inr hreg⟩ hbuf
    | reserved => rfl
  · rfl

theorem runTurn_read (off : Offset) (n : Width) {s : State} (hN : s.resetN = true) :
    runTurn (.host (.read off n)) s = .next (hostRead off n s) := runTurn_host hN

/-- An access that is not defined is ignored if it is a write and answers 0 if it is a read (R53, R57, R58). -/
theorem undefined_access_inert {off : Offset} {n : Width} (v : Word) {s : State} (hN : s.resetN = true)
    (hword : ¬ RegisterAccess off n) (hbuf : ¬ BufferAccess off n) :
    runTurn (.host (.write off n v)) s = .next s ∧
      ∃ t, runTurn (.host (.read off n)) s = .next t ∧ t.reads = s.reads ++ [0#32] := by
  refine ⟨?_, hostRead off n s, runTurn_read off n hN, ?_⟩
  · rw [runTurn_host hN]
    refine hostWrite_ignored v ?_ hbuf
    rintro ⟨rfl, rfl | rfl⟩ <;> exact hword ⟨rfl, by decide⟩
  · rw [hostRead_reads, readValue_undefined s hword hbuf]

/-- Settles O17: below 0x010 only an aligned word access is defined. -/
theorem registersTakeAlignedWordsOnly : Obligations.RegistersTakeAlignedWordsOnly := by
  intro off n v s hN hlt hnot
  refine undefined_access_inert v hN ?_ ?_
  · rintro ⟨hn, _, hal⟩; exact hnot.elim (· hn) (· hal)
  · rintro ⟨hlo, _⟩; omega

/-- Settles O18: no access to a reserved offset is defined. -/
theorem reservedOffsetsAreInert : Obligations.ReservedOffsetsAreInert := by
  intro off n v s hN hres
  refine undefined_access_inert v hN ?_ ?_
  · rintro ⟨_, hlt, _⟩; omega
  · rintro ⟨hlo, hhi, _⟩; omega

/-- Settles O19: no misaligned access to a buffer is defined, and an aligned one ends inside the buffers. -/
theorem misalignedBufferAccessIsInert : Obligations.MisalignedBufferAccessIsInert := by
  intro off n v s hN hlo hhi
  refine ⟨fun hmis => undefined_access_inert v hN ?_ ?_, fun hal => ?_⟩
  · rintro ⟨_, hlt, _⟩; omega
  · rintro ⟨_, _, hal⟩; exact hmis hal
  · exact (buffer_bounds (aligned_iff.2 hal) (regionOf_buffer hlo hhi)).2

/-! ## What an aligned buffer access does -/

/-- A store touches nothing but the two places a buffer byte stands. -/
theorem hostStore_frame (a : Nat) (bs : List Byte) (s : State) :
    hostStore a bs s = { s with mem := (hostStore a bs s).mem, posted := (hostStore a bs s).posted } := by
  unfold hostStore; split <;> rfl

/-- The host sees byte j of the value it wrote at off + j (R56, R61). -/
theorem hostByte_hostStore_written {n : Width} {j : Nat} (a : Nat) (v : Word) (s : State) (hj : j < n.bytes) :
    hostByte (hostStore a (bytesOf n v) s) (a + j) = some (v.extractLsb' (8 * j) 8) := by
  rw [hostByte_hostStore, bytesOf_length, if_pos (by omega), Nat.add_sub_cancel_left, bytesOf_getElem?, if_pos hj]
  rfl

/-- The host sees every other byte as before. -/
theorem hostByte_hostStore_outside {n : Width} {a k : Nat} (v : Word) (s : State) (hk : k < a ∨ a + n.bytes ≤ k) :
    hostByte (hostStore a (bytesOf n v) s) k = hostByte s k := by
  rw [hostByte_hostStore, bytesOf_length, if_neg (by omega)]

/-- Settles O20: the write is one store of its bytes. -/
theorem bufferWriteStoresItsBytes : Obligations.BufferWriteStoresItsBytes := fun _ _ v s hN hlo hhi hal =>
  ⟨_, runTurn_bufferWrite hN hlo hhi hal, hostStore_frame _ _ s, fun _ hj => hostByte_hostStore_written _ v s hj,
    fun _ ha => hostByte_hostStore_outside v s ha⟩

/-- Settles O16: a read only records its answer, and a write is an aligned one to a buffer or is ignored. -/
theorem onlyOpAndStatusWritesHaveSideEffects : Obligations.OnlyOpAndStatusWritesHaveSideEffects := by
  intro off n v s hN
  refine ⟨runTurn_read off n hN, fun hword => ?_⟩
  split
  · next hbuf =>
    obtain ⟨hlo, hhi, hal⟩ := hbuf
    exact ⟨_, runTurn_bufferWrite hN hlo hhi hal, rfl, hostStore_frame _ _ s,
      fun _ hj => hostByte_hostStore_written _ v s hj, fun _ ha => hostByte_hostStore_outside v s ha⟩
  · next hbuf =>
    rw [runTurn_host hN]
    exact hostWrite_ignored v hword hbuf

theorem readValue_buffer {off : Offset} {n : Width} (s : State) (h : BufferAccess off n) :
    readValue off n s = valueOf (bufferBytes off n s) := by
  obtain ⟨hal, hreg⟩ := bufferAccess_iff.1 h
  rcases hreg with hreg | hreg <;> simp [readValue, hal, hreg]

/-- Where every byte of the access was written, a read draws no free value. -/
theorem bufferBytes_of_written {off : Offset} {n : Width} {s : State} {f : Nat → Byte}
    (h : ∀ j, j < n.bytes → hostByte s (off.toNat + j) = some (f j)) :
    bufferBytes off n s = (List.range n.bytes).map f := by
  refine List.map_congr_left fun j hj => ?_
  rw [h j (List.mem_range.1 hj), Option.getD_some]

/-- Byte j of a little-endian value (R56, R61). -/
theorem extractLsb'_valueOf {bs : List Byte} {j : Nat} (hl : bs.length ≤ 4) :
    (valueOf bs).extractLsb' (8 * j) 8 = (bs[j]?).getD 0#8 := by
  apply BitVec.eq_of_getLsbD_eq
  intro i hi
  rw [BitVec.getLsbD_extractLsb', getLsbD_valueOf bs hl, show (8 * j + i) / 8 = j by omega,
    show (8 * j + i) % 8 = i by omega]
  simp [hi]

/-- The bits of a little-endian value above its bytes are 0 (R56). -/
theorem getLsbD_valueOf_above {bs : List Byte} {k : Nat} (hl : bs.length ≤ 4) (hk : 8 * bs.length ≤ k) :
    (valueOf bs).getLsbD k = false := by
  rw [getLsbD_valueOf bs hl, List.getElem?_eq_none (by omega)]
  simp

/-- Settles O21: the answer is the little-endian value of the bytes the host sees. -/
theorem bufferReadIsLittleEndian : Obligations.BufferReadIsLittleEndian := by
  intro off n s f hN hlo hhi hal hwritten
  have hvalue : readValue off n s = valueOf ((List.range n.bytes).map f) := by
    rw [readValue_buffer s ⟨hlo, hhi, hal⟩, bufferBytes_of_written hwritten]
  have hlen : ((List.range n.bytes).map f).length = n.bytes := by simp
  have hle : ((List.range n.bytes).map f).length ≤ 4 := by rw [hlen]; cases n <;> decide
  refine ⟨hostRead off n s, readValue off n s, runTurn_read off n hN, rfl, fun j hj => ?_, fun k hk => ?_⟩
  · rw [hvalue, extractLsb'_valueOf hle]
    simp [hj]
  · rw [hvalue]
    exact getLsbD_valueOf_above hle (hlen.symm ▸ hk)

/-! ## Which moves change a buffer byte -/

/-- An OP write stores nothing. -/
theorem opWrite_hostMemory {v : Word} {s t : State} (h : opWrite v s = .next t) : hostMemory t = hostMemory s := by
  rcases opWrite_cases h with rfl | rfl | rfl | ⟨i, rfl⟩ <;> rfl

/-- Settles O23: the engine and the line keep the host's view of the buffers, a drain moves a byte the host sees
already, and a write that stores is one to a buffer. -/
theorem onlyHostWritesChangeBuffers : Obligations.OnlyHostWritesChangeBuffers := by
  intro t s u hN hu hreset houtside a
  suffices hmem : hostMemory u = hostMemory s by rw [hostByte, hostByte, hmem]
  simp only [runTurn, hN, if_true] at hu
  cases t with
  | host a =>
    cases a with
    | read off n => cases hu; rfl
    | write off n v =>
      rcases hostWrite_cases hu with rfl | hop | rfl | ⟨_, hal, hreg⟩
      · rfl
      · exact opWrite_hostMemory hop
      · rfl
      · obtain ⟨hlo, hhi, _⟩ := bufferAccess_iff.2 ⟨hal, hreg⟩
        have := houtside off n v rfl
        omega
  | engine => exact (engineTurn_kept hu).memory
  | line => cases hu; exact (lineTurn_kept s).memory
  | drain => cases hu; exact hostMemory_drainOne s
  | resetPin level =>
    obtain rfl : level = true := by simpa using hreset
    cases hu
    rfl

/-! ## The oldest move -/

/-- Settles O7: an OP write of a word that decodes is the meaning of its instruction. -/
theorem stepRunsTheDecodedInstruction : Obligations.StepRunsTheDecodedInstruction := by
  intro s
  have htake : ∀ t rest, s.turns = t :: rest → step s = runTurn t { s with turns := rest } := by
    intro t rest hturns
    simp only [step, hturns]
  refine ⟨fun rest v i hN hturns hi => ?_, htake, fun hnil => ?_⟩
  · rw [htake _ _ hturns, runTurn_opWrite v (by exact hN)]
    simp only [opWrite, hi]
  · simp only [step, hnil]

end Sys2Proof.Machine
end

section
/-! PROOFS. Buffer writes that race with DRAW or PRINT (20_memory.md R66): drain turns make them visible to the engine
one whole write at a time, oldest first. -/

namespace Sys2Proof.Machine

/-- The block once its k oldest racing writes are visible to the engine, with no move left to make. -/
def drained (k : Nat) (s : State) : State :=
  { s with mem := hostMemory { s with posted := s.posted.take k }, posted := s.posted.drop k, turns := [] }

theorem drained_zero (s : State) : drained 0 s = { s with turns := [] } := by
  simp [drained, hostMemory]

theorem drained_succ (k : Nat) (s : State) : drained (k + 1) s = drained k (drainOne s) := by
  cases hposted : s.posted with
  | nil => simp [drained, drainOne, hostMemory, hposted]
  | cons w ws => simp [drained, drainOne, hostMemory, hposted]

/-- The host's view does not depend on how many racing writes the engine sees. -/
theorem hostMemory_drained (k : Nat) (s : State) : hostMemory (drained k s) = hostMemory s := by
  simp only [drained, hostMemory, ← List.foldl_append, List.take_append_drop]

theorem drainOne_withTurns (s : State) (ts : List Turn) :
    drainOne { s with turns := ts } = { drainOne s with turns := ts } := by
  cases hposted : s.posted <;> simp [drainOne, hposted]

theorem step_drain {s : State} (ts : List Turn) (hN : s.resetN = true) :
    step { s with turns := .drain :: ts } = .next { drainOne s with turns := ts } := by
  rw [← drainOne_withTurns]
  simp only [step, runTurn, hN, if_true]

/-- k drain turns make the k oldest racing writes visible. -/
theorem run_drains (k : Nat) {s : State} (hN : s.resetN = true) :
    Host.Core.run Sys2Proof.core k { s with turns := List.replicate k .drain } = .next (drained k s) := by
  induction k generalizing s with
  | zero => rw [drained_zero]; rfl
  | succ k ih =>
    have hstep : Sys2Proof.core.step { s with turns := List.replicate (k + 1) .drain } =
        .next { drainOne s with turns := List.replicate k .drain } := step_drain _ hN
    simp only [Host.Core.run, hstep]
    rw [ih (by simpa using hN), drained_succ]

/-- A store under a running DRAW or PRINT is posted behind the writes that race already (R66). -/
theorem hostStore_of_racing {s : State} (hr : racing s = true) (a : Nat) (bs : List Byte) :
    hostStore a bs s = { s with posted := s.posted ++ [{ off := a, bytes := bs }] } := by
  simp [hostStore, hr]

/-- The engine sees exactly the k oldest of the writes that raced before this store. -/
theorem drained_hostStore_mem {s : State} (hr : racing s = true) (a : Nat) (bs : List Byte) {k : Nat}
    (hk : k ≤ s.posted.length) :
    (drained k (hostStore a bs s)).mem = hostMemory { s with posted := s.posted.take k } := by
  simp only [hostStore_of_racing hr, drained, List.take_append_of_le_length hk]

/-- Once all writes are drained the engine sees what the host sees. -/
theorem drained_all {s : State} {k : Nat} (hk : s.posted.length ≤ k) :
    (drained k s).posted = [] ∧ (drained k s).mem = hostMemory s := by
  simp [drained, List.take_of_length_le hk, hk]

/-- Settles O22: the write is posted behind the others, and each drain turn makes the oldest visible. -/
theorem racingWriteShowsOldOrNew : Obligations.RacingWriteShowsOldOrNew := by
  intro off n v s hN hrun hop hlo hhi hal
  have hracing : racing s = true := by simpa [racing, hrun] using hop
  have hNt : (hostStore off.toNat (bytesOf n v) s).resetN = true := by simpa using hN
  have hlen : (hostStore off.toNat (bytesOf n v) s).posted.length = s.posted.length + 1 := by
    simp [hostStore_of_racing hracing]
  obtain ⟨hposted, hmem⟩ := drained_all hlen.le
  have hwritten : ∀ j, j < n.bytes →
      hostByte (hostStore off.toNat (bytesOf n v) s) (off.toNat + j) = some (v.extractLsb' (8 * j) 8) :=
    fun _ hj => hostByte_hostStore_written _ v s hj
  have houtside : ∀ a, a < off.toNat ∨ off.toNat + n.bytes ≤ a →
      hostByte (hostStore off.toNat (bytesOf n v) s) a = hostByte s a :=
    fun _ ha => hostByte_hostStore_outside v s ha
  refine ⟨_, runTurn_bufferWrite hN hlo hhi hal, ?_, hwritten, houtside, ?_, ?_⟩
  · intro a; rw [hostStore_of_racing hracing]
  · intro k hk
    refine ⟨_, run_drains k hNt, fun a => ?_, fun a => ?_⟩
    · rw [drained_hostStore_mem hracing _ _ hk]; rfl
    · rw [hostByte, hostMemory_drained]; rfl
  · refine ⟨_, run_drains _ hNt, hposted, fun j hj => ?_, fun a ha => ?_⟩
    · rw [hmem]; exact hwritten j hj
    · rw [hmem]; exact houtside a ha

end Sys2Proof.Machine
end

section
/-! PROOFS. The descriptor word (30_encoding.md R70 to R79, R84): decoding and encoding undo each other, the bits that
select the operation, and the plain bit fields. -/

namespace Sys2Proof

/-! ## Decoding and encoding (R70 to R75) -/

/-- Four fields laid out decode to the instruction their OPC selects. -/
theorem decode_packFields {o : BitVec 4} {a : BitVec 8} {x : BitVec 7} {y : BitVec 3} {i : Instr}
    (h : ofOpc o a x y = some i) : decode (packFields o a x y) = .ok i := by
  simp only [decode, reservedClear_packFields, opcField_packFields, argField_packFields, xField_packFields,
    yField_packFields, h, if_true]

/-- Settles O1: every instruction is its four fields laid out, and its OPC selects it with these fields. -/
theorem decodeOfEncode : Obligations.DecodeOfEncode := by
  intro i
  cases i <;> exact decode_packFields rfl

/-- Settles O2: only a word whose reserved bits are 0 is accepted, and such a word is its four fields laid out. -/
theorem encodeOfDecode : Obligations.EncodeOfDecode := fun _ _ => encode_of_decode

/-- Settles O5: each word is the encoding of its instruction. -/
theorem tableWordsDecode : Obligations.TableWordsDecode :=
  ⟨decodeOfEncode (.config 0#8 0#7 0#3), decodeOfEncode (.reset 0#8 0#7 0#3), decodeOfEncode (.cmd 0xAF#8 0#7 0#3),
   decodeOfEncode (.data 0x55#8 0#7 0#3), decodeOfEncode (.init 0#8 0#7 0#3), decodeOfEncode (.clear 0xFF#8 127#7 7#3),
   decodeOfEncode (.draw 0#8 0#7 0#3), decodeOfEncode (.print 0#8 10#7 2#3), decodeOfEncode (.testfill 0#8 0#7 0#3)⟩

/-! ## The bits that select the operation (R72, R74) -/

theorem getLsbD_reservedMask {i : Nat} (hi : i < 32) :
    (0xF88000F0#32).getLsbD i = decide (4 ≤ i ∧ i < 8 ∨ i = 23 ∨ 27 ≤ i) := by
  revert i; decide

theorem getLsbD_selectMask {i : Nat} (hi : i < 32) :
    (0xF88000FF#32).getLsbD i = decide (i < 8 ∨ i = 23 ∨ 27 ≤ i) := by
  revert i; decide

/-- Under the mask of the reserved bits nothing is left of a word in which they are 0 (R74). -/
theorem reservedClear_of_mask {v : Word} (h : reservedClear v = true) : v &&& 0xF88000F0#32 = 0#32 := by
  rw [reservedClear_iff] at h
  apply BitVec.eq_of_getLsbD_eq
  intro i hi
  rw [BitVec.getLsbD_and, getLsbD_reservedMask hi]
  by_cases hres : 4 ≤ i ∧ i < 8 ∨ i = 23 ∨ 27 ≤ i
  · simp [h i hi hres]
  · simp [hres]

/-- The masked word is an OPC exactly where the reserved bits are 0 and OPC stands in its field. -/
theorem and_selectMask_eq_iff (v : Word) (o : BitVec 4) :
    v &&& 0xF88000FF#32 = o.setWidth 32 ↔ reservedClear v = true ∧ opcField v = o := by
  constructor
  · intro h
    have hbit : ∀ i, i < 32 → (i < 8 ∨ i = 23 ∨ 27 ≤ i) → v.getLsbD i = o.getLsbD i := by
      intro i hi hsel
      have := congrArg (fun w => w.getLsbD i) h
      simpa only [BitVec.getLsbD_and, getLsbD_selectMask hi, hsel, BitVec.getLsbD_setWidth, hi, decide_true,
        Bool.and_true, Bool.true_and] using this
    constructor
    · rw [reservedClear_iff]
      intro i hi hres
      rw [hbit i hi (by omega), BitVec.getLsbD_of_ge o i (by omega)]
    · apply BitVec.eq_of_getLsbD_eq
      intro i hi
      simpa [opcField, hi] using hbit i (by omega) (by omega)
  · rintro ⟨hres, rfl⟩
    apply BitVec.eq_of_getLsbD_eq
    intro i hi
    rw [BitVec.getLsbD_and, getLsbD_selectMask hi, BitVec.getLsbD_setWidth, opcField, BitVec.getLsbD_extractLsb']
    by_cases hlow : i < 4
    · simp [hlow, hi, show i < 8 by omega]
    · by_cases hsel : i < 8 ∨ i = 23 ∨ 27 ≤ i
      · have hbit : v.getLsbD i = false := reservedClear_iff v |>.1 hres i hi (by omega)
        rw [hbit]; simp [hlow]
      · simp [hlow, hsel]

/-- An OPC that some instruction has selects an operation with that OPC, whatever the other fields. -/
theorem ofOpc_opc (i : Instr) (a : BitVec 8) (x : BitVec 7) (y : BitVec 3) :
    ∃ j, ofOpc i.opc a x y = some j ∧ j.opc = i.opc := by
  cases i <;> exact ⟨_, rfl, rfl⟩

/-- A word decodes to an operation with i's OPC exactly where its reserved bits are 0 and its OPC is i's. -/
theorem decode_opc_iff (v : Word) (i : Instr) :
    (decode v).toOption.map Instr.opc = some i.opc ↔ reservedClear v = true ∧ opcField v = i.opc := by
  constructor
  · intro h
    cases hd : decode v with
    | error e => rw [hd] at h; cases h
    | ok j =>
      rw [hd] at h
      obtain rfl := encode_of_decode hd
      exact ⟨reservedClear_encode j, (opcField_encode j).trans (Option.some.inj h)⟩
  · rintro ⟨hres, hopc⟩
    obtain ⟨j, hj, hjopc⟩ := ofOpc_opc i (argField v) (xField v) (yField v)
    have hd : decode v = .ok j := by rw [← packFields_fields hres, hopc]; exact decode_packFields hj
    rw [hd, ← hjopc]
    rfl

/-- Settles O3: both sides say that the reserved bits are 0 and that OPC is i's. -/
theorem maskSelectsOperation : Obligations.MaskSelectsOperation := by
  intro v i
  refine ⟨(decode_opc_iff v i).trans (and_selectMask_eq_iff v i.opc).symm, fun hmask => ?_⟩
  have hres : ¬ reservedClear v = true := fun h => hmask (reservedClear_of_mask h)
  simp only [decode, hres]
  rfl

/-! ## Fields and address bytes as numbers (R71, R77 to R79, R137) -/

/-- Settles O4: a field of w bits from bit n on is the word divided by 2^n, modulo 2^w. -/
theorem operandFields : Obligations.OperandFields := by
  intro v
  simp only [opcField, argField, xField, yField, BitVec.extractLsb'_toNat, Nat.shiftRight_eq_div_pow]
  norm_num

/-- Settles O6: the address bytes are checked for every page and column, and the column wraps at 256. -/
theorem addressBytes : Obligations.AddressBytes :=
  ⟨by decide, by decide, fun _ _ => BitVec.toNat_ofNat _ _⟩

end Sys2Proof
end

section
/-! PROOFS. Writing OP (30_encoding.md R76): its outcomes, and what the meaning of an instruction leaves unchanged. -/

namespace Sys2Proof.Machine

theorem opOutcome_of_illegal {v : Word} {s : State} (hr : s.run = false) (hv : wordLegal v = false) :
    opOutcome v s = raise .illegal s := by
  simp [opOutcome, hr, hv]

theorem opOutcome_of_unconfigured {v : Word} {s : State} (hr : s.run = false) (hv : wordLegal v = true)
    (ho : transferOpc (opcField v) = true) (hspe : s.cfg.spe = false) : opOutcome v s = raise .notcfg s := by
  simp [opOutcome, hr, hv, ho, hspe]

theorem opOutcome_of_accepted {v : Word} {s : State} (hr : s.run = false) (hv : wordLegal v = true)
    (hc : transferOpc (opcField v) = true → s.cfg.spe = true) : opOutcome v s = started v s := by
  have hready : ¬ (transferOpc (opcField v) && !s.cfg.spe) = true := by simpa using hc
  simp only [opOutcome, hr, hv, if_neg hready]
  rfl

/-- Settles O8: the decoder's verdict is that of the two cases of R161, and the tests stand in the order of R76. -/
theorem opWriteOutcomes : Obligations.OpWriteOutcomes := by
  intro v s hN
  rw [runTurn_opWrite v hN, opWrite_eq, illegalWord_iff, Bool.not_eq_false]
  refine ⟨fun hr => ?_, fun hr hv => ?_, fun hr hv ho hspe => ?_, fun hr hv hc => ?_⟩
  · rw [opOutcome_of_busy hr]; rfl
  · rw [opOutcome_of_illegal hr hv]; rfl
  · rw [opOutcome_of_unconfigured hr hv ho hspe]; rfl
  · rw [opOutcome_of_accepted hr hv hc]

/-- On an idle block that can take it, an instruction starts its operation (R76). -/
theorem exec_of_accepted {i : Instr} {s : State} (hr : s.run = false)
    (hc : transferOpc i.opc = true → s.cfg.spe = true) : exec i s = .next (started (encode i) s) := by
  rw [exec_eq_submit, submit, if_neg (by simp [hr]), if_neg (by simpa using hc)]

/-- What starting an instruction's operation sets, said by its OPC. -/
theorem started_encode (i : Instr) (s : State) :
    started (encode i) s =
      { s with cur := encode i, run := true, pos := firstPlace i.opc, stage := .begin
               pg := if pagesOpc i.opc then 0#3 else s.pg } := by
  simp only [started, opcField_encode]

/-- Settles O10: none of the three transfers bytes, so an idle block is all they need. -/
theorem configResetInitStart : Obligations.ConfigResetInitStart := by
  intro arg x y s hr
  refine ⟨?_, ?_, ?_⟩ <;> rw [exec_of_accepted hr (by rintro ⟨⟩), started_encode] <;> rfl

/-- Settles O11: on a configured line the six transfer operations are accepted too. -/
theorem transferOperationsStart : Obligations.TransferOperationsStart := by
  intro arg x y s hr hspe
  refine ⟨?_, ?_, ?_, ?_, ?_, ?_⟩ <;> rw [exec_of_accepted hr fun _ => hspe, started_encode] <;> rfl

/-- Settles O12: each of the three outcomes of an instruction writes the fields named and no other. -/
theorem execFrame : Obligations.ExecFrame := by
  intro i s t h
  rcases exec_cases h with ⟨hr, rfl⟩ | ⟨hr, _, hspe, rfl⟩ | ⟨_, _, rfl⟩
  · simp [hr, raise, hostByte, hostMemory]
  · simp [hr, hspe, raise, hostByte, hostMemory]
  · rw [started_encode]
    cases hpages : pagesOpc i.opc <;> simp [hostByte, hostMemory]

end Sys2Proof.Machine
end

section
/-! PROOFS. The pseudo-operations wait and op_wait (30_encoding.md R85) under every order of moves. -/

namespace Sys2Proof.Machine

/-! ## A wait on a stuck line (R103, R168) -/

/-- A byte is on the line of the running block, and RESET_N is 1. -/
structure InFlight (s : State) : Prop where
  released : s.resetN = true
  running : s.run = true
  shifting : shifting s = true

/-- From s to t nothing was emitted and the host polled n times, reading BUSY = 1 each time. -/
structure BusyPolls (n : Nat) (s t : State) : Prop where
  trace : t.trace = s.trace
  reads : ∃ ws, t.reads = s.reads ++ ws ∧ ws.length = n ∧ ∀ w ∈ ws, w.getLsbD 0 = true

/-- A move that answers no read and emits nothing. -/
theorem BusyPolls.silent {s t : State} (htrace : t.trace = s.trace) (hreads : t.reads = s.reads) : BusyPolls 0 s t :=
  ⟨htrace, [], by simp [hreads]⟩

theorem BusyPolls.polled {s : State} (hr : s.run = true) : BusyPolls 1 s (polled s) :=
  ⟨rfl, [statusWord s], rfl, rfl, by simp [getLsbD_statusWord_zero, hr]⟩

theorem BusyPolls.trans {n m : Nat} {s t u : State} (h : BusyPolls n s t) (h' : BusyPolls m t u) :
    BusyPolls (n + m) s u := by
  obtain ⟨ws, hws, hn, hbusy⟩ := h.reads
  obtain ⟨ws', hws', hm, hbusy'⟩ := h'.reads
  refine ⟨h'.trace.trans h.trace, ws ++ ws', by rw [hws', hws, List.append_assoc], by simp [hn, hm], fun w hw => ?_⟩
  exact (List.mem_append.1 hw).elim (hbusy w) (hbusy' w)

/-- While a byte is in flight the engine only polls TC (R26). -/
theorem InFlight.engineTurn {s : State} (h : InFlight s) : engineTurn s = .next s := by
  have hsh := h.shifting
  unfold Machine.engineTurn
  rw [if_pos h.running]
  cases hst : s.stage with
  | shift p => rfl
  | begin | load | settle | count => simp [Machine.shifting, hst] at hsh

/-- No move but the line's or block reset moves the byte, and the wait goes on. -/
theorem InFlight.programMove {s : State} (h : InFlight s) (rest : List HostStep) {k : Pick} (hline : k ≠ .line)
    (hreset : k ≠ .resetPin false) :
    ∃ t, programMove k (.waitIdle :: rest) s = .next (.waitIdle :: rest, t) ∧ InFlight t ∧
      BusyPolls (if k = .host then 1 else 0) s t := by
  cases k with
  | host =>
    refine ⟨polled s, ?_, ⟨h.released, h.running, h.shifting⟩, .polled h.running⟩
    rw [Machine.programMove, hostMove_wait rest h.released, h.running]
    rfl
  | engine =>
    refine ⟨s, ?_, h, .silent rfl rfl⟩
    simp [Machine.programMove, runTurn, h.released, h.engineTurn]
  | line => exact absurd rfl hline
  | drain =>
    refine ⟨drainOne s, ?_, ⟨?_, ?_, ?_⟩, .silent (drainOne_trace s) (drainOne_reads s)⟩
    · simp [Machine.programMove, runTurn, h.released]
    · simp [h.released]
    · simp [h.running]
    · simpa [Machine.shifting] using h.shifting
  | resetPin level =>
    obtain rfl : level = true := by simpa using hreset
    refine ⟨s, ?_, h, .silent rfl rfl⟩
    simp [Machine.programMove, runTurn, h.released]

theorem InFlight.runProgram {s : State} (h : InFlight s) (rest : List HostStep) {ks : List Pick}
    (hks : ∀ k ∈ ks, k ≠ .line ∧ k ≠ .resetPin false) :
    ∃ u, runProgram ks (.waitIdle :: rest) s = .next (.waitIdle :: rest, u) ∧ InFlight u ∧
      BusyPolls (ks.count .host) s u := by
  induction ks generalizing s with
  | nil => exact ⟨s, rfl, h, .silent rfl rfl⟩
  | cons k ks ih =>
    obtain ⟨hk, hks⟩ := List.forall_mem_cons.1 hks
    obtain ⟨t, hmove, ht, hpolls⟩ := h.programMove rest hk.1 hk.2
    obtain ⟨u, hrun, hu, hpolls'⟩ := ih ht hks
    refine ⟨u, by rw [Machine.runProgram, hmove]; exact hrun, hu, ?_⟩
    rw [List.count_cons, Nat.add_comm]
    simpa using hpolls.trans hpolls'

/-- Settles O49: one poll answers STATUS, and with a byte on a line that gets no turn every poll finds it in flight. -/
theorem waitPollsStatus : Obligations.WaitPollsStatus := by
  intro rest s hN
  refine ⟨hostMove_wait rest hN, fun ks hr hsh hks => ?_⟩
  obtain ⟨u, hrun, hu, hpolls⟩ := InFlight.runProgram ⟨hN, hr, hsh⟩ rest hks
  obtain ⟨ws, hws, hlen, hbusy⟩ := hpolls.reads
  exact ⟨ws, u, hrun, hu.running, hpolls.trace, hws, hlen, hbusy⟩

/-! ## The moves beside a host program -/

/-- The moves of the block itself: all but the host's accesses and block reset. -/
def blockMoves : List Turn := [.engine, .line, .drain, .resetPin true]

/-- A pick of another agent than the host is a move of the block, and leaves the program as it is. -/
theorem programMove_block {k : Pick} (hhost : k ≠ .host) (hreset : k ≠ .resetPin false) (p : List HostStep)
    (s : State) : ∃ t ∈ blockMoves, programMove k p s = (runTurn t s).leaving fun _ => p := by
  cases k with
  | host => exact absurd rfl hhost
  | engine => exact ⟨.engine, by simp [blockMoves], rfl⟩
  | line => exact ⟨.line, by simp [blockMoves], rfl⟩
  | drain => exact ⟨.drain, by simp [blockMoves], rfl⟩
  | resetPin level =>
    obtain rfl : level = true := by simpa using hreset
    exact ⟨.resetPin true, by simp [blockMoves], rfl⟩

theorem runProgram_cons_next {k : Pick} {ks : List Pick} {p q : List HostStep} {s u : State}
    (h : runProgram (k :: ks) p s = .next (q, u)) :
    ∃ p' t, programMove k p s = .next (p', t) ∧ runProgram ks p' t = .next (q, u) := by
  rw [runProgram] at h
  split at h
  · next p' t hmove => exact ⟨p', t, hmove, h⟩
  · cases h
  · cases h

theorem leaving_eq_next {left : State → List HostStep} {r : Result} {p : List HostStep} {t : State}
    (h : r.leaving left = .next (p, t)) : r = .next t ∧ p = left t := by
  cases r <;> cases h
  exact ⟨rfl, rfl⟩

/-- Where no operation runs and no write races, the block's own moves change nothing (R181). -/
theorem runTurn_of_idle {s : State} (hN : s.resetN = true) (hr : s.run = false) (hp : s.posted = []) {t : Turn}
    (ht : t ∈ blockMoves) : runTurn t s = .next s := by
  simp only [blockMoves, List.mem_cons, List.not_mem_nil, or_false] at ht
  rcases ht with rfl | rfl | rfl | rfl
  · simp [runTurn, hN, engineTurn, hr]
  · simp [runTurn, hN, lineTurn, hr]
  · simp [runTurn, hN, drainOne, hp]
  · simp [runTurn, hN]

/-- Once the program is over the host makes no access, so an idle block stays as it is. -/
theorem runProgram_over {s : State} (hN : s.resetN = true) (hr : s.run = false) (hp : s.posted = [])
    {ks : List Pick} (hks : ∀ k ∈ ks, k ≠ .resetPin false) : runProgram ks [] s = .next ([], s) := by
  induction ks with
  | nil => rfl
  | cons k ks ih =>
    obtain ⟨hk, hks⟩ := List.forall_mem_cons.1 hks
    have hmove : programMove k [] s = .next ([], s) := by
      by_cases hhost : k = .host
      · subst hhost; rfl
      · obtain ⟨t, ht, e⟩ := programMove_block hhost hk [] s
        rw [e, runTurn_of_idle hN hr hp ht]; rfl
    rw [runProgram, hmove]
    exact ih hks

/-! ## What an operation that has just started owes -/

theorem isOp_started (o : BitVec 4) (i : Instr) (s : State) : isOp o (started (encode i) s) = (i.opc == o) := by
  simp [isOp, started]

theorem started_pos (i : Instr) (s : State) : (started (encode i) s).pos = firstPlace i.opc := by
  simp [started]

/-- At the start of a micro-op a running operation owes its events, and then what stands after it. -/
theorem owed_of_begin {s s' : State} {m : MicroOp} {p : Place} (hr : s.run = true) (hst : s.stage = .begin)
    (hp : s.pos = p) (hm : microOpAt { s with pos := p } = .ok (m, s')) :
    owed s = m.events ++ owedLater { s with pos := p } := by
  subst hp
  rw [owed_of_run hr, owedNow_of_microOp hst hm]

/-- The page loop from the first page on is the frame of the operation's data. -/
theorem owedPages_started (i : Instr) (s : State) :
    owedPages (started (encode i) s) 0 = frameEvents (i.opc == 0x9#4)
      (if i.opc == 0x7#4 then drawData s.mem else if i.opc == 0x9#4 then fun _ _ => 0xFF#8 else fun _ _ => 0x00#8) := by
  simp only [owedPages, frameData, isOp_started]
  rfl

theorem owedAfterPulse_started (i : Instr) (s : State) :
    owedAfterPulse (started (encode i) s) =
      if i.opc == 0x5#4 then .cfg :: (seqEvents (Config.unlockHead :: initTail) ++ owedPages (started (encode i) s) 0)
      else [] := by
  simp only [owedAfterPulse, owedAfterConfigure, isOp_started]
  split <;> rfl

/-- An operation that begins with the reset pulse owes it and what follows it. -/
theorem owed_started_pulse {i : Instr} (h : firstPlace i.opc = .initdClear) (s : State) :
    owed (started (encode i) s) = pulseEvents ++ owedAfterPulse (started (encode i) s) := by
  rw [owed_of_begin rfl rfl ((started_pos i s).trans h) rfl]
  rfl

/-- An operation that is one send owes its byte (R100, R101). -/
theorem owed_started_single {i : Instr} (h : firstPlace i.opc = .single) (s : State) :
    owed (started (encode i) s) = sendEvents (i.opc == 0x4#4) (argField (encode i)) := by
  rw [owed_of_begin rfl rfl ((started_pos i s).trans h) rfl, ← isOp_started 0x4#4 i s]
  exact List.append_nil _

/-- An operation that begins with the page loop owes the frame. -/
theorem owed_started_pages {i : Instr} (h : pagesOpc i.opc = true) (hp : firstPlace i.opc = .pageSelect) (s : State) :
    owed (started (encode i) s) = owedPages (started (encode i) s) 0 := by
  rw [owed_pageSelect rfl rfl (by simpa [started] using hp)]
  simp [started, h]

/-- A started operation owes its rule's trace (R98 to R101, R110, R121, R122, R138, R150). -/
theorem owed_started (i : Instr) (s : State) : owed (started (encode i) s) = opEvents i s.mem := by
  cases i with
  | config arg x y =>
    rw [owed_of_begin rfl rfl (started_pos _ s) rfl]
    show [.cfg] ++ owedAfterConfigure (started (encode (.config arg x y)) s) = [.cfg]
    simp only [owedAfterConfigure, isOp_started]
    rfl
  | reset arg x y => rw [owed_started_pulse rfl, owedAfterPulse_started]; exact List.append_nil _
  | cmd arg x y | data arg x y =>
    rw [owed_started_single rfl, encode, argField_packFields]; rfl
  | init arg x y =>
    rw [owed_started_pulse rfl, owedAfterPulse_started, owedPages_started]
    simp only [opEvents, initEvents, Config.unlockSeq, List.append_assoc]
    rfl
  | clear arg x y | draw arg x y | testfill arg x y => rw [owed_started_pages rfl rfl, owedPages_started]; rfl
  | print arg x y =>
    rw [owed_of_begin rfl rfl (started_pos _ s) rfl]
    show sendEvents false (pageSelectByte (yField (encode _))) ++ owedChars (started (encode _) s) 0 = _
    simp only [owedChars, started, encode, yField_packFields, xField_packFields]
    rfl

/-! ## An operation from its start to its end -/

/-- What t still has of the operation i that began in s: what was emitted and what is owed together are i's trace, and
OP, the error flags and the host's view of the buffers are the operation's and s's. -/
structure Performs (i : Instr) (s t : State) : Prop where
  inv : Inv t
  released : t.resetN = true
  noRace : t.posted = []
  trace : t.trace ++ owed t = s.trace ++ opEvents i s.mem
  cur : t.cur = encode i
  errIllegal : t.errIllegal = s.errIllegal
  errBusy : t.errBusy = s.errBusy
  errNotcfg : t.errNotcfg = s.errNotcfg
  memory : hostMemory t = hostMemory s

theorem Performs.started {i : Instr} {s : State} (h : Inv s) (hN : s.resetN = true) (hr : s.run = false)
    (hc : transferOpc i.opc = true → s.cfg.spe = true) : Performs i s (started (encode i) s) where
  inv := h.started hN hr (wordLegal_encode i) (by simpa using hc)
  released := hN
  noRace := h.posted_of_not_racing (racing_of_idle hr)
  trace := congrArg (s.trace ++ ·) (owed_started i s)
  cur := rfl
  errIllegal := rfl
  errBusy := rfl
  errNotcfg := rfl
  memory := rfl

/-- A move of the sequencer or the line that adds to the trace what it takes from the debt. -/
theorem Performs.keep {i : Instr} {s t u : State} (P : Performs i s t) (K : EngineKept t u) (hinv : Inv u)
    (hp : u.posted = []) (htrace : u.trace ++ owed u = t.trace ++ owed t) : Performs i s u where
  inv := hinv
  released := K.resetN.trans P.released
  noRace := hp
  trace := htrace.trans P.trace
  cur := K.cur.trans P.cur
  errIllegal := K.errIllegal.trans P.errIllegal
  errBusy := K.errBusy.trans P.errBusy
  errNotcfg := K.errNotcfg.trans P.errNotcfg
  memory := K.memory.trans P.memory

/-- The end of an operation posts no write, and neither does moving on. -/
theorem advance_noRace {s t : State} (h : advance s = .next t) (hp : s.posted = []) : t.posted = [] := by
  rcases advance_cases h with ⟨_, _, _, _, _, _, _, rfl⟩ | ⟨_, rfl⟩
  · exact hp
  · rfl

theorem engineTurn_noRace {s t : State} (h : engineTurn s = .next t) (hp : s.posted = []) : t.posted = [] := by
  rcases engineTurn_cases h with ⟨_, rfl⟩ | ⟨_, _, rfl⟩ | ⟨_, _, _, dc, b, s', hm, rfl⟩ | ⟨_, b, _, rfl⟩ |
    ⟨_, d, _, _, rfl⟩ | ⟨_, d, _, _, rfl⟩ | ⟨_, d, _, ht⟩ | ⟨_, _, l, _, ht⟩ | ⟨_, _, _, ht⟩ | ⟨_, _, v, _, ht⟩
  · exact hp
  · exact hp
  · obtain ⟨bi, rfl⟩ := microOpAt_state hm; exact hp
  · exact hp
  · exact hp
  · exact hp
  · rw [endWait_eq d rfl] at ht; exact advance_noRace ht hp
  · exact advance_noRace ht hp
  · exact advance_noRace ht hp
  · exact advance_noRace ht hp

theorem lineTurn_posted (s : State) : (lineTurn s).posted = s.posted := by
  unfold lineTurn
  split
  · split <;> simp
  · rfl

/-- The block's own moves bring the operation on (R21, R90). -/
theorem Performs.move {i : Instr} {s t u : State} (P : Performs i s t) {turn : Turn} (hturn : turn ∈ blockMoves)
    (h : runTurn turn t = .next u) : Performs i s u := by
  simp only [blockMoves, List.mem_cons, List.not_mem_nil, or_false] at hturn
  simp only [runTurn, P.released, if_true] at h
  rcases hturn with rfl | rfl | rfl | rfl
  · exact P.keep (engineTurn_kept h) (P.inv.engineTurn P.released h) (engineTurn_noRace h P.noRace)
      (P.inv.trace_owed_engineTurn P.released h)
  · cases h
    exact P.keep (lineTurn_kept t) (P.inv.lineTurn P.released) ((lineTurn_posted t).trans P.noRace)
      (trace_owed_lineTurn t)
  · obtain rfl : t = u := by simpa [drainOne, P.noRace] using h
    exact P
  · cases h; exact P

/-- A poll only records its answer. -/
theorem Performs.polled {i : Instr} {s t : State} (P : Performs i s t) : Performs i s (polled t) :=
  have W : SameWork t (Machine.polled t) := by constructor <;> rfl
  { P with
    inv := P.inv.withRecords P.released _ _ _ _ _
    trace := by rw [W.owed_eq P.inv (.inl rfl)]; exact P.trace }

/-- A wait that is over has seen the operation end, and the block has stayed idle since. -/
theorem Performs.waited {i : Instr} {s t u : State} {ks : List Pick} (P : Performs i s t)
    (hks : ∀ k ∈ ks, k ≠ .resetPin false) (h : runProgram ks [.waitIdle] t = .next ([], u)) :
    Performs i s u ∧ u.run = false := by
  induction ks generalizing t with
  | nil => cases h
  | cons k ks ih =>
    obtain ⟨hk, hrestPicks⟩ := List.forall_mem_cons.1 hks
    obtain ⟨p, t', hmove, hrest⟩ := runProgram_cons_next h
    by_cases hhost : k = .host
    · subst hhost
      rw [programMove, hostMove_wait [] P.released] at hmove
      cases hr : t.run with
      | true =>
        rw [hr] at hmove
        cases hmove
        exact ih P.polled hrestPicks hrest
      | false =>
        rw [hr] at hmove
        cases hmove
        have hover := runProgram_over (s := Machine.polled t) P.released hr P.noRace hrestPicks
        cases hover.symm.trans hrest
        exact ⟨P.polled, hr⟩
    · obtain ⟨turn, hturn, e⟩ := programMove_block hhost hk [.waitIdle] t
      obtain ⟨hrun, rfl⟩ := leaving_eq_next (e.symm.trans hmove)
      exact ih (P.move hturn hrun) hrestPicks hrest

/-- An op_wait that is over has begun with the OP write on the block as it was: until then nothing moved. -/
theorem runProgram_opWait {i : Instr} {s u : State} {ks : List Pick} (hN : s.resetN = true) (hr : s.run = false)
    (hp : s.posted = []) (hc : transferOpc i.opc = true → s.cfg.spe = true) (hks : ∀ k ∈ ks, k ≠ .resetPin false)
    (h : runProgram ks (opWait i) s = .next ([], u)) :
    ∃ ks', (∀ k ∈ ks', k ≠ .resetPin false) ∧
      runProgram ks' [.waitIdle] (started (encode i) s) = .next ([], u) := by
  induction ks with
  | nil => cases h
  | cons k ks ih =>
    obtain ⟨hk, hrestPicks⟩ := List.forall_mem_cons.1 hks
    obtain ⟨p, t, hmove, hrest⟩ := runProgram_cons_next h
    by_cases hhost : k = .host
    · subst hhost
      have hwrite : runTurn (.host (.write 0x000#12 .b4 (encode i))) s = .next (started (encode i) s) := by
        rw [runTurn_opWrite _ hN, opWrite_eq, opOutcome_of_accepted hr (wordLegal_encode i) (by simpa using hc)]
      rw [programMove, opWait, hostMove, hwrite] at hmove
      cases hmove
      exact ⟨ks, hrestPicks, hrest⟩
    · obtain ⟨turn, hturn, e⟩ := programMove_block hhost hk (opWait i) s
      rw [runTurn_of_idle hN hr hp hturn] at e
      cases e.symm.trans hmove
      exact ih hrestPicks hrest

/-- Settles O50: nothing moves before the OP write, every move keeps what was emitted and owed together, and an idle
block owes nothing. -/
theorem opWaitEndsWithTheOperation : Obligations.OpWaitEndsWithTheOperation := by
  intro i s u ks h hN hr hc hks hrun
  have hp : s.posted = [] := h.posted_of_not_racing (racing_of_idle hr)
  obtain ⟨ks', hks', hwait⟩ := runProgram_opWait hN hr hp hc hks hrun
  obtain ⟨P, hidle⟩ := (Performs.started h hN hr hc).waited hks' hwait
  have htrace : u.trace = s.trace ++ opEvents i s.mem := by simpa [owed, hidle] using P.trace
  exact ⟨hidle, htrace, P.cur, P.errIllegal, P.errBusy, P.errNotcfg, fun a => by rw [hostByte, hostByte, P.memory]⟩

end Sys2Proof.Machine
end

section
/-! PROOFS. The transmitter (40_transmitter.md): the bits of a byte, a line that gets no turn, the pins DC and RST, and
the end of an operation. -/

namespace Sys2Proof.Machine

/-! ## The bits of a byte (R91, R92) -/

/-- With SCK high, bit j of the byte in flight is on MOSI, most significant first, and nothing has been emitted. -/
theorem lineTurn_bit_high (b : Byte) {s : State} (hr : s.run = true) (hc : s.cfg = configuredCfg) {j : Nat}
    (hj : j < 8) : lineTurn^[3 * j + 2] (loadByte b s) =
      { bitState b s j true (b.getLsbD (7 - j)) with stage := .shift .secondEdge } := by
  obtain ⟨p, m, h⟩ := lineTurn_bits b hr hc hj
  rw [Function.iterate_succ_apply', Function.iterate_succ_apply', h, lineTurn_setUp b hr hc hj,
    lineTurn_firstEdge b hr hc]

/-- Settles O24: each bit stands on MOSI between its two edges, and the second edge of bit 0 ends the byte. -/
theorem byteGoesOutMsbFirst : Obligations.ByteGoesOutMsbFirst := by
  intro b s hr hc
  refine ⟨fun k hk => ?_, shifted s.trace.length b 8, ?_⟩
  · rw [lineTurn_bit_high b hr hc hk]
    exact ⟨rfl, rfl, rfl, rfl⟩
  · rw [Function.iterate_succ_apply', lineTurn_bit_high b hr hc (j := 7) (by omega)]
    exact lineTurn_lastEdge b hr hc true

/-! ## A byte on a line that gets no turn (R103, R168) -/

/-- From s to u the operation and its byte have not moved: the same micro-op, as far as it was, and no event. -/
structure Stuck (s u : State) : Prop where
  run : u.run = s.run
  tc : u.tc = s.tc
  trace : u.trace = s.trace
  pos : u.pos = s.pos
  stage : u.stage = s.stage
  resetN : u.resetN = s.resetN

theorem Stuck.refl (s : State) : Stuck s s := by constructor <;> rfl

theorem Stuck.trans {s t u : State} (h : Stuck s t) (h' : Stuck t u) : Stuck s u :=
  ⟨h'.run.trans h.run, h'.tc.trans h.tc, h'.trace.trans h.trace, h'.pos.trans h.pos, h'.stage.trans h.stage,
    h'.resetN.trans h.resetN⟩

theorem InFlight.of_stuck {s u : State} (h : InFlight s) (K : Stuck s u) : InFlight u where
  released := K.resetN.trans h.released
  running := K.run.trans h.running
  shifting := by simpa only [Machine.shifting, K.stage] using h.shifting

/-- No host access drives RESET_N or takes one of the moves still to come. -/
theorem hostAccess_resetN_turns {a : Access} {s t : State} (h : hostAccess a s = .next t) :
    t.resetN = s.resetN ∧ t.turns = s.turns := by
  cases a with
  | read off n => cases h; exact ⟨rfl, rfl⟩
  | write off n v =>
    rcases hostWrite_cases h with rfl | h | rfl | ⟨rfl, _⟩
    · exact ⟨rfl, rfl⟩
    · rcases opWrite_cases h with rfl | rfl | rfl | ⟨i, rfl⟩ <;> exact ⟨rfl, rfl⟩
    · exact ⟨rfl, rfl⟩
    · simp

/-- No move but the line's or block reset moves the byte. -/
theorem InFlight.runTurn {s : State} (h : InFlight s) {t : Turn} (ht : t ≠ .line ∧ t ≠ .resetPin false) :
    ∃ u, runTurn t s = .next u ∧ Stuck s u ∧ u.turns = s.turns := by
  obtain ⟨hline, hreset⟩ := ht
  simp only [Machine.runTurn, h.released, if_true]
  cases t with
  | host a =>
    obtain ⟨u, hu⟩ := hostAccess_next a s
    obtain ⟨W, _⟩ := sameWork_hostAccess h.running hu
    obtain ⟨htc, _, _, _, _, _, _, _, _, htrace⟩ := hostAccess_pins hu
    obtain ⟨hN, hturns⟩ := hostAccess_resetN_turns hu
    exact ⟨u, hu, ⟨W.run, htc, htrace, W.pos, W.stage, hN⟩, hturns⟩
  | engine => exact ⟨s, h.engineTurn, .refl s, rfl⟩
  | line => exact absurd rfl hline
  | drain => exact ⟨drainOne s, rfl, by constructor <;> simp, drainOne_turns s⟩
  | resetPin level =>
    obtain rfl : level = true := by simpa using hreset
    exact ⟨s, rfl, .refl s, rfl⟩

/-- However many of these moves are made, the byte stays where it is. -/
theorem InFlight.run {s : State} (h : InFlight s) {ts : List Turn} (hts : ∀ t ∈ ts, t ≠ .line ∧ t ≠ .resetPin false) :
    ∃ u : State, Host.Core.run Sys2Proof.core ts.length { s with turns := ts } = .next u ∧ Stuck s u := by
  induction ts generalizing s with
  | nil => exact ⟨{ s with turns := [] }, rfl, by constructor <;> rfl⟩
  | cons t ts ih =>
    obtain ⟨ht, hts⟩ := List.forall_mem_cons.1 hts
    have h' : InFlight { s with turns := ts } := ⟨h.released, h.running, h.shifting⟩
    obtain ⟨v, hturn, K, hturns⟩ := h'.runTurn ht
    obtain ⟨u, hrun, K'⟩ := ih (h'.of_stuck K) hts
    have hv : { v with turns := ts } = v := congrArg (fun l => { v with turns := l }) hturns.symm
    have hstep : step { s with turns := t :: ts } = .next v := hturn
    refine ⟨u, ?_, Stuck.trans { K with } K'⟩
    rw [List.length_cons, core_run_succ hstep, ← hrun, hv]

/-- Settles O25: the byte stays in flight, so BUSY does, and only block reset ends it. -/
theorem stuckLineHangs : Obligations.StuckLineHangs := by
  intro s ts hN hr htc hsh hts
  have h : InFlight s := ⟨hN, hr, hsh⟩
  obtain ⟨u, hrun, K⟩ := h.run hts
  have hu := h.of_stuck K
  refine ⟨u, hrun, hu.running, K.tc.trans htc, K.trace, K.pos, K.stage, hu.released, fun v => ?_, ?_⟩
  · rw [runTurn_opWrite v hu.released, opWrite_eq, opOutcome_of_busy hu.running]
    rfl
  · simp [runTurn, hu.released]

/-! ## The pins DC and RST (R94, R102) -/

/-- An engine turn leaves DC and RST as they are, or begins a send, or drives RST at its place in the pulse. -/
theorem engineTurn_dc_rst {s t : State} (h : engineTurn s = .next t) :
    (t.pinDc = s.pinDc ∧ t.pinRst = s.pinRst) ∨
    (s.run = true ∧ s.stage = .begin ∧ t.pinRst = s.pinRst ∧
      ∃ dc b s', microOpAt s = .ok (.send dc b, s') ∧ t.pinDc = dc ∧ t.stage = .load b) ∨
    (s.run = true ∧ t.pinDc = s.pinDc ∧ ∃ l, (s.pos = .rstLow ∧ l = false ∨ s.pos = .rstHigh ∧ l = true) ∧
      t.pinRst = l ∧ t.trace = s.trace ++ [.rst l]) := by
  rcases engineTurn_cases h with ⟨_, rfl⟩ | ⟨_, _, rfl⟩ | ⟨hr, hst, _, dc, b, s', hm, rfl⟩ | ⟨_, b, _, rfl⟩ |
    ⟨_, d, _, _, rfl⟩ | ⟨_, d, _, _, rfl⟩ | ⟨_, d, _, ht⟩ | ⟨hr, _, l, hm, ht⟩ | ⟨_, _, _, ht⟩ | ⟨_, _, v, _, ht⟩
  · exact .inl ⟨rfl, rfl⟩
  · exact .inl ⟨rfl, rfl⟩
  · obtain ⟨bi, e⟩ := microOpAt_state hm
    exact .inr (.inl ⟨hr, hst, by simp [e], dc, b, s', hm, rfl, rfl⟩)
  · exact .inl ⟨rfl, rfl⟩
  · exact .inl ⟨rfl, rfl⟩
  · exact .inl ⟨rfl, rfl⟩
  · rw [endWait_eq d rfl] at ht
    exact .inl ⟨(advance_move ht).pinDc, (advance_move ht).pinRst⟩
  · have M := advance_move ht
    exact .inr (.inr ⟨hr, M.pinDc, l, microOpAt_rst hm, M.pinRst, M.trace⟩)
  · exact .inl ⟨(advance_move ht).pinDc, (advance_move ht).pinRst⟩
  · exact .inl ⟨(advance_move ht).pinDc, (advance_move ht).pinRst⟩

/-- No part of a bit changes DC or RST. -/
theorem lineTurn_dc_rst (s : State) : (lineTurn s).pinDc = s.pinDc ∧ (lineTurn s).pinRst = s.pinRst := by
  unfold lineTurn
  split
  · split <;> simp
  · simp

/-- Outside block reset, DC and RST change only by an engine turn. -/
theorem runTurn_dc_rst {t : Turn} {s u : State} (hN : s.resetN = true) (hu : runTurn t s = .next u) :
    (u.pinDc = s.pinDc ∧ u.pinRst = s.pinRst) ∨ t = .resetPin false ∨ (t = .engine ∧ engineTurn s = .next u) := by
  simp only [runTurn, hN, if_true] at hu
  cases t with
  | host a =>
    obtain ⟨_, _, hdc, hrst, _⟩ := hostAccess_pins hu
    exact .inl ⟨hdc, hrst⟩
  | engine => exact .inr (.inr ⟨rfl, hu⟩)
  | line => cases hu; exact .inl (lineTurn_dc_rst s)
  | drain => cases hu; simp
  | resetPin level =>
    cases level with
    | true => cases hu; exact .inl ⟨rfl, rfl⟩
    | false => exact .inr (.inl rfl)

/-- Settles O26: of the engine's turns only the one that begins a send drives DC. -/
theorem dcChangesOnlyAtSend : Obligations.DcChangesOnlyAtSend := by
  intro t s u hN hu hne
  rcases runTurn_dc_rst hN hu with ⟨hdc, _⟩ | rfl | ⟨rfl, he⟩
  · exact absurd hdc hne
  · exact .inl rfl
  · rcases engineTurn_dc_rst he with ⟨hdc, _⟩ | ⟨hr, hst, _, hsend⟩ | ⟨_, hdc, _⟩
    · exact absurd hdc hne
    · exact .inr ⟨rfl, hr, hst, hsend⟩
    · exact absurd hdc hne

/-- Settles O28: of the engine's turns only the two of the pulse drive RST. -/
theorem rstChangesOnlyInPulse : Obligations.RstChangesOnlyInPulse := by
  intro t s u hN hu hne
  rcases runTurn_dc_rst hN hu with ⟨_, hrst⟩ | rfl | ⟨rfl, he⟩
  · exact absurd hrst hne
  · exact .inl rfl
  · rcases engineTurn_dc_rst he with ⟨_, hrst⟩ | ⟨_, _, hrst, _⟩ | ⟨hr, _, l, hp, rfl, htrace⟩
    · exact absurd hrst hne
    · exact absurd hrst hne
    · exact .inr ⟨rfl, hr, hp, htrace⟩

/-! ## What an operation owes, at its start and at its end (R97) -/

/-- Settles O59: operation by operation, what stands from its first micro-op on is its rule's trace. -/
theorem startedOperationOwesItsTrace : Obligations.StartedOperationOwesItsTrace := owed_started

/-- No part of a bit ends the operation. -/
theorem lineTurn_run (s : State) : (lineTurn s).run = s.run := by
  unfold lineTurn
  split
  · split <;> simp
  · rfl

/-- Outside block reset, a running operation ends only by an engine turn (R97). -/
theorem runTurn_ends {t : Turn} {s u : State} (hN : s.resetN = true) (hr : s.run = true) (hreset : t ≠ .resetPin false)
    (hu : runTurn t s = .next u) (hend : u.run = false) : t = .engine ∧ engineTurn s = .next u := by
  have hne : u.run ≠ s.run := by simp [hr, hend]
  simp only [runTurn, hN, if_true] at hu
  cases t with
  | host a =>
    obtain ⟨W, _⟩ := sameWork_hostAccess hr hu
    exact absurd W.run hne
  | engine => exact ⟨rfl, hu⟩
  | line => cases hu; exact absurd (lineTurn_run s) hne
  | drain => cases hu; exact absurd (drainOne_run s) hne
  | resetPin level =>
    obtain rfl : level = true := by simpa using hreset
    cases hu
    exact absurd rfl hne

/-- Settles O60: the engine's turn keeps what was emitted and owed together, and an idle block owes nothing. -/
theorem busyFallsAtTheEnd : Obligations.BusyFallsAtTheEnd := by
  intro t s u h hN hr hreset hu hend
  obtain ⟨rfl, he⟩ := runTurn_ends hN hr hreset hu hend
  have K := engineTurn_kept he
  have htrace : u.trace = s.trace ++ owed s := by simpa [owed, hend] using h.trace_owed_engineTurn hN he
  exact ⟨rfl, htrace, K.cur, K.errIllegal, K.errBusy, K.errNotcfg, fun a => by rw [hostByte, hostByte, K.memory]⟩

end Sys2Proof.Machine
end

section
/-! PROOFS. CONFIG, RESET, CMD and DATA run to their end by fair turns (40_transmitter.md R98 to R101, R192). -/

namespace Sys2Proof.Machine

/-! ## From the fair turns to the whole effect -/

theorem fairTurn_mem_blockMoves (s : State) : fairTurn s ∈ blockMoves := by
  unfold fairTurn; split <;> simp [blockMoves]

theorem runTurn_fairTurn_kept {s t : State} (hN : s.resetN = true) (h : runTurn (fairTurn s) s = .next t) :
    EngineKept s t := by
  cases hsh : shifting s with
  | true =>
    obtain rfl : lineTurn s = t := by simpa [fairTurn, hsh, runTurn, hN] using h
    exact lineTurn_kept s
  | false => exact engineTurn_kept (by simpa [fairTurn, hsh, runTurn, hN] using h)

/-- Fair turns bring the operation on and keep what no move of the block's changes. -/
theorem Performs.reaches {i : Instr} {s t u : State} (P : Performs i s t) (h : Reaches t u) :
    Performs i s u ∧ EngineKept t u := by
  obtain ⟨n, h⟩ := h
  induction n generalizing t with
  | zero => cases h; exact ⟨P, by constructor <;> rfl⟩
  | succ n ih =>
    rw [fairRun_succ] at h
    cases hmove : runTurn (fairTurn t) t with
    | next v =>
      rw [hmove] at h
      obtain ⟨Q, K⟩ := ih (P.move (fairTurn_mem_blockMoves t) hmove) h
      exact ⟨Q, (runTurn_fairTurn_kept P.released hmove).trans K⟩
    | fault f => rw [hmove] at h; cases h
    | refused r => rw [hmove] at h; cases h

/-- An idle block has no byte in flight. -/
theorem Inv.tc_of_idle {s : State} (h : Inv s) (hr : s.run = false) : s.tc = true := by
  simpa [shifting, h.idleStage hr] using h.tcShift

/-- An accepted operation that fair turns bring to an idle block with P completes with P: the trace, OP and all that no
operation changes follow from the operation's owing its trace. -/
theorem completes_of_reaches {i : Instr} {s u : State} {P : State → Prop} (h : Inv s) (hN : s.resetN = true)
    (hr : s.run = false) (hc : transferOpc i.opc = true → s.cfg.spe = true)
    (hu : Reaches (started (encode i) s) u) (hidle : u.run = false) (hP : P u) : Completes i s P := by
  obtain ⟨Q, K⟩ := (Performs.started h hN hr hc).reaches hu
  obtain ⟨n, hrun⟩ := hu
  have htrace : u.trace = s.trace ++ opEvents i s.mem := by simpa [owed, hidle] using Q.trace
  refine ⟨exec_of_accepted hr hc, n, u, hrun, hidle, Q.cur, Q.inv.tc_of_idle hidle, htrace, ?_, hP⟩
  exact
    { errIllegal := Q.errIllegal
      errBusy := Q.errBusy
      errNotcfg := Q.errNotcfg
      bytes := fun a => by rw [hostByte, hostByte, Q.memory]
      resetN := K.resetN
      turns := K.turns
      reads := K.reads
      draws := K.draws }

/-! ## The micro-ops, one after the other -/

/-- The last micro-op of CONFIG, RESET, CMD and DATA ends the operation (R97). -/
theorem advance_last {s : State}
    (h : s.pos = .single ∨ (s.pos = .configure ∨ s.pos = .highWait) ∧ isOp 0x5#4 s = false) :
    advance s = .next (finish s) := by
  rcases h with hp | ⟨hp | hp, hop⟩
  · simp only [advance, hp]
  · simp [advance, hp, hop]
  · simp [advance, hp, hop]

/-- What the five micro-ops of the reset pulse leave, before POS moves on from the last of them (R99). -/
def pulsed (s : State) : State :=
  waited (.ms Config.tRstRecMs) (goTo .highWait (drivePinRst true (goTo .rstHigh
    (waited (.ms Config.tRstLowMs) (goTo .lowWait (drivePinRst false (goTo .rstLow { s with initd := false })))))))

section
variable {s t : State} (hN : s.resetN = true) (hr : s.run = true) (hst : s.stage = .begin)
include hN hr hst

/-- The reset pulse runs to its end, and POS moves on. -/
theorem reaches_pulsed (hp : s.pos = .initdClear) (ht : advance (pulsed s) = .next t) : Reaches s t := by
  have h1 : Reaches s (goTo .rstLow { s with initd := false }) :=
    reaches_microOp (m := .initd false) hN hr hst (by rw [microOpAt, hp]) nofun (by simp only [effect, advance, hp])
  refine h1.trans ?_
  refine Reaches.trans (reaches_microOp (m := .rst false) hN hr rfl rfl nofun rfl) ?_
  refine Reaches.trans (reaches_microOp (m := .wait (.ms Config.tRstLowMs)) hN hr rfl rfl nofun rfl) ?_
  refine Reaches.trans (reaches_microOp (m := .rst true) hN hr rfl rfl nofun rfl) ?_
  exact reaches_microOp (m := .wait (.ms Config.tRstRecMs)) hN hr rfl rfl nofun ht

/-- CONFIG's one micro-op ends it (R98). -/
theorem reaches_configure (hp : s.pos = .configure) (hop : isOp 0x5#4 s = false) :
    Reaches s (finish (configure s)) :=
  reaches_microOp (m := .configure) hN hr hst (by rw [microOpAt, hp]) nofun (advance_last (.inr ⟨.inl hp, hop⟩))

/-- The one send of CMD or DATA ends it (R100, R101). -/
theorem reaches_single (hc : s.cfg = configuredCfg) (hp : s.pos = .single) :
    Reaches s (finish (effect (.send (isOp 0x4#4 s) (argField s.cur)) s)) :=
  reaches_microOp hN hr hst (by rw [microOpAt, hp]) (fun _ _ _ => hc) (advance_last (.inl hp))

end

/-! ## The operations -/

/-- Settles O30: CONFIG is its one micro-op. -/
theorem configCompletes : Obligations.ConfigCompletes := by
  intro arg x y s h hN hr
  have hu := reaches_configure (s := started (encode (.config arg x y)) s) hN rfl rfl (started_pos _ s)
    (isOp_started _ _ s)
  exact completes_of_reaches h hN hr nofun hu rfl ⟨rfl, rfl, rfl, rfl, rfl, rfl, rfl⟩

/-- Settles O31: RESET is the pulse, and no micro-op stands after it. -/
theorem resetCompletes : Obligations.ResetCompletes := by
  intro arg x y s h hN hr
  have hlast : advance (pulsed (started (encode (.reset arg x y)) s)) = _ :=
    advance_last (.inr ⟨.inr rfl, isOp_started _ _ s⟩)
  have hu := reaches_pulsed (s := started (encode (.reset arg x y)) s) hN rfl rfl (started_pos _ s) hlast
  exact completes_of_reaches h hN hr nofun hu rfl ⟨rfl, rfl, rfl, rfl, rfl, rfl, rfl⟩

/-- A configured block has the constants of configure in CFG. -/
theorem Inv.cfg_of_configured {s : State} (h : Inv s) (hspe : s.cfg.spe = true) : s.cfg = configuredCfg :=
  h.cfgFixed.resolve_left fun e => by rw [e] at hspe; cases hspe

/-- Between sends SCK of a configured block is low (R92). -/
theorem Inv.sck_of_configured {s : State} (h : Inv s) (hspe : s.cfg.spe = true) (hst : s.stage = .begin) :
    s.pinSck = false := by
  rw [h.sckRests (by simp [hst]), h.cfg_of_configured hspe]
  rfl

/-- An operation that is one send drives DC, leaves the byte's bit 0 on MOSI, and changes nothing else the host sees. -/
theorem completes_single {i : Instr} {s : State} (hp : firstPlace i.opc = .single) (h : Inv s) (hN : s.resetN = true)
    (hr : s.run = false) (hspe : s.cfg.spe = true) {dc : Bool} {b : Byte} (hdc : (i.opc == 0x4#4) = dc)
    (hb : argField (encode i) = b) :
    Completes i s fun u =>
      u.pinDc = dc ∧ u.pinMosi = b.getLsbD 0 ∧ u.initd = s.initd ∧ u.cfg = s.cfg ∧ u.pinRst = s.pinRst ∧
      u.pinCs = s.pinCs ∧ u.pinSck = s.pinSck := by
  have hu := reaches_single (s := started (encode i) s) hN rfl rfl (h.cfg_of_configured hspe)
    ((started_pos i s).trans hp)
  have hsck := h.sck_of_configured hspe (h.idleStage hr)
  subst hdc hb
  exact completes_of_reaches h hN hr (fun _ => hspe) hu rfl
    ⟨isOp_started _ i s, rfl, rfl, rfl, rfl, rfl, hsck.symm⟩

/-- Settles O32: CMD and DATA are one send of ARG each. -/
theorem cmdAndDataComplete : Obligations.CmdAndDataComplete := by
  intro arg x y s h hN hr hspe
  exact ⟨completes_single rfl h hN hr hspe rfl (argField_packFields ..),
    completes_single rfl h hN hr hspe rfl (argField_packFields ..)⟩

end Sys2Proof.Machine
end

section
/-! PROOFS. INIT (41_initializer.md): what it sends, and its run to the end by fair turns, with the runs of a byte
sequence and of the page loop that its rule is made of (R110, R192). -/

namespace Sys2Proof.Machine

/-! ## What INIT sends (R114) -/

/-- The reset pulse sends no byte (R99). -/
@[simp] theorem bytesSent_pulseEvents : bytesSent pulseEvents = [] := by
  simp [pulseEvents]

/-- A frame is eight pages of 3 + 128 bytes (R125). -/
theorem length_bytesSent_frameEvents (d : Bool) (f : Nat → Nat → Byte) :
    (bytesSent (frameEvents d f)).length = 1048 := by
  simp [bytesSent_frameEvents, List.length_flatMap]

/-- Settles O46: the pulse and Cfg are no bytes, and what is left are the two sequences and CLEAR's frame. -/
theorem initByteCount : Obligations.InitByteCount := by
  intro arg x y m
  have hbytes : bytesSent (opEvents (.init arg x y) m) =
      (Config.unlockSeq ++ Config.setupSeq) ++ bytesSent (opEvents (.clear arg x y) m) := by
    simp [opEvents, initEvents]
  refine ⟨?_, hbytes⟩
  rw [hbytes, List.length_append, List.length_append, opEvents, length_bytesSent_frameEvents]

/-! ## An operation on the line -/

/-- A running operation on the configured line, about to begin a micro-op. -/
structure OnLine (s : State) : Prop where
  released : s.resetN = true
  running : s.run = true
  fresh : s.stage = .begin
  configured : s.cfg = configuredCfg
  sckLow : s.pinSck = false

/-- What the sends and delays of an operation on the line keep: they move only DC, MOSI, TXU, DLY, POS and the loop
counters, and emit. -/
structure LineKept (s t : State) : Prop where
  resetN : t.resetN = s.resetN
  run : t.run = s.run
  stage : t.stage = s.stage
  cfg : t.cfg = s.cfg
  pinSck : t.pinSck = s.pinSck
  cur : t.cur = s.cur
  initd : t.initd = s.initd
  pinRst : t.pinRst = s.pinRst
  pinCs : t.pinCs = s.pinCs
  mem : t.mem = s.mem

theorem LineKept.refl (s : State) : LineKept s s := by constructor <;> rfl

theorem LineKept.trans {s t u : State} (h : LineKept s t) (h' : LineKept t u) : LineKept s u where
  resetN := h'.resetN.trans h.resetN
  run := h'.run.trans h.run
  stage := h'.stage.trans h.stage
  cfg := h'.cfg.trans h.cfg
  pinSck := h'.pinSck.trans h.pinSck
  cur := h'.cur.trans h.cur
  initd := h'.initd.trans h.initd
  pinRst := h'.pinRst.trans h.pinRst
  pinCs := h'.pinCs.trans h.pinCs
  mem := h'.mem.trans h.mem

theorem LineKept.onLine {s t : State} (K : LineKept s t) (L : OnLine s) : OnLine t where
  released := K.resetN.trans L.released
  running := K.run.trans L.running
  fresh := K.stage.trans L.fresh
  configured := K.cfg.trans L.configured
  sckLow := K.pinSck.trans L.sckLow

theorem LineKept.isOp_eq {s t : State} (K : LineKept s t) (o : BitVec 4) : isOp o t = isOp o s := by
  simp only [isOp, K.cur]

theorem LineKept.frameData_eq {s t : State} (K : LineKept s t) : frameData t = frameData s := by
  simp only [frameData, K.isOp_eq, K.mem]

/-- Going on to a place keeps the same. -/
theorem OnLine.kept_goTo {s : State} (L : OnLine s) (p : Place) : LineKept s (goTo p s) :=
  { LineKept.refl s with stage := L.fresh.symm }

/-- A completed send leaves SCK low, as it was (R92). -/
theorem OnLine.kept_send {s : State} (L : OnLine s) (dc : Bool) (b : Byte) (bi : BitVec 3) :
    LineKept s (effect (.send dc b) { s with bi := bi }) :=
  { LineKept.refl s with stage := L.fresh.symm, pinSck := L.sckLow.symm }

theorem OnLine.kept_wait {s : State} (L : OnLine s) (d : Duration) : LineKept s (waited d s) :=
  { LineKept.refl s with stage := L.fresh.symm }

/-- A send keeps the same when POS has gone on to any place. -/
theorem OnLine.kept_afterSend {s : State} (L : OnLine s) (dc : Bool) (b : Byte) (p : Place) :
    LineKept s (goTo p (effect (.send dc b) s)) :=
  { L.kept_send dc b s.bi with }

theorem OnLine.afterSend {s : State} (L : OnLine s) (dc : Bool) (b : Byte) (p : Place) :
    OnLine (goTo p (effect (.send dc b) s)) :=
  (L.kept_afterSend dc b p).onLine L

/-- A micro-op on the line runs to its end, and POS moves on. -/
theorem OnLine.reaches_microOp {s s' t : State} {m : MicroOp} (L : OnLine s) (hm : microOpAt s = .ok (m, s'))
    (ht : advance (effect m s') = .next t) : Reaches s t :=
  Machine.reaches_microOp L.released L.running L.fresh hm (fun _ _ _ => L.configured) ht

/-! ## A sequence of bytes (R110 to R112) -/

/-- INIT sends the element at POS and all after it, and comes to the start of the page loop. -/
theorem OnLine.reaches_seqDone {s : State} (L : OnLine s) {e : DcByte} {rest : List DcByte}
    (hp : s.pos = .seq e rest) : ∃ t, Reaches s t ∧ LineKept s t ∧ t.pos = .pageSelect ∧ t.pg = 0#3 := by
  induction rest generalizing s e with
  | nil =>
    refine ⟨goTo .pageSelect { effect (.send e.1 e.2) s with pg := 0#3 },
      L.reaches_microOp (m := .send e.1 e.2) (by rw [microOpAt, hp]) ?_, { L.kept_send e.1 e.2 s.bi with }, rfl, rfl⟩
    simp only [advance, effect, hp]
  | cons e' rest ih =>
    obtain ⟨t, hreach, K, ht⟩ := ih (L.afterSend e.1 e.2 (.seq e' rest)) rfl
    refine ⟨t, (L.reaches_microOp (m := .send e.1 e.2) (by rw [microOpAt, hp]) ?_).trans hreach,
      (L.kept_afterSend _ _ _).trans K, ht⟩
    simp only [advance, effect, hp]

/-! ## The page loop of CLEAR, DRAW, TESTFILL and INIT (R121, R122, R150, R110) -/

/-- Every column of the operation's frame has a byte. -/
def HasData (s : State) : Prop := ∀ t : State, t.cur = s.cur → t.mem = s.mem → columnByte t ≠ none

/-- Only DRAW reads its bytes from a buffer. -/
theorem hasData_of_not_draw {s : State} (h : isOp 0x7#4 s = false) : HasData s := by
  intro t hcur _
  have h7 : isOp 0x7#4 t = false := by rw [← h, isOp, isOp, hcur]
  unfold columnByte
  split
  · next hop => simp [h7] at hop
  · split <;> simp

theorem HasData.of_kept {s t : State} (D : HasData s) (K : LineKept s t) : HasData t :=
  fun u hcur hmem => D u (hcur.trans K.cur) (hmem.trans K.mem)

/-- From s, fair turns bring the page loop to the end of column x of page y; t is the block there, before the loop goes
on. DC is at the data level, and the column's byte has left its bit 0 on MOSI. -/
structure ColumnDone (s t : State) (y : BitVec 3) (x : BitVec 7) : Prop where
  reaches : Reaches s (nextColumn t)
  kept : LineKept s t
  pg : t.pg = y
  cx : t.cx = x
  pinDc : t.pinDc = true
  pinMosi : t.pinMosi = (frameData s y.toNat x.toNat).getLsbD 0

theorem ColumnDone.after {s s' t : State} {y : BitVec 3} {x : BitVec 7} (C : ColumnDone s' t y x)
    (h : Reaches s s') (K : LineKept s s') : ColumnDone s t y x :=
  { C with
    reaches := h.trans C.reaches
    kept := K.trans C.kept
    pinMosi := by rw [C.pinMosi, K.frameData_eq] }

theorem nextColumn_of_column_left {s : State} (h : s.cx ≠ 127#7) :
    nextColumn s = goTo .column { s with cx := s.cx + 1#7 } := by
  rw [nextColumn, if_pos h]

theorem nextColumn_of_page_left {s : State} (hcx : s.cx = 127#7) (h : s.pg ≠ 7#3) :
    nextColumn s = goTo .pageSelect { s with pg := s.pg + 1#3 } := by
  rw [nextColumn, if_neg (not_not_intro hcx), if_pos h]

/-- The end of the last page: INIT goes on with its last micro-op, the others end (R97, R110). -/
theorem nextColumn_of_last {s : State} (hcx : s.cx = 127#7) (hpg : s.pg = 7#3) :
    nextColumn s = if isOp 0x5#4 s then goTo .initdSet s else finish s := by
  rw [nextColumn, if_neg (not_not_intro hcx), if_neg (not_not_intro hpg)]

/-- TESTFILL waits after each data byte; the others go on with the loop at once (R150). -/
theorem advance_column {s : State} (hp : s.pos = .column) :
    advance s = .next (if isOp 0x9#4 s then goTo .columnDelay s else nextColumn s) := by
  simp only [advance, hp]

/-- The column at POS is sent, and after it TESTFILL's delay is over. -/
theorem OnLine.columnDone {s : State} (L : OnLine s) (D : HasData s) (hp : s.pos = .column) :
    ∃ t, ColumnDone s t s.pg s.cx := by
  obtain ⟨⟨b, s'⟩, hcol⟩ := Option.ne_none_iff_exists'.1 (D s rfl rfl)
  have hm : microOpAt s = .ok (.send true b, s') := by simp only [microOpAt, hp, hcol]
  have hmosi : b.getLsbD 0 = (frameData s s.pg.toNat s.cx.toNat).getLsbD 0 := by rw [columnByte_frameData hcol]
  obtain ⟨bi, rfl⟩ := microOpAt_state hm
  have K := L.kept_send true b bi
  have hsent := L.reaches_microOp hm (advance_column hp)
  split at hsent
  · have K' := K.trans ((K.onLine L).kept_goTo .columnDelay)
    have hdelay := (K'.onLine L).reaches_microOp (m := .wait (.cycles Config.testColDelay)) rfl rfl
    exact ⟨_, hsent.trans hdelay, K'.trans ((K'.onLine L).kept_wait _), rfl, rfl, rfl, hmosi⟩
  · exact ⟨_, hsent, K, rfl, rfl, rfl, hmosi⟩

/-- The columns from POS on are sent, n of them after the first. -/
theorem OnLine.columnsDone (n : Nat) {s : State} (L : OnLine s) (D : HasData s) (hp : s.pos = .column)
    (hn : s.cx.toNat + n = 127) : ∃ t, ColumnDone s t s.pg 127#7 := by
  induction n generalizing s with
  | zero =>
    have hcx : s.cx = 127#7 := by bv_omega
    exact hcx ▸ L.columnDone D hp
  | succ n ih =>
    obtain ⟨t, C⟩ := L.columnDone D hp
    have hcx : t.cx ≠ 127#7 := by rw [C.cx]; bv_omega
    have hn' : (t.cx + 1#7).toNat + n = 127 := by rw [C.cx]; bv_omega
    have K : LineKept s (goTo .column { t with cx := t.cx + 1#7 }) := { C.kept with stage := L.fresh.symm }
    obtain ⟨u, hu⟩ := ih (K.onLine L) (D.of_kept K) rfl hn'
    exact ⟨u, C.pg ▸ hu.after (nextColumn_of_column_left hcx ▸ C.reaches) K⟩

/-- What the three address bytes of page PG leave (R80), POS being at the page's first column. -/
def headerSent (s : State) : State :=
  goTo .column { effect (.send false (columnHighByte 0#8)) (goTo .columnHigh
    (effect (.send false (columnLowByte 0#8)) (goTo .columnLow
      (effect (.send false (pageSelectByte s.pg)) s)))) with cx := 0#7 }

theorem OnLine.kept_headerSent {s : State} (L : OnLine s) : LineKept s (headerSent s) :=
  { L.kept_send false (pageSelectByte s.pg) s.bi with }

theorem OnLine.reaches_headerSent {s : State} (L : OnLine s) (hp : s.pos = .pageSelect) : Reaches s (headerSent s) := by
  have hm : microOpAt s = .ok (.send false (pageSelectByte s.pg), s) := by simp only [microOpAt, hp]
  have L1 := L.afterSend false (pageSelectByte s.pg) .columnLow
  have L2 := L1.afterSend false (columnLowByte 0#8) .columnHigh
  refine (L.reaches_microOp hm ?_).trans ((L1.reaches_microOp rfl rfl).trans (L2.reaches_microOp rfl rfl))
  simp only [advance, effect, hp]

/-- The page at POS is sent. -/
theorem OnLine.pageDone {s : State} (L : OnLine s) (D : HasData s) (hp : s.pos = .pageSelect) :
    ∃ t, ColumnDone s t s.pg 127#7 := by
  have K := L.kept_headerSent
  obtain ⟨t, C⟩ := (K.onLine L).columnsDone 127 (D.of_kept K) rfl rfl
  exact ⟨t, C.after (L.reaches_headerSent hp) K⟩

/-- The pages from POS on are sent, n of them after the first. -/
theorem OnLine.pagesDone (n : Nat) {s : State} (L : OnLine s) (D : HasData s) (hp : s.pos = .pageSelect)
    (hn : s.pg.toNat + n = 7) : ∃ t, ColumnDone s t 7#3 127#7 := by
  induction n generalizing s with
  | zero =>
    have hpg : s.pg = 7#3 := by bv_omega
    exact hpg ▸ L.pageDone D hp
  | succ n ih =>
    obtain ⟨t, C⟩ := L.pageDone D hp
    have hpg : t.pg ≠ 7#3 := by rw [C.pg]; bv_omega
    have hn' : (t.pg + 1#3).toNat + n = 7 := by rw [C.pg]; bv_omega
    have K : LineKept s (goTo .pageSelect { t with pg := t.pg + 1#3 }) := { C.kept with stage := L.fresh.symm }
    obtain ⟨u, hu⟩ := ih (K.onLine L) (D.of_kept K) rfl hn'
    exact ⟨u, hu.after (nextColumn_of_page_left C.cx hpg ▸ C.reaches) K⟩

/-! ## INIT run to its end (R110, R113) -/

/-- In INIT configure follows the pulse, and the sequences follow configure (R110). -/
theorem advance_highWait_of_init {s : State} (hop : isOp 0x5#4 s = true) (hp : s.pos = .highWait) :
    advance s = .next (goTo .configure s) := by
  simp [advance, hp, hop]

theorem advance_configure_of_init {s : State} (hop : isOp 0x5#4 s = true) (hp : s.pos = .configure) :
    advance s = .next (goTo initSeqStart s) := by
  simp [advance, hp, hop]

@[simp] theorem pulsed_resetN (s : State) : (pulsed s).resetN = s.resetN := by simp [pulsed, waited]
@[simp] theorem pulsed_run (s : State) : (pulsed s).run = s.run := by simp [pulsed, waited]
@[simp] theorem pulsed_cur (s : State) : (pulsed s).cur = s.cur := by simp [pulsed, waited]

/-- INIT before its first byte: the pulse is over and the line is configured (R110 steps 1 and 2). -/
def initConfigured (s : State) : State := goTo initSeqStart (configure (goTo .configure (pulsed s)))

theorem reaches_initConfigured {s : State} (hN : s.resetN = true) (hr : s.run = true) (hst : s.stage = .begin)
    (hp : s.pos = .initdClear) (hop : isOp 0x5#4 s = true) : Reaches s (initConfigured s) := by
  have hop' : isOp 0x5#4 (pulsed s) = true := by rwa [isOp, pulsed_cur]
  exact (reaches_pulsed hN hr hst hp (advance_highWait_of_init hop' rfl)).trans
    (reaches_microOp (m := .configure) ((pulsed_resetN s).trans hN) ((pulsed_run s).trans hr) rfl rfl nofun
      (advance_configure_of_init hop' rfl))

theorem onLine_initConfigured {s : State} (hN : s.resetN = true) (hr : s.run = true) : OnLine (initConfigured s) where
  released := (pulsed_resetN s).trans hN
  running := (pulsed_run s).trans hr
  fresh := rfl
  configured := rfl
  sckLow := rfl

/-- After its last page INIT sets INITD and ends (R96, R97). -/
theorem ColumnDone.reaches_initEnd {s t : State} (C : ColumnDone s t 7#3 127#7) (L : OnLine s)
    (hop : isOp 0x5#4 s = true) : Reaches s (finish (goTo .initdSet { t with initd := true })) := by
  have K := C.kept.trans ((C.kept.onLine L).kept_goTo .initdSet)
  have hlast : nextColumn t = goTo .initdSet t := by
    rw [nextColumn_of_last C.cx C.pg, C.kept.isOp_eq, if_pos hop]
  exact (hlast ▸ C.reaches).trans ((K.onLine L).reaches_microOp (m := .initd true) rfl rfl)

/-- A property of the end of an operation may be read off the trace too. -/
theorem Completes.imp {i : Instr} {s : State} {P Q : State → Prop} (h : Completes i s P)
    (hPQ : ∀ u, u.trace = s.trace ++ opEvents i s.mem → P u → Q u) : Completes i s Q := by
  obtain ⟨hexec, n, u, hrun, hidle, hcur, htc, htrace, hkept, hP⟩ := h
  exact ⟨hexec, n, u, hrun, hidle, hcur, htc, htrace, hkept, hPQ u htrace hP⟩

/-- Settles O33: INIT is the pulse, configure, the two sequences, CLEAR's page loop and INITD, on every idle block. -/
theorem initCompletes : Obligations.InitCompletes := by
  intro arg x y s h hN hr
  have hop : isOp 0x5#4 (started (encode (.init arg x y)) s) = true := isOp_started _ _ s
  have hbegin := reaches_initConfigured (s := started (encode (.init arg x y)) s) hN rfl rfl (started_pos _ s) hop
  have L := onLine_initConfigured (s := started (encode (.init arg x y)) s) hN rfl
  obtain ⟨t, hseq, K, hp, hpg⟩ := L.reaches_seqDone rfl
  have hdraw : isOp 0x7#4 t = false := (K.isOp_eq _).trans (isOp_started _ _ s)
  have htest : isOp 0x9#4 t = false := (K.isOp_eq _).trans (isOp_started _ _ s)
  obtain ⟨u, C⟩ := (K.onLine L).pagesDone 7 (hasData_of_not_draw hdraw) hp (by rw [hpg]; rfl)
  have hend := C.reaches_initEnd (K.onLine L) ((K.isOp_eq _).trans hop)
  have hdata : frameData t = fun _ _ => 0x00#8 := by simp [frameData, hdraw, htest]
  have hmosi : u.pinMosi = false := by rw [C.pinMosi, hdata]; rfl
  have Ku := K.trans C.kept
  have hends := completes_of_reaches (i := .init arg x y) (P := (· = _)) h hN hr nofun
    ((hbegin.trans hseq).trans hend) rfl rfl
  refine hends.imp ?_
  rintro _ htrace rfl
  exact ⟨rfl, Ku.cfg, Ku.pinCs, Ku.pinRst, C.pinDc, Ku.pinSck, hmosi, htrace⟩

end Sys2Proof.Machine
end

section
/-! PROOFS. The frame renderer (42_frame.md): the page byte, what DRAW sends of given bitmaps, the bytes of a frame one
by one, and CLEAR and DRAW run to their end by fair turns (R192). -/

namespace Sys2Proof.Machine

/-! ## The page byte (R120) -/

/-- On a written bitmap every page byte has a value, and each of its bits is one bit of one BMP byte (R120). -/
theorem pageByte_of_written {m : Memory} {f : Nat → Byte} (hm : ∀ a, a < 1024 → m.read (0x400 + a) = some (f a))
    {y x : Nat} (hy : y < 8) (hx : x < 128) : ∃ b, pageByte m y x = some b ∧
      ∀ i, i < 8 → b.getLsbD i = (f (16 * (8 * y + i) + x / 8)).getLsbD (7 - x % 8) := by
  have hread : ∀ i, i < 8 → m.read (pixelOffset y x i) = some (f (16 * (8 * y + i) + x / 8)) :=
    fun i hi => hm (16 * (8 * y + i) + x / 8) (by omega)
  obtain ⟨b, hb, hbits⟩ := packBits_of_written m y x (fun i => f (16 * (8 * y + i) + x / 8)) le_rfl hread
  exact ⟨b, hb, fun i hi => by simpa [hi] using hbits i hi⟩

/-- Settles O39: each pass of pack's loop sets its own bit. -/
theorem pageByteClosedForm : Obligations.PageByteClosedForm := fun _ _ hm _ _ => pageByte_of_written hm

/-- Settles O40: the engine's loop over BI goes through the bits in pack's order. -/
theorem composedByteIsPageByte : Obligations.ComposedByteIsPageByte := composePage_eq

/-! ## What DRAW sends of given bitmaps (R121, R123, R124) -/

/-- A frame depends on its data bytes inside the 8 pages of 128 columns only. -/
theorem frameEvents_congr (d : Bool) {f g : Nat → Nat → Byte} (h : ∀ y x, y < 8 → x < 128 → f y x = g y x) :
    frameEvents d f = frameEvents d g := by
  unfold frameEvents pageEvents
  refine List.flatMap_congr fun y hy => ?_
  have hcolumns : columnEvents d f y 0 = columnEvents d g y 0 := by
    unfold columnEvents
    refine List.flatMap_congr fun x hx => ?_
    rw [h y x (by simpa [Config.pages] using hy) (by simpa [Config.cols] using hx)]
  rw [hcolumns]

/-- The DRAW of a written bitmap f sends the frame g whose bits are f's (R120, R121). -/
theorem opEvents_draw_of_bits {m : Memory} {f : Nat → Byte} {g : Nat → Nat → Byte}
    (hm : ∀ a, bmpBase ≤ a → a < textBase → m.read a = some (f a))
    (hg : ∀ y x i, y < 8 → x < 128 → i < 8 →
      (g y x).getLsbD i = (f (bmpBase + (16 * (8 * y + i) + x / 8))).getLsbD (7 - x % 8))
    (arg : BitVec 8) (x0 : BitVec 7) (y0 : BitVec 3) : opEvents (.draw arg x0 y0) m = frameEvents false g := by
  refine frameEvents_congr false fun y x hy hx => ?_
  have hm' : ∀ a, a < 1024 → m.read (0x400 + a) = some (f (bmpBase + a)) :=
    fun a ha => hm _ (Nat.le_add_right _ _) (by unfold textBase; omega)
  obtain ⟨b, hb, hbits⟩ := pageByte_of_written hm' hy hx
  rw [drawData, hb, Option.getD_some]
  exact BitVec.eq_of_getLsbD_eq fun i hi => (hbits i hi).trans (hg y x i hy hx hi).symm

/-- Settles O42: no bit of the bitmap is 1, and the blank frame has none either. -/
theorem drawOfZeroBitmapIsClear : Obligations.DrawOfZeroBitmapIsClear := fun m arg x y hm =>
  opEvents_draw_of_bits (g := fun _ _ => 0x00#8) hm (fun _ _ _ _ _ _ => by simp) arg x y

/-- The bits of a byte that has the one bit n where P holds, and none otherwise. -/
theorem getLsbD_ite_one_shiftLeft (P : Prop) [Decidable P] (n : Nat) {i : Nat} (hi : i < 8) :
    (if P then 1#8 <<< n else 0x00#8).getLsbD i = decide (P ∧ i = n) := by
  split
  · simp only [← BitVec.twoPow_eq, BitVec.getLsbD_twoPow]
    grind
  · simp [*]

/-- Settles O43: the pixel of page y, column x and bit i is the set one exactly where row, column byte and bit agree. -/
theorem singleBitDraw : Obligations.SingleBitDraw := by
  intro m arg x0 y0 r c b hr hc hb hm
  refine opEvents_draw_of_bits hm (fun y x i hy hx hi => ?_) arg x0 y0
  have hpixel : (y = r / 8 ∧ x = 8 * c + (7 - b)) ∧ i = r % 8 ↔
      bmpBase + (16 * (8 * y + i) + x / 8) = bmpBase + (16 * r + c) ∧ 7 - x % 8 = b := by omega
  rw [getLsbD_ite_one_shiftLeft _ _ hi, getLsbD_ite_one_shiftLeft _ _ (by omega), decide_eq_decide]
  exact hpixel

/-! ## The bytes of a frame, one by one (R125) -/

/-- Slot j of page p of the frame f: the page select, the column pair of column 0, and the data bytes (R80, R121). -/
def slotByte (f : Nat → Nat → Byte) (p j : Nat) : Bool × Byte :=
  if j = 0 then (false, 0xB0#8 ||| BitVec.ofNat 8 p)
  else if j = 1 then (false, 0x00#8)
  else if j = 2 then (false, 0x10#8)
  else (true, f p (j - 3))

/-- The 131 bytes of page p of the frame f. -/
def pageBytes (f : Nat → Nat → Byte) (p : Nat) : List (Bool × Byte) := (List.range 131).map (slotByte f p)

theorem pageSelectByte_ofNat {p : Nat} (hp : p < 8) :
    pageSelectByte (BitVec.ofNat 3 p) = 0xB0#8 ||| BitVec.ofNat 8 p := by
  interval_cases p <;> rfl

/-- A page's bytes are three commands and 128 data bytes (R80, R121). -/
theorem pageBytes_eq (f : Nat → Nat → Byte) (p : Nat) :
    pageBytes f p = [(false, 0xB0#8 ||| BitVec.ofNat 8 p), (false, 0x00#8), (false, 0x10#8)]
      ++ (List.range 128).map fun c => (true, f p c) := by
  rw [pageBytes, show 131 = 3 + 128 from rfl, List.range_add, List.map_append, List.map_map]
  rfl

/-- A frame's bytes are its pages' bytes. -/
theorem bytesSent_frameEvents_pages (d : Bool) (f : Nat → Nat → Byte) :
    bytesSent (frameEvents d f) = (List.range' 0 8).flatMap (pageBytes f) := by
  rw [bytesSent_frameEvents]
  refine List.flatMap_congr fun p hp => ?_
  rw [pageSelectByte_ofNat (by simpa using hp), pageBytes_eq, ← List.range_eq_range']
  rfl

theorem length_filter_pageBytes (f : Nat → Nat → Byte) (p : Nat) :
    ((pageBytes f p).filter fun b => !b.1).length = 3 ∧ ((pageBytes f p).filter fun b => b.1).length = 128 := by
  simp [pageBytes_eq, List.filter_map, Function.comp_def]

/-- Byte k of a frame is slot k mod 131 of page k div 131. -/
theorem getElem?_bytesSent_frameEvents (d : Bool) (f : Nat → Nat → Byte) {k : Nat} (hk : k < 1048) :
    (bytesSent (frameEvents d f))[k]? = some (slotByte f (k / 131) (k % 131)) := by
  have hpage : k / 131 < 8 := by omega
  have hslot : k % 131 < 131 := Nat.mod_lt _ (by omega)
  rw [bytesSent_frameEvents_pages, getElem?_flatMap_blocks (n := 131) (by omega) (by simp [pageBytes])]
  simp [pageBytes, hpage, hslot]

/-- Settles O41: each of the three sends the frame of its data bytes, eight blocks of 131 bytes. -/
theorem frameByteSequence : Obligations.FrameByteSequence := by
  intro arg x y m i f hi
  obtain ⟨d, hd⟩ : ∃ d, opEvents i m = frameEvents d f := by
    rcases hi with ⟨rfl, rfl⟩ | ⟨rfl, rfl⟩ | ⟨rfl, rfl⟩ <;> exact ⟨_, rfl⟩
  rw [hd]
  refine ⟨length_bytesSent_frameEvents d f, ?_, ?_, fun k hk => getElem?_bytesSent_frameEvents d f hk⟩ <;>
    simp [bytesSent_frameEvents_pages, List.filter_flatMap, List.length_flatMap, length_filter_pageBytes]

/-! ## CLEAR and DRAW run to their end (R121, R122, R192) -/

/-- The operations of the page loop begin with it and are not INIT. -/
theorem firstPlace_of_pagesOpc {o : BitVec 4} (h : pagesOpc o = true) :
    firstPlace o = .pageSelect ∧ (o == 0x5#4) = false := by
  revert o; decide

/-- An operation that is just started on a configured line. -/
theorem Inv.onLine_started {s : State} (h : Inv s) (hN : s.resetN = true) (hr : s.run = false)
    (hspe : s.cfg.spe = true) (v : Word) : OnLine (Machine.started v s) where
  released := hN
  running := rfl
  fresh := rfl
  configured := h.cfg_of_configured hspe
  sckLow := h.sck_of_configured hspe (h.idleStage hr)

/-- After its last page an operation of the page loop other than INIT ends (R97). -/
theorem ColumnDone.reaches_finish {s t : State} (C : ColumnDone s t 7#3 127#7) (hop : isOp 0x5#4 s = false) :
    Reaches s (finish t) := by
  have hlast : nextColumn t = finish t := by rw [nextColumn_of_last C.cx C.pg, C.kept.isOp_eq, hop]; rfl
  exact hlast ▸ C.reaches

/-- An operation that is the page loop alone sends its frame, whose last byte leaves its bit 0 on MOSI, with DC at the
data level, and changes nothing else the host sees. -/
theorem completes_pages {i : Instr} {s : State} (hi : pagesOpc i.opc = true) (h : Inv s) (hN : s.resetN = true)
    (hr : s.run = false) (hspe : s.cfg.spe = true) (D : HasData (started (encode i) s)) :
    Completes i s fun u =>
      u.pinDc = true ∧ u.pinMosi = (frameData (started (encode i) s) 7 127).getLsbD 0 ∧ u.initd = s.initd ∧
      u.cfg = s.cfg ∧ u.pinRst = s.pinRst ∧ u.pinCs = s.pinCs ∧ u.pinSck = s.pinSck := by
  obtain ⟨hplace, hinit⟩ := firstPlace_of_pagesOpc hi
  have hpg : (started (encode i) s).pg = 0#3 := by simp [started, hi]
  obtain ⟨t, C⟩ := (h.onLine_started hN hr hspe (encode i)).pagesDone 7 D ((started_pos i s).trans hplace)
    (by rw [hpg]; rfl)
  have hu := C.reaches_finish ((isOp_started _ i s).trans hinit)
  exact completes_of_reaches h hN hr (fun _ => hspe) hu rfl
    ⟨C.pinDc, C.pinMosi, C.kept.initd, C.kept.cfg, C.kept.pinRst, C.kept.pinCs, C.kept.pinSck⟩

/-- Settles O34: CLEAR is the page loop with the data byte 0x00, and reads no buffer. -/
theorem clearCompletes : Obligations.ClearCompletes := by
  intro arg x y s h hN hr hspe
  have hdraw : isOp 0x7#4 (started (encode (.clear arg x y)) s) = false := isOp_started _ _ s
  have htest : isOp 0x9#4 (started (encode (.clear arg x y)) s) = false := isOp_started _ _ s
  have hdata : frameData (started (encode (.clear arg x y)) s) = fun _ _ => 0x00#8 := by simp [frameData, hdraw, htest]
  have hends := completes_pages rfl h hN hr hspe (hasData_of_not_draw hdraw)
  rw [hdata] at hends
  exact hends

/-- On a written bitmap DRAW has a byte for every column (R186). -/
theorem hasData_of_bmpWritten {s : State} (h : bmpWritten s.mem) : HasData s := by
  intro t _ hmem
  have hm : ∀ a, a < 1024 → t.mem.read (0x400 + a) = some ((t.mem.read (0x400 + a)).getD 0x00#8) := by
    intro a ha
    obtain ⟨b, hb⟩ := Option.isSome_iff_exists.1
      (h (0x400 + a) (Nat.le_add_right _ _) (by unfold textBase; omega))
    rw [hmem, hb, Option.getD_some]
  obtain ⟨b, hb, _⟩ := pageByte_of_written hm t.pg.isLt t.cx.isLt
  unfold columnByte
  split
  · rw [composePage_eq, hb]
    simp
  · split <;> simp

/-- Settles O35: DRAW is the page loop, and each of its page bytes has a value. -/
theorem drawCompletes : Obligations.DrawCompletes := by
  intro arg x y s h hN hr hspe hbmp
  refine (completes_pages rfl h hN hr hspe (hasData_of_bmpWritten hbmp)).imp ?_
  rintro u - ⟨hdc, -, hkept⟩
  exact ⟨hdc, hkept⟩

end Sys2Proof.Machine
end

section
/-! PROOFS. The text renderer (43_text.md): the glyph classes, the bytes PRINT sends, and PRINT run to its end by fair
turns (R192). -/

namespace Sys2Proof.Machine

/-! ## The glyph classes (R135, R136) -/

theorem glyphClass_of_digit {c : Byte} (h : 0x30 ≤ c.toNat ∧ c.toNat ≤ 0x39) :
    glyphClass c = .digit (Fin.ofNat 10 (c.toNat - 0x30)) := by
  rw [glyphClass, if_pos h]

theorem glyphClass_of_upper {c : Byte} (h : 0x41 ≤ c.toNat ∧ c.toNat ≤ 0x5A) :
    glyphClass c = .letter (Fin.ofNat 26 (c.toNat - 0x41)) := by
  rw [glyphClass, if_neg (by omega), if_pos h]

theorem glyphClass_of_lower {c : Byte} (h : 0x61 ≤ c.toNat ∧ c.toNat ≤ 0x7A) :
    glyphClass c = .letter (Fin.ofNat 26 (c.toNat - 0x61)) := by
  rw [glyphClass, if_neg (by omega), if_neg (by omega), if_pos h]

theorem glyphClass_of_other {c : Byte} (hdigit : ¬ (0x30 ≤ c.toNat ∧ c.toNat ≤ 0x39))
    (hupper : ¬ (0x41 ≤ c.toNat ∧ c.toNat ≤ 0x5A)) (hlower : ¬ (0x61 ≤ c.toNat ∧ c.toNat ≤ 0x7A))
    (hleft : c ≠ 0x3C#8) (hright : c ≠ 0x3E#8) : glyphClass c = .blank := by
  rw [glyphClass, if_neg hdigit, if_neg hupper, if_neg hlower, if_neg (by bv_omega), if_neg (by bv_omega)]

/-- The lower-case code of a letter stands 0x20 above the upper-case one, and both have the same class (R135). -/
theorem glyphClass_fold_case {c : Byte} (h : 0x41 ≤ c.toNat ∧ c.toNat ≤ 0x5A) :
    glyphClass (c + 0x20#8) = glyphClass c := by
  have hlower : (c + 0x20#8).toNat = c.toNat + 0x20 := by bv_omega
  rw [glyphClass_of_upper h, glyphClass_of_lower (by omega), hlower, Nat.add_sub_add_right c.toNat 0x20 0x41]

/-- Settles O44: each range of codes has its own class, and the blank's bytes are all zero. -/
theorem glyphsFoldCaseAndBlank : Obligations.GlyphsFoldCaseAndBlank := by
  refine ⟨fun c h h' => ⟨glyphClass_fold_case ⟨h, h'⟩, glyphClass_of_upper ⟨h, h'⟩⟩,
    fun c h h' => glyphClass_of_digit ⟨h, h'⟩, rfl, rfl, ?_, rfl⟩
  intro c hdigit hupper hlower hleft hright k
  rw [glyphClass_of_other hdigit hupper hlower hleft hright, glyph]

/-! ## The bytes PRINT sends (R138, R140) -/

theorem length_textFrom_le (m : Memory) (n i : Nat) : (textFrom m n i).length ≤ n := by
  induction n generalizing i with
  | zero => rfl
  | succ n ih =>
    have := ih (i + 1)
    unfold textFrom
    split
    · split
      · exact Nat.zero_le _
      · exact Nat.succ_le_succ this
    · exact Nat.zero_le _

/-- A character's bytes are its column pair and the five bytes of its glyph (R138). -/
theorem bytesSent_charEvents (x : BitVec 7) (i : Nat) (c : Byte) :
    bytesSent (charEvents x i c) =
      [(false, columnLowByte (charColumn x i)), (false, columnHighByte (charColumn x i))]
        ++ (List.range' 0 5).map fun k => (true, glyph (glyphClass c) (Fin.ofNat 5 k)) := by
  simp [charEvents, glyphEvents, bytesSent_flatMap, Config.charWidth, ← List.map_eq_flatMap]

/-- Each character is two commands and five data bytes (R140). -/
theorem length_filter_bytesSent_stringEvents (x : BitVec 7) (i : Nat) (cs : List Byte) :
    ((bytesSent (stringEvents x i cs)).filter fun p => !p.1).length = 2 * cs.length ∧
    ((bytesSent (stringEvents x i cs)).filter fun p => p.1).length = 5 * cs.length := by
  induction cs generalizing i with
  | nil => exact ⟨rfl, rfl⟩
  | cons c cs ih =>
    obtain ⟨hcommands, hdata⟩ := ih (i + 1)
    constructor <;> simp [stringEvents, bytesSent_charEvents, List.filter_map, Function.comp_def, *] <;> ring

/-- PRINT's bytes are the page select and the string's bytes (R138). -/
theorem bytesSent_printEvents (m : Memory) (x : BitVec 7) (y : BitVec 3) :
    bytesSent (printEvents m x y) =
      (false, pageSelectByte y) :: bytesSent (stringEvents x 0 (textString m)) := by
  simp [printEvents]

/-- Settles O45: the counts of the commands and of the data bytes add up to the whole count. -/
theorem printByteCount : Obligations.PrintByteCount := by
  intro arg x y m
  obtain ⟨hcommands, hdata⟩ := length_filter_bytesSent_stringEvents x 0 (textString m)
  have hsplit := List.length_eq_length_filter_add (l := bytesSent (stringEvents x 0 (textString m))) fun p => p.1
  rw [opEvents, bytesSent_printEvents]
  refine ⟨length_textFrom_le m _ 0, ?_, ?_, ?_⟩
  · rw [List.length_cons]
    omega
  · simp [hcommands, Nat.add_comm]
  · simp [hdata]

/-! ## PRINT run to its end (R138, R139, R192) -/

/-- PRINT's loop ends with the buffer (R139). -/
theorem fetchChar_of_bufferEnd {s : State} (h : ¬ s.ci.toNat < Config.textBytes) : fetchChar s = .next (finish s) := by
  rw [fetchChar, if_neg h]

/-- PRINT's loop ends at the terminator (R139). -/
theorem fetchChar_of_terminator {s : State} (h : s.ci.toNat < Config.textBytes)
    (hm : s.mem.read (textOffset s.ci.toNat) = some 0x00#8) : fetchChar s = .next (finish s) := by
  simp [fetchChar, h, hm]

/-- Character CI of the string is c; POS is at the first byte of its column pair (R138). -/
def charFetched (c : Byte) (s : State) : State :=
  goTo .charLow { s with ch := c, cc := charColumn (xField s.cur) s.ci.toNat }

theorem fetchChar_of_char {s : State} {c : Byte} (h : s.ci.toNat < Config.textBytes)
    (hm : s.mem.read (textOffset s.ci.toNat) = some c) (hc : c ≠ 0x00#8) : fetchChar s = .next (charFetched c s) := by
  simp [fetchChar, h, hm, hc, charFetched]

theorem OnLine.kept_charFetched {s : State} (L : OnLine s) (c : Byte) : LineKept s (charFetched c s) :=
  { LineKept.refl s with stage := L.fresh.symm }

/-- From s, fair turns send what is left of character CI; t is the block there, about to look at the next character.
DC is at the data level. -/
structure CharDone (s t : State) : Prop where
  reaches : ∀ u, fetchChar t = .next u → Reaches s u
  kept : LineKept s t
  ci : t.ci = s.ci + 1#11
  pinDc : t.pinDc = true

theorem CharDone.after {s s' t : State} (C : CharDone s' t) (h : Reaches s s') (K : LineKept s s')
    (hci : s'.ci = s.ci) : CharDone s t where
  reaches u hu := h.trans (C.reaches u hu)
  kept := K.trans C.kept
  ci := by rw [C.ci, hci]
  pinDc := C.pinDc

theorem advance_glyphByte_of_left {s : State} (hp : s.pos = .glyphByte) (h : s.gk.toNat < 4) :
    advance s = .next (goTo .glyphByte { s with gk := s.gk + 1#3 }) := by
  simp only [advance, hp, if_pos h]

/-- After the last glyph byte PRINT looks at the next character (R138). -/
theorem advance_glyphByte_of_last {s : State} (hp : s.pos = .glyphByte) (h : ¬ s.gk.toNat < 4) :
    advance s = fetchChar { s with ci := s.ci + 1#11 } := by
  simp only [advance, hp, if_neg h]

/-- The glyph byte at POS is sent, and POS moves on. -/
theorem OnLine.reaches_glyphByteSent {s : State} (L : OnLine s) (hp : s.pos = .glyphByte) :
    ∃ b, ∀ t, advance (effect (.send true b) s) = .next t → Reaches s t := by
  have hm : microOpAt s = .ok (.send true (glyph (glyphClass s.ch) (Fin.ofNat 5 s.gk.toNat)), s) := by
    simp only [microOpAt, hp]
  exact ⟨_, fun _ => L.reaches_microOp hm⟩

/-- The glyph bytes from POS on are sent, n of them after the first. -/
theorem OnLine.glyphDone (n : Nat) {s : State} (L : OnLine s) (hp : s.pos = .glyphByte) (hn : s.gk.toNat + n = 4) :
    ∃ t, CharDone s t := by
  induction n generalizing s with
  | zero =>
    obtain ⟨b, hsent⟩ := L.reaches_glyphByteSent hp
    have hadv := advance_glyphByte_of_last (s := effect (.send true b) s) hp (Nat.not_lt.2 hn.ge)
    exact ⟨_, fun u hu => hsent u (hadv.trans hu), { L.kept_send true b s.bi with }, rfl, rfl⟩
  | succ n ih =>
    obtain ⟨b, hsent⟩ := L.reaches_glyphByteSent hp
    have hlt : s.gk.toNat < 4 := by omega
    have hadv := advance_glyphByte_of_left (s := effect (.send true b) s) hp hlt
    have K : LineKept s (goTo .glyphByte { effect (.send true b) s with gk := s.gk + 1#3 }) :=
      { L.kept_send true b s.bi with }
    obtain ⟨t, C⟩ := ih (K.onLine L) rfl (show (s.gk + 1#3).toNat + n = 4 by bv_omega)
    exact ⟨t, C.after (hsent _ hadv) K rfl⟩

/-- What the column pair of character CI leaves (R137), POS being at the first byte of its glyph. -/
def columnPairSent (s : State) : State :=
  goTo .glyphByte { effect (.send false (columnHighByte s.cc)) (goTo .charHigh
    (effect (.send false (columnLowByte s.cc)) s)) with gk := 0#3 }

theorem OnLine.kept_columnPairSent {s : State} (L : OnLine s) : LineKept s (columnPairSent s) :=
  { L.kept_send false (columnLowByte s.cc) s.bi with }

theorem OnLine.reaches_columnPairSent {s : State} (L : OnLine s) (hp : s.pos = .charLow) :
    Reaches s (columnPairSent s) := by
  have hm : microOpAt s = .ok (.send false (columnLowByte s.cc), s) := by simp only [microOpAt, hp]
  have L1 := L.afterSend false (columnLowByte s.cc) .charHigh
  refine (L.reaches_microOp hm ?_).trans (L1.reaches_microOp rfl rfl)
  simp only [advance, effect, hp]

/-- Character CI is sent, its column pair and its glyph. -/
theorem OnLine.charDone {s : State} (L : OnLine s) (hp : s.pos = .charLow) : ∃ t, CharDone s t := by
  have K := L.kept_columnPairSent
  obtain ⟨t, C⟩ := (K.onLine L).glyphDone 4 rfl rfl
  exact ⟨t, C.after (L.reaches_columnPairSent hp) K rfl⟩

/-- From s, about to look at character CI with at most n left in the buffer, the loop goes on and fair turns bring it
to its end; t is the block there, before it ends. A character sent leaves DC at the data level. -/
structure StringDone (s t : State) (n : Nat) : Prop where
  reaches : ∃ u, fetchChar s = .next u ∧ Reaches u (finish t)
  kept : LineKept s t
  pinDc : t.pinDc = (s.pinDc || !(textFrom s.mem n s.ci.toNat).isEmpty)

/-- Where PRINT's loop looks at no further character, it has come to its end. -/
theorem StringDone.of_end {s : State} {n : Nat} (hfetch : fetchChar s = .next (finish s))
    (htext : textFrom s.mem n s.ci.toNat = []) : StringDone s s n where
  reaches := ⟨_, hfetch, Reaches.refl _⟩
  kept := LineKept.refl s
  pinDc := by simp [htext]

/-- The rest of a written string is sent. -/
theorem OnLine.stringDone (n : Nat) {s : State} (L : OnLine s) (hn : s.ci.toNat + n = Config.textBytes)
    (hw : textWritten s.mem n s.ci.toNat = true) : ∃ t, StringDone s t n := by
  induction n generalizing s with
  | zero => exact ⟨s, .of_end (fetchChar_of_bufferEnd (by omega)) rfl⟩
  | succ n ih =>
    have hlt : s.ci.toNat < Config.textBytes := by omega
    cases hm : s.mem.read (textOffset s.ci.toNat) with
    | none => simp [textWritten, hm] at hw
    | some c =>
      by_cases hc : c = 0x00#8
      · subst hc
        exact ⟨s, .of_end (fetchChar_of_terminator hlt hm) (by simp [textFrom, hm])⟩
      · have K := L.kept_charFetched c
        obtain ⟨t, C⟩ := (K.onLine L).charDone rfl
        have Kt := K.trans C.kept
        have hci : t.ci.toNat = s.ci.toNat + 1 := by
          have hci' : t.ci = s.ci + 1#11 := C.ci
          unfold Config.textBytes at hlt
          bv_omega
        have hw' : textWritten t.mem n t.ci.toNat = true := by
          simpa [textWritten, hm, hc, hci, Kt.mem] using hw
        obtain ⟨u, D⟩ := ih (Kt.onLine L) (by omega) hw'
        obtain ⟨v, hv, hend⟩ := D.reaches
        refine ⟨u, ⟨_, fetchChar_of_char hlt hm hc, (C.reaches v hv).trans hend⟩, Kt.trans D.kept, ?_⟩
        simp [D.pinDc, C.pinDc, textFrom, hm, hc]

/-- What the page select leaves (R138): PRINT is about to look at character 0. -/
def pageSelected (s : State) : State := { effect (.send false (pageSelectByte (yField s.cur))) s with ci := 0#11 }

theorem OnLine.kept_pageSelected {s : State} (L : OnLine s) : LineKept s (pageSelected s) :=
  { L.kept_send false (pageSelectByte (yField s.cur)) s.bi with }

/-- The page select is sent, and PRINT looks at character 0. -/
theorem OnLine.reaches_pageSelected {s t : State} (L : OnLine s) (hp : s.pos = .printSelect)
    (ht : fetchChar (pageSelected s) = .next t) : Reaches s t := by
  have hm : microOpAt s = .ok (.send false (pageSelectByte (yField s.cur)), s) := by simp only [microOpAt, hp]
  refine L.reaches_microOp hm (Eq.trans ?_ ht)
  simp only [advance, effect, pageSelected, hp]

/-- Settles O36: PRINT is the page select and the loop over the string; DC is at the command level after the page
select, and each character brings it to the data level. -/
theorem printCompletes : Obligations.PrintCompletes := by
  intro arg x y s h hN hr hspe hw
  have L := h.onLine_started hN hr hspe (encode (.print arg x y))
  have K := L.kept_pageSelected
  obtain ⟨t, D⟩ := (K.onLine L).stringDone Config.textBytes (Nat.zero_add _) hw
  obtain ⟨v, hv, hend⟩ := D.reaches
  have Kt := K.trans D.kept
  exact completes_of_reaches h hN hr (fun _ => hspe) ((L.reaches_pageSelected (started_pos _ s) hv).trans hend) rfl
    ⟨D.pinDc, Kt.initd, Kt.cfg, Kt.pinRst, Kt.pinCs, Kt.pinSck⟩

end Sys2Proof.Machine
end

section
/-! PROOFS. Diagnostics (44_diagnostics.md): TESTFILL run to its end by fair turns (R150, R192). -/

namespace Sys2Proof.Machine

/-- Every data byte of TESTFILL's frame is lit (R150). -/
theorem frameData_of_testfill {s : State} (hdraw : isOp 0x7#4 s = false) (htest : isOp 0x9#4 s = true) :
    frameData s = fun _ _ => 0xFF#8 := by
  simp [frameData, hdraw, htest]

/-- Settles O37: TESTFILL is the page loop with the data byte 0xFF, whose bit 0 stays on MOSI, and reads no buffer. -/
theorem testfillCompletes : Obligations.TestfillCompletes := by
  intro arg x y s h hN hr hspe
  have hdraw : isOp 0x7#4 (started (encode (.testfill arg x y)) s) = false := isOp_started _ _ s
  have htest : isOp 0x9#4 (started (encode (.testfill arg x y)) s) = true := isOp_started _ _ s
  have hends := completes_pages rfl h hN hr hspe (hasData_of_not_draw hdraw)
  rw [frameData_of_testfill hdraw htest] at hends
  exact hends

end Sys2Proof.Machine
end

section
/-! PROOFS. The exceptions (60_exceptions.md): a transfer on an unconfigured block (R163), and the moves that set and
clear the error flags (R160, R166). -/

namespace Sys2Proof.Machine

/-! ## A transfer on an unconfigured block (R163) -/

theorem exec_of_unconfigured {i : Instr} {s : State} (hr : s.run = false) (hi : transferOpc i.opc = true)
    (hspe : s.cfg.spe = false) : exec i s = .next (raise .notcfg s) := by
  rw [exec_eq_submit, submit, if_neg (by simp [hr]), if_pos (by simp [hi, hspe])]

/-- An operation that needs no configuration is busy or starts, and neither writes ERR_NOTCFG. -/
theorem exec_errNotcfg {i : Instr} {s t : State} (hi : transferOpc i.opc = false) (h : exec i s = .next t) :
    t.errNotcfg = s.errNotcfg := by
  rcases exec_cases h with ⟨_, rfl⟩ | ⟨_, htransfer, _⟩ | ⟨_, _, rfl⟩
  · rfl
  · simp [hi] at htransfer
  · rfl

/-- Settles O9: the six named first are the operations that transfer bytes, and the three named last are not. -/
theorem unconfiguredTransferRaisesErrNotcfg : Obligations.UnconfiguredTransferRaisesErrNotcfg := by
  intro arg x y s
  refine ⟨fun hr hspe i hi => exec_of_unconfigured hr ?_ hspe, fun i hi t => exec_errNotcfg ?_⟩
  · fin_cases hi <;> rfl
  · fin_cases hi <;> rfl

/-! ## The three error flags, as one -/

/-- The flag as the block holds it (R29 to R31). -/
def ErrorFlag.isSet (e : ErrorFlag) (s : State) : Bool :=
  match e with
  | .illegal => s.errIllegal
  | .busy => s.errBusy
  | .notcfg => s.errNotcfg

/-- The flag's bit of STATUS (R29 to R31). -/
def ErrorFlag.statusBit : ErrorFlag → Nat
  | .illegal => 8
  | .busy => 9
  | .notcfg => 10

/-- Raising sets its own flag and leaves the other two (R165). -/
theorem isSet_raise (e f : ErrorFlag) (s : State) : e.isSet (raise f s) = (e == f || e.isSet s) := by
  cases e <;> cases f <;> rfl

/-- A STATUS write clears the flag if its bit is 1 (R32). -/
theorem isSet_clearErrors (e : ErrorFlag) (v : Word) (s : State) :
    e.isSet (clearErrors v s) = (e.isSet s && !v.getLsbD e.statusBit) := by
  cases e <;> rfl

theorem isSet_started (e : ErrorFlag) (v : Word) (s : State) : e.isSet (started v s) = e.isSet s := by
  cases e <;> rfl

theorem isSet_hostStore (e : ErrorFlag) (a : Nat) (bs : List Byte) (s : State) :
    e.isSet (hostStore a bs s) = e.isSet s := by
  rw [hostStore_frame]; cases e <;> rfl

theorem isSet_drainOne (e : ErrorFlag) (s : State) : e.isSet (drainOne s) = e.isSet s := by
  cases e <;> simp [ErrorFlag.isSet]

theorem EngineKept.isSet_eq {s t : State} (K : EngineKept s t) (e : ErrorFlag) : e.isSet t = e.isSet s := by
  cases e with
  | illegal => exact K.errIllegal
  | busy => exact K.errBusy
  | notcfg => exact K.errNotcfg

/-! ## What sets a flag, and what clears it (R160, R166) -/

/-- An OP write never clears a flag. -/
theorem isSet_opOutcome (e : ErrorFlag) (v : Word) (s : State) :
    e.isSet (opOutcome v s) = e.isSet s ∨ e.isSet (opOutcome v s) = true := by
  have hraise (f : ErrorFlag) : e.isSet (raise f s) = e.isSet s ∨ e.isSet (raise f s) = true := by
    rw [isSet_raise]
    cases e == f <;> simp
  rcases opWrite_cases (opWrite_eq v s) with h | h | h | ⟨i, h⟩ <;> rw [h]
  · exact hraise _
  · exact hraise _
  · exact hraise _
  · exact .inl (isSet_started e _ s)

/-- A STATUS write changes a flag only by clearing it, with the flag's bit 1. -/
theorem clearErrors_changes {e : ErrorFlag} {v : Word} {s : State} (h : e.isSet (clearErrors v s) ≠ e.isSet s) :
    v.getLsbD e.statusBit = true ∧ e.isSet (clearErrors v s) = false := by
  rw [isSet_clearErrors] at h ⊢
  cases hv : v.getLsbD e.statusBit <;> simp [hv] at h ⊢

/-- Outside block reset, a move that changes a flag is an OP write, which sets it, or a STATUS write with the flag's
bit, which clears it. -/
theorem runTurn_changes_flag {e : ErrorFlag} {t : Turn} {s u : State} (hN : s.resetN = true)
    (hu : runTurn t s = .next u) (hreset : t ≠ .resetPin false) (hne : e.isSet u ≠ e.isSet s) :
    (∃ v, t = .host (.write 0x000#12 .b4 v) ∧ e.isSet u = true) ∨
      ∃ v, t = .host (.write 0x004#12 .b4 v) ∧ v.getLsbD e.statusBit = true ∧ e.isSet u = false := by
  simp only [runTurn, hN, if_true] at hu
  cases t with
  | host a =>
    cases a with
    | read off n => cases hu; cases e <;> exact absurd rfl hne
    | write off n v =>
      rcases hostWrite_outcome hu with ⟨rfl, rfl, rfl⟩ | ⟨rfl, rfl, rfl⟩ | rfl | rfl
      · exact .inl ⟨v, rfl, (isSet_opOutcome e v s).resolve_left hne⟩
      · exact .inr ⟨v, rfl, clearErrors_changes hne⟩
      · exact absurd (isSet_hostStore e _ _ s) hne
      · exact absurd rfl hne
  | engine => exact absurd ((engineTurn_kept hu).isSet_eq e) hne
  | line => cases hu; exact absurd ((lineTurn_kept s).isSet_eq e) hne
  | drain => cases hu; exact absurd (isSet_drainOne e s) hne
  | resetPin level =>
    obtain rfl : level = true := by simpa using hreset
    cases hu
    exact absurd rfl hne

/-- Settles O51: the three flags follow one rule, each with its own bit of STATUS. -/
theorem errorFlagsAreSticky : Obligations.ErrorFlagsAreSticky := fun _ _ _ hN hu hreset =>
  ⟨runTurn_changes_flag (e := .illegal) hN hu hreset, runTurn_changes_flag (e := .busy) hN hu hreset,
    runTurn_changes_flag (e := .notcfg) hN hu hreset⟩

end Sys2Proof.Machine
end

section
/-! PROOFS. Block reset and the idle block (70_reset_and_hazards.md R180 to R182), the minimum times of the operations
(R191), and the host's own initialisation (R185). -/

namespace Sys2Proof.Machine

/-! ## An idle block (R181) -/

/-- Settles O55: neither the sequencer nor the line does anything while BUSY is 0. -/
theorem idleBlockStartsNothing : Obligations.IdleBlockStartsNothing := by
  intro s hN hr
  constructor
  · simp [runTurn, hN, engineTurn, hr]
  · simp [runTurn, hN, lineTurn, hr]

/-! ## Block reset (R180, R182) -/

theorem runTurn_of_held {s : State} (hN : s.resetN = false) (t : Turn) : runTurn t s = .next (turnInReset t s) := by
  simp [runTurn, hN]

/-- The words the host reads of a block that was reset, whatever the level of RESET_N (R42). -/
theorem words_blockReset (s : State) (level : Bool) :
    statusWord { blockReset s with resetN := level } = 0x00000002#32 ∧
      pinsWord { blockReset s with resetN := level } = 0x00000006#32 ∧ cfgWord (blockReset s).cfg = 0#32 := by
  obtain ⟨_, hstatus, hpins, hcfg, _⟩ := resetValues
  exact ⟨hstatus, hpins, hcfg⟩

/-- Settles O54: a move in reset leaves the reset values, and the release of RESET_N nothing but its level besides. -/
theorem heldResetIgnoresTheHost : Obligations.HeldResetIgnoresTheHost := by
  intro s hN
  obtain ⟨hstatus, hpins, _⟩ := words_blockReset s true
  refine ⟨fun off n => runTurn_of_held hN _, fun off n v => runTurn_of_held hN _, fun t ht => ?_,
    _, runTurn_of_held hN _, rfl, rfl, hstatus, hpins⟩
  rw [runTurn_of_held hN]
  fin_cases ht <;> rfl

/-- Settles O53: block reset leaves the reset values, at which the block stays while it is held, and of which none is
left for the engine, the line or a drain to go on with once it is released. -/
theorem blockResetAbandonsOperation : Obligations.BlockResetAbandonsOperation := by
  intro s hN
  obtain ⟨hstatus, hpins, hcfg⟩ := words_blockReset s false
  have hlow : runTurn (.resetPin false) s = .next (blockReset s) := by simp [runTurn, hN]
  refine ⟨blockReset s, hlow, rfl, rfl, hstatus, hpins, hcfg, rfl, fun _ => rfl, _, runTurn_of_held rfl _, rfl,
    fun t ht => ⟨?_, runTurn_of_idle rfl rfl rfl ?_⟩⟩
  · rw [runTurn_of_held rfl]
    fin_cases ht <;> rfl
  · fin_cases ht <;> simp [blockMoves]

/-! ## Minimum times (R191) -/

/-- The cycles of one send: eight bits of PRESCALER cycles and the settle delay (R92, R104). -/
def sendCycles : Nat := 8 * Config.prescaler + Config.settleCycles

theorem traceCycles_send (dc : Bool) (b : Byte) : traceCycles (sendEvents dc b) = sendCycles :=
  traceCycles_sendEvents dc b

/-- The reset pulse takes its two waits (R99). -/
theorem traceCycles_pulseEvents : traceCycles pulseEvents = (Duration.ms 5).count + (Duration.ms 1).count := by
  simp [pulseEvents, traceCycles, traceCycles_waitEvents, Config.tRstLowMs, Config.tRstRecMs]

theorem traceCycles_seqEvents (es : List DcByte) : traceCycles (seqEvents es) = es.length * sendCycles :=
  traceCycles_flatMap es fun e => traceCycles_send e.1 e.2

/-- A page is 3 + 128 sends, with the delay after each data byte (R80). -/
theorem traceCycles_page (delay : Bool) (f : Nat → Nat → Byte) (p : Nat) :
    traceCycles (headerEvents p ++ columnEvents delay f p 0) =
      131 * sendCycles + 128 * traceCycles (delayEvents delay) := by
  have hcolumns : traceCycles (columnEvents delay f p 0) =
      128 * (sendCycles + traceCycles (delayEvents delay)) :=
    traceCycles_flatMap _ fun c => by rw [traceCycles_append, traceCycles_send]
  simp only [headerEvents, traceCycles_append, traceCycles_send, hcolumns]
  ring

/-- A frame is 8 pages (R125). -/
theorem traceCycles_frameEvents (delay : Bool) (f : Nat → Nat → Byte) :
    traceCycles (frameEvents delay f) = 1048 * sendCycles + 1024 * traceCycles (delayEvents delay) := by
  have hpages : traceCycles (frameEvents delay f) = 8 * _ := traceCycles_flatMap _ (traceCycles_page delay f)
  rw [hpages]
  ring

/-- A character is two commands and five data bytes (R138). -/
theorem traceCycles_charEvents (x : BitVec 7) (i : Nat) (c : Byte) :
    traceCycles (charEvents x i c) = 7 * sendCycles := by
  have hglyph : traceCycles (glyphEvents c 0) = 5 * sendCycles :=
    traceCycles_flatMap _ fun k => traceCycles_send true _
  simp only [charEvents, traceCycles_append, traceCycles_send, hglyph]
  ring

theorem traceCycles_stringEvents (x : BitVec 7) (i : Nat) (cs : List Byte) :
    traceCycles (stringEvents x i cs) = 7 * cs.length * sendCycles := by
  induction cs generalizing i with
  | nil => simp [stringEvents, traceCycles]
  | cons c cs ih =>
    rw [stringEvents, traceCycles_append, traceCycles_charEvents, ih, List.length_cons]
    ring

/-- Settles O47: each trace is made of the pulse, of sends, and of TESTFILL's delays, whose cycles add up. -/
theorem minimumTimes : Obligations.MinimumTimes := by
  intro arg x y m c hc
  obtain rfl : c = sendCycles := hc
  have hframe (f : Nat → Nat → Byte) : traceCycles (frameEvents false f) = 1048 * sendCycles :=
    traceCycles_frameEvents false f
  have hlit (f : Nat → Nat → Byte) :
      traceCycles (frameEvents true f) = 1048 * sendCycles + 1024 * Config.testColDelay := by
    rw [traceCycles_frameEvents, delayEvents, if_pos rfl, traceCycles_waitEvents, Duration.count]
  refine ⟨traceCycles_send _ _, traceCycles_send _ _, hframe _, hframe _, hlit _, ?_, traceCycles_pulseEvents, ?_⟩
  · simp only [opEvents, printEvents, traceCycles_append, traceCycles_send, traceCycles_stringEvents]
    ring
  · simp only [opEvents, initEvents, traceCycles_append, traceCycles_pulseEvents, traceCycles_seqEvents, hframe,
      traceCycles, List.length_append]
    ring

/-! ## The host's own initialisation (R185) -/

/-- An idle block with the invariant, RESET_N being 1. -/
structure Ready (s : State) : Prop where
  inv : Inv s
  released : s.resetN = true
  idle : s.run = false

/-- The host program p can be run from s to its end, and leaves the block idle again at t, having emitted es. -/
structure Emits (p : List HostStep) (es : List Event) (s t : State) : Prop where
  runs : Runs p s t
  ready : Ready t
  trace : t.trace = s.trace ++ es

theorem Emits.nil {s : State} (R : Ready s) : Emits [] [] s s := ⟨.nil s, R, (List.append_nil _).symm⟩

theorem Emits.append {p q : List HostStep} {es fs : List Event} {s t u : State} (E : Emits p es s t)
    (F : Emits q fs t u) : Emits (p ++ q) (es ++ fs) s u :=
  ⟨E.runs.append F.runs, F.ready, by rw [F.trace, E.trace, List.append_assoc]⟩

/-- op_wait of an operation that completes with P: the OP write, its fair turns, and the poll that finds the block idle
(R85, R192). -/
theorem Completes.emits {i : Instr} {s : State} {P : State → Prop} (C : Completes i s P) (R : Ready s)
    (hc : transferOpc i.opc = true → s.cfg.spe = true) :
    ∃ u, Emits (opWait i) (opEvents i s.mem) s (polled u) ∧ P u := by
  obtain ⟨_, n, u, hrun, hidle, _, _, htrace, _, hP⟩ := C
  have Q := ((Performs.started R.inv R.released R.idle hc).reaches ⟨n, hrun⟩).1
  have hwrite : runTurn (.host (.write 0x000#12 .b4 (encode i))) s = .next (started (encode i) s) := by
    rw [runTurn_opWrite _ R.released, opWrite_eq,
      opOutcome_of_accepted R.idle (wordLegal_encode i) (by simpa using hc)]
  have hruns : Runs (opWait i) s (polled u) := (runs_access hwrite).append (runs_wait ⟨n, hrun⟩ Q.released hidle)
  exact ⟨u, ⟨hruns, ⟨Q.polled.inv, Q.released, hidle⟩, htrace⟩, hP⟩

/-- The host sends one byte of a sequence by cmd or data, by its DC level (R185). -/
theorem Ready.emits_send {s : State} (R : Ready s) (hspe : s.cfg.spe = true) (e : DcByte) :
    ∃ t, Emits (sendProgram e) (sendEvents e.1 e.2) s t ∧ t.cfg = s.cfg ∧ t.initd = s.initd := by
  obtain ⟨hcmd, hdata⟩ := cmdAndDataComplete e.2 0#7 0#3 s R.inv R.released R.idle hspe
  obtain ⟨dc, b⟩ := e
  cases dc with
  | false =>
    obtain ⟨u, E, _, _, hinitd, hcfg, _⟩ := hcmd.emits R fun _ => hspe
    exact ⟨polled u, E, hcfg, hinitd⟩
  | true =>
    obtain ⟨u, E, _, _, hinitd, hcfg, _⟩ := hdata.emits R fun _ => hspe
    exact ⟨polled u, E, hcfg, hinitd⟩

/-- The host sends a sequence byte by byte. -/
theorem Ready.emits_seq {s : State} (R : Ready s) (hspe : s.cfg.spe = true) (es : List DcByte) :
    ∃ t, Emits (es.flatMap sendProgram) (seqEvents es) s t ∧ t.cfg = s.cfg ∧ t.initd = s.initd := by
  induction es generalizing s with
  | nil => exact ⟨s, .nil R, rfl, rfl⟩
  | cons e es ih =>
    obtain ⟨t, E, hcfg, hinitd⟩ := R.emits_send hspe e
    obtain ⟨u, F, hcfg', hinitd'⟩ := ih E.ready (by rw [hcfg, hspe])
    exact ⟨u, E.append F, hcfg'.trans hcfg, hinitd'.trans hinitd⟩

/-- Settles O48: the program's parts emit the pulse, Cfg, the two sequences and the blank frame, as INIT's rule does;
reset clears INITD, and none of the other operations sets it. -/
theorem manualInitGivesInitTrace : Obligations.ManualInitGivesInitTrace := by
  intro s h hN hr
  have R : Ready s := ⟨h, hN, hr⟩
  obtain ⟨u₁, E₁, hinitd₁, _⟩ := (resetCompletes 0#8 0#7 0#3 s h hN hr).emits R nofun
  obtain ⟨u₂, E₂, hcfg₂, _, _, hinitd₂, _⟩ := (configCompletes 0#8 0#7 0#3 _ E₁.ready.inv E₁.ready.released
    E₁.ready.idle).emits E₁.ready nofun
  obtain ⟨u₃, E₃, hcfg₃, hinitd₃⟩ := E₂.ready.emits_seq (congrArg CfgReg.spe hcfg₂)
    (Config.unlockSeq ++ Config.setupSeq)
  have hspe₃ : u₃.cfg.spe = true := (congrArg CfgReg.spe hcfg₃).trans (congrArg CfgReg.spe hcfg₂)
  obtain ⟨u₄, E₄, _, _, hinitd₄, hcfg₄, _⟩ := (clearCompletes 0#8 0#7 0#3 _ E₃.ready.inv E₃.ready.released
    E₃.ready.idle hspe₃).emits E₃.ready fun _ => hspe₃
  have E := ((E₁.append E₂).append E₃).append E₄
  obtain ⟨ks, hrun⟩ := E.runs.toEnd
  exact ⟨ks, polled u₄, hrun, E.trace, hinitd₄.trans (hinitd₃.trans (hinitd₂.trans hinitd₁)), E.ready.idle,
    hcfg₄.trans (hcfg₃.trans hcfg₂)⟩

end Sys2Proof.Machine
end
